-- ==== Sys2Proof/Word.lean ====
section
/-!
DEFINITION. The widths of 00_scope.md R7 and R8. All values of CORE are unsigned; a bit vector stands only where the spec
has a stored word or a field of the instruction word.
-/
namespace Sys2Proof

/-- An 8-bit value: general registers, timers, memory bytes (R7). -/
abbrev Byte := BitVec 8

/-- A 16-bit value: pc, I, stack slots, PITCH, instruction words (R7). -/
abbrev Word := BitVec 16

/-- A 4-bit immediate field: a row count, a scroll distance or a plane mask (R94). -/
abbrev Nibble := BitVec 4

/-- A 12-bit address field NNN (R91). -/
abbrev Addr12 := BitVec 12

/-- The index of a general register, V0 to VF (R20). -/
abbrev Reg := Fin 16

end Sys2Proof
end

