-- ==== Sys2Proof/Config.lean ====
section
/-!
DEFINITION. What is fixed when CORE is constructed (00_scope.md R2, R3, R7), and the free values of 00_scope.md R11 and
60_exceptions.md R272: opaque constants, so that no proof can see a value. (The free state left by a fault,
`Config.afterFault`, stands beside State in Machine/State.lean.)

The mode, the quirks and IPF are registers of CORE that reset writes (10_state.md R37): they are fields of State, and every
statement about every state covers every configuration. The font tables and bases stand in Machine/Memory.lean.
-/
namespace Sys2Proof

/-- The platform mode, R2: a closed set of three, fixed at reset, no privilege level (60_exceptions.md R279). -/
inductive Mode where
  | chip8
  | schip
  | xochip
  deriving DecidableEq, Repr, Inhabited

/-- The five quirk flags, R3; each field is the flag of that name, `true` meaning the behaviour the name spells. -/
structure Quirks where
  /-- `Q_LOGIC_RESETS_VF`: after OR, AND, XOR, VF is set to 0. -/
  logicResetsVF : Bool
  /-- `Q_SHIFT_USES_VY`: SHR and SHL shift V[Y] (legacy), not V[X]. -/
  shiftUsesVY : Bool
  /-- `Q_JUMP_USES_VX`: jump-with-offset adds V[X] (modern), not V[0]. -/
  jumpUsesVX : Bool
  /-- `Q_MEM_INCREMENTS_I`: Fx55 and Fx65 add X + 1 to I. -/
  memIncrementsI : Bool
  /-- `Q_CLIP_SPRITES`: a sprite past an edge is clipped, not wrapped. -/
  clipSprites : Bool
  deriving DecidableEq, Repr, Inhabited

/-- The program load address, R7. -/
def Config.progBase : Nat := 0x200

/-- The last address of main memory, R7 and 20_memory.md R60. -/
def Config.lastAddr : Nat := 0xFFF

/-- The longest program image, 10_state.md R48. -/
def Config.maxImage : Nat := 3584

/-- FREE VALUE (log 6). The random byte of `Cxkk`, 41_alu.md R161: nothing constrains it. The argument is the draw's index. -/
opaque Config.freeByte : Nat → Byte

/-- FREE VALUE (log 7). Which of several pressed keys `Fx0A` takes, 44_timers_keys_audio.md R255 (3): the choice is this
number modulo the count of pressed keys. -/
opaque Config.freeKey : Nat → Nat

/-- FREE VALUE (log 3). The raw word FREC holds after a fault of the fetch itself, 60_exceptions.md R272: "unspecified". -/
opaque Config.freeRaw : Nat → Word

end Sys2Proof
end

