-- ==== Sys2Proof/Syntax.lean ====
section
/-!
DEFINITION. The closed instruction set: one constructor for each of the 50 rows of spec/opcode_table.json
(30_encoding.md R96), in the table's order. Operands have the widths of R91 and R94.
-/
namespace Sys2Proof

/-- The instructions of CORE. `x` and `y` name general registers; immediates are unsigned fields at their own width (R94). -/
inductive Instr where
  /-- `00Cn` scroll down n rows, R217 -/
  | scd (n : Nibble)
  /-- `00Dn` scroll up n rows, R218 -/
  | scu (n : Nibble)
  /-- `00E0` clear the selected planes, R215 -/
  | cls
  /-- `00EE` return, R123 -/
  | ret
  /-- `00FB` scroll right 4, R219 -/
  | scr
  /-- `00FC` scroll left 4, R220 -/
  | scl
  /-- `00FD` exit, R132 -/
  | exit
  /-- `00FE` lores, R221 -/
  | low
  /-- `00FF` hires, R222 -/
  | high
  /-- `1nnn` jump, R124 -/
  | jp (nnn : Addr12)
  /-- `2nnn` call, R125 -/
  | call (nnn : Addr12)
  /-- `3xkk` skip if V[X] = KK, R126 -/
  | seImm (x : Reg) (kk : Byte)
  /-- `4xkk` skip if V[X] ≠ KK, R127 -/
  | sneImm (x : Reg) (kk : Byte)
  /-- `5xy0` skip if V[X] = V[Y], R128 -/
  | seReg (x y : Reg)
  /-- `5xy2` store the register range X to Y at I, R188 -/
  | storeRange (x y : Reg)
  /-- `5xy3` load the register range X to Y from I, R189 -/
  | loadRange (x y : Reg)
  /-- `6xkk` load immediate, R150 -/
  | ldImm (x : Reg) (kk : Byte)
  /-- `7xkk` add immediate, no flag, R151 -/
  | addImm (x : Reg) (kk : Byte)
  /-- `8xy0` copy, R152 -/
  | ldReg (x y : Reg)
  /-- `8xy1` OR, R153 -/
  | or (x y : Reg)
  /-- `8xy2` AND, R154 -/
  | and (x y : Reg)
  /-- `8xy3` XOR, R155 -/
  | xor (x y : Reg)
  /-- `8xy4` add with carry, R156 -/
  | add (x y : Reg)
  /-- `8xy5` V[X] - V[Y], R157 -/
  | sub (x y : Reg)
  /-- `8xy6` shift right by one, R158 -/
  | shr (x y : Reg)
  /-- `8xy7` V[Y] - V[X], R159 -/
  | subn (x y : Reg)
  /-- `8xyE` shift left by one, R160 -/
  | shl (x y : Reg)
  /-- `9xy0` skip if V[X] ≠ V[Y], R129 -/
  | sneReg (x y : Reg)
  /-- `Annn` load I, R180 -/
  | ldI (nnn : Addr12)
  /-- `Bnnn` (`Bxnn`) jump with offset, R131 -/
  | jpV0 (nnn : Addr12)
  /-- `Cxkk` random byte AND KK, R161 -/
  | rnd (x : Reg) (kk : Byte)
  /-- `Dxyn` draw a sprite, R214 -/
  | drw (x y : Reg) (n : Nibble)
  /-- `Ex9E` skip if key V[X] is down, R253 -/
  | skp (x : Reg)
  /-- `ExA1` skip if key V[X] is up, R254 -/
  | sknp (x : Reg)
  /-- `F000 nnnn` load I from the second word, R181 -/
  | ldILong (nnnn : Word)
  /-- `Fn01` select planes by the mask in the X field, R223 -/
  | plane (mask : Nibble)
  /-- `F002` load the audio pattern, R256 -/
  | audio
  /-- `Fx07` read the delay timer, R250 -/
  | getDelay (x : Reg)
  /-- `Fx0A` wait for a key, R255 -/
  | waitKey (x : Reg)
  /-- `Fx15` set the delay timer, R251 -/
  | setDelay (x : Reg)
  /-- `Fx18` set the sound timer, R252 -/
  | setSound (x : Reg)
  /-- `Fx1E` add V[X] to I, R182 -/
  | addI (x : Reg)
  /-- `Fx29` I to the small glyph of V[X], R183 -/
  | ldF (x : Reg)
  /-- `Fx30` I to the large glyph of V[X], R184 -/
  | ldHF (x : Reg)
  /-- `Fx33` store the three decimal digits of V[X], R185 -/
  | bcd (x : Reg)
  /-- `Fx3A` set the pitch, R257 -/
  | pitch (x : Reg)
  /-- `Fx55` store V0 to VX at I, R186 -/
  | storeRegs (x : Reg)
  /-- `Fx65` load V0 to VX from I, R187 -/
  | loadRegs (x : Reg)
  /-- `Fx75` store V0 to VX in the persistent flag store, R190 -/
  | storeRpl (x : Reg)
  /-- `Fx85` load V0 to VX from the persistent flag store, R191 -/
  | loadRpl (x : Reg)
  deriving DecidableEq, Repr

end Sys2Proof
end

