-- ==== Sys2Proof/Decode.lean ====
section
/-!
DEFINITION. 30_encoding.md: the fields of an instruction word (R91), the opcode map with its masks and modes (R95, R96),
decoding, total on any bytes and rejecting by name (R93, R97, R99), and the encoder, written from the same patterns.
-/
namespace Sys2Proof

/-! ## Fields of an instruction word, R91 -/

/-- Two bytes as a word, the byte at the lower address in bits 15..8 (20_memory.md R64). -/
def wordOf (hi lo : Byte) : Word := hi ++ lo

/-- Bits 15..8 of a word. -/
def highByte (w : Word) : Byte := w.extractLsb' 8 8

/-- Bits 7..0 of a word. -/
def lowByte (w : Word) : Byte := w.extractLsb' 0 8

/-- `OP`, bits 15..12. -/
def fieldOP (w : Word) : Nibble := w.extractLsb' 12 4

/-- `X`, bits 11..8. -/
def fieldX (w : Word) : Nibble := w.extractLsb' 8 4

/-- `Y`, bits 7..4. -/
def fieldY (w : Word) : Nibble := w.extractLsb' 4 4

/-- `N`, bits 3..0. -/
def fieldN (w : Word) : Nibble := w.extractLsb' 0 4

/-- `KK`, bits 7..0. -/
def fieldKK (w : Word) : Byte := w.extractLsb' 0 8

/-- `NNN`, bits 11..0. -/
def fieldNNN (w : Word) : Addr12 := w.extractLsb' 0 12

/-- A register index held in a 4-bit field. -/
def regOf (f : Nibble) : Reg := ⟨f.toNat, f.isLt⟩

/-- A register index as the 4-bit field that holds it. -/
def fieldOf (r : Reg) : Nibble := BitVec.ofFin r

/-! ## The opcode map, R95 and R96 -/

/-- A row of R96: `w` selects it when `w &&& mask = pattern` and the mode is one of `modes` (R93). -/
structure OpcodeRow where
  mask : Word
  pattern : Word
  modes : List Mode
  deriving DecidableEq, Repr

/-- R95: the base set. -/
def allModes : List Mode := [.chip8, .schip, .xochip]

/-- R95: the SUPER-CHIP set. -/
def schipModes : List Mode := [.schip, .xochip]

/-- R95: the XO-CHIP set. -/
def xochipModes : List Mode := [.xochip]

/-- R93: the row selects the word in the mode. -/
def OpcodeRow.selects (r : OpcodeRow) (m : Mode) (w : Word) : Bool := w &&& r.mask == r.pattern && r.modes.contains m

/-- The 50 rows of R96, in the order of spec/opcode_table.json. -/
def opcodeMap : List OpcodeRow :=
  [ ⟨0xFFF0, 0x00C0, schipModes⟩,
    ⟨0xFFF0, 0x00D0, xochipModes⟩,
    ⟨0xFFFF, 0x00E0, allModes⟩,
    ⟨0xFFFF, 0x00EE, allModes⟩,
    ⟨0xFFFF, 0x00FB, schipModes⟩,
    ⟨0xFFFF, 0x00FC, schipModes⟩,
    ⟨0xFFFF, 0x00FD, schipModes⟩,
    ⟨0xFFFF, 0x00FE, schipModes⟩,
    ⟨0xFFFF, 0x00FF, schipModes⟩,
    ⟨0xF000, 0x1000, allModes⟩ ] ++
  [ ⟨0xF000, 0x2000, allModes⟩,
    ⟨0xF000, 0x3000, allModes⟩,
    ⟨0xF000, 0x4000, allModes⟩,
    ⟨0xF00F, 0x5000, allModes⟩,
    ⟨0xF00F, 0x5002, xochipModes⟩,
    ⟨0xF00F, 0x5003, xochipModes⟩,
    ⟨0xF000, 0x6000, allModes⟩,
    ⟨0xF000, 0x7000, allModes⟩,
    ⟨0xF00F, 0x8000, allModes⟩,
    ⟨0xF00F, 0x8001, allModes⟩ ] ++
  [ ⟨0xF00F, 0x8002, allModes⟩,
    ⟨0xF00F, 0x8003, allModes⟩,
    ⟨0xF00F, 0x8004, allModes⟩,
    ⟨0xF00F, 0x8005, allModes⟩,
    ⟨0xF00F, 0x8006, allModes⟩,
    ⟨0xF00F, 0x8007, allModes⟩,
    ⟨0xF00F, 0x800E, allModes⟩,
    ⟨0xF00F, 0x9000, allModes⟩,
    ⟨0xF000, 0xA000, allModes⟩,
    ⟨0xF000, 0xB000, allModes⟩ ] ++
  [ ⟨0xF000, 0xC000, allModes⟩,
    ⟨0xF000, 0xD000, allModes⟩,
    ⟨0xF0FF, 0xE09E, allModes⟩,
    ⟨0xF0FF, 0xE0A1, allModes⟩,
    ⟨0xFFFF, 0xF000, xochipModes⟩,
    ⟨0xF0FF, 0xF001, xochipModes⟩,
    ⟨0xFFFF, 0xF002, xochipModes⟩,
    ⟨0xF0FF, 0xF007, allModes⟩,
    ⟨0xF0FF, 0xF00A, allModes⟩,
    ⟨0xF0FF, 0xF015, allModes⟩ ] ++
  [ ⟨0xF0FF, 0xF018, allModes⟩,
    ⟨0xF0FF, 0xF01E, allModes⟩,
    ⟨0xF0FF, 0xF029, allModes⟩,
    ⟨0xF0FF, 0xF030, schipModes⟩,
    ⟨0xF0FF, 0xF033, allModes⟩,
    ⟨0xF0FF, 0xF03A, xochipModes⟩,
    ⟨0xF0FF, 0xF055, allModes⟩,
    ⟨0xF0FF, 0xF065, allModes⟩,
    ⟨0xF0FF, 0xF075, schipModes⟩,
    ⟨0xF0FF, 0xF085, schipModes⟩ ]

/-- The row of R96 an instruction belongs to. -/
def Instr.row : Instr → OpcodeRow
  | .scd _ => ⟨0xFFF0, 0x00C0, schipModes⟩
  | .scu _ => ⟨0xFFF0, 0x00D0, xochipModes⟩
  | .cls => ⟨0xFFFF, 0x00E0, allModes⟩
  | .ret => ⟨0xFFFF, 0x00EE, allModes⟩
  | .scr => ⟨0xFFFF, 0x00FB, schipModes⟩
  | .scl => ⟨0xFFFF, 0x00FC, schipModes⟩
  | .exit => ⟨0xFFFF, 0x00FD, schipModes⟩
  | .low => ⟨0xFFFF, 0x00FE, schipModes⟩
  | .high => ⟨0xFFFF, 0x00FF, schipModes⟩
  | .jp _ => ⟨0xF000, 0x1000, allModes⟩
  | .call _ => ⟨0xF000, 0x2000, allModes⟩
  | .seImm _ _ => ⟨0xF000, 0x3000, allModes⟩
  | .sneImm _ _ => ⟨0xF000, 0x4000, allModes⟩
  | .seReg _ _ => ⟨0xF00F, 0x5000, allModes⟩
  | .storeRange _ _ => ⟨0xF00F, 0x5002, xochipModes⟩
  | .loadRange _ _ => ⟨0xF00F, 0x5003, xochipModes⟩
  | .ldImm _ _ => ⟨0xF000, 0x6000, allModes⟩
  | .addImm _ _ => ⟨0xF000, 0x7000, allModes⟩
  | .ldReg _ _ => ⟨0xF00F, 0x8000, allModes⟩
  | .or _ _ => ⟨0xF00F, 0x8001, allModes⟩
  | .and _ _ => ⟨0xF00F, 0x8002, allModes⟩
  | .xor _ _ => ⟨0xF00F, 0x8003, allModes⟩
  | .add _ _ => ⟨0xF00F, 0x8004, allModes⟩
  | .sub _ _ => ⟨0xF00F, 0x8005, allModes⟩
  | .shr _ _ => ⟨0xF00F, 0x8006, allModes⟩
  | .subn _ _ => ⟨0xF00F, 0x8007, allModes⟩
  | .shl _ _ => ⟨0xF00F, 0x800E, allModes⟩
  | .sneReg _ _ => ⟨0xF00F, 0x9000, allModes⟩
  | .ldI _ => ⟨0xF000, 0xA000, allModes⟩
  | .jpV0 _ => ⟨0xF000, 0xB000, allModes⟩
  | .rnd _ _ => ⟨0xF000, 0xC000, allModes⟩
  | .drw _ _ _ => ⟨0xF000, 0xD000, allModes⟩
  | .skp _ => ⟨0xF0FF, 0xE09E, allModes⟩
  | .sknp _ => ⟨0xF0FF, 0xE0A1, allModes⟩
  | .ldILong _ => ⟨0xFFFF, 0xF000, xochipModes⟩
  | .plane _ => ⟨0xF0FF, 0xF001, xochipModes⟩
  | .audio => ⟨0xFFFF, 0xF002, xochipModes⟩
  | .getDelay _ => ⟨0xF0FF, 0xF007, allModes⟩
  | .waitKey _ => ⟨0xF0FF, 0xF00A, allModes⟩
  | .setDelay _ => ⟨0xF0FF, 0xF015, allModes⟩
  | .setSound _ => ⟨0xF0FF, 0xF018, allModes⟩
  | .addI _ => ⟨0xF0FF, 0xF01E, allModes⟩
  | .ldF _ => ⟨0xF0FF, 0xF029, allModes⟩
  | .ldHF _ => ⟨0xF0FF, 0xF030, schipModes⟩
  | .bcd _ => ⟨0xF0FF, 0xF033, allModes⟩
  | .pitch _ => ⟨0xF0FF, 0xF03A, xochipModes⟩
  | .storeRegs _ => ⟨0xF0FF, 0xF055, allModes⟩
  | .loadRegs _ => ⟨0xF0FF, 0xF065, allModes⟩
  | .storeRpl _ => ⟨0xF0FF, 0xF075, schipModes⟩
  | .loadRpl _ => ⟨0xF0FF, 0xF085, schipModes⟩

/-- R95: the instruction exists in the mode. -/
def Instr.existsIn (i : Instr) (m : Mode) : Bool := i.row.modes.contains m

/-- R99: in XOCHIP mode the word 0xF000, and no other, is the first half of a four-byte instruction. -/
def isLong (m : Mode) (w : Word) : Bool := m == .xochip && w == 0xF000

/-! ## Decoding -/

/-- Why bytes are no instruction. -/
inductive DecodeError where
  /-- R97: no row of R96 selects the word in the mode; carries the raw word. -/
  | unknownInstruction (w : Word)
  /-- Fewer bytes than the instruction has (no step of CORE meets this: a fetch takes the whole instruction). -/
  | truncated
  deriving DecidableEq, Repr

/-- The words with OP = 0: `00Cn`, `00Dn`, `00E0`, `00EE`, `00FB` to `00FF`. -/
def decodeOp0 (w : Word) : Option Instr :=
  match fieldX w, fieldY w, fieldN w with
  | 0x0, 0xC, n => some (.scd n)
  | 0x0, 0xD, n => some (.scu n)
  | 0x0, 0xE, 0x0 => some .cls
  | 0x0, 0xE, 0xE => some .ret
  | 0x0, 0xF, 0xB => some .scr
  | 0x0, 0xF, 0xC => some .scl
  | 0x0, 0xF, 0xD => some .exit
  | 0x0, 0xF, 0xE => some .low
  | 0x0, 0xF, 0xF => some .high
  | _, _, _ => none

/-- The words with OP = 5, by the sub-opcode N. -/
def decodeOp5 (w : Word) : Option Instr :=
  let x := regOf (fieldX w)
  let y := regOf (fieldY w)
  match fieldN w with
  | 0x0 => some (.seReg x y)
  | 0x2 => some (.storeRange x y)
  | 0x3 => some (.loadRange x y)
  | _ => none

/-- The words with OP = 8, by the sub-opcode N. -/
def decodeOp8 (w : Word) : Option Instr :=
  let x := regOf (fieldX w)
  let y := regOf (fieldY w)
  match fieldN w with
  | 0x0 => some (.ldReg x y)
  | 0x1 => some (.or x y)
  | 0x2 => some (.and x y)
  | 0x3 => some (.xor x y)
  | 0x4 => some (.add x y)
  | 0x5 => some (.sub x y)
  | 0x6 => some (.shr x y)
  | 0x7 => some (.subn x y)
  | 0xE => some (.shl x y)
  | _ => none

/-- The words with OP = 9: N must be 0. -/
def decodeOp9 (w : Word) : Option Instr :=
  match fieldN w with
  | 0x0 => some (.sneReg (regOf (fieldX w)) (regOf (fieldY w)))
  | _ => none

/-- The words with OP = E, by KK. -/
def decodeOpE (w : Word) : Option Instr :=
  match fieldKK w with
  | 0x9E => some (.skp (regOf (fieldX w)))
  | 0xA1 => some (.sknp (regOf (fieldX w)))
  | _ => none

/-- The words with OP = F but 0xF000, by KK; `F002` has no X operand, note (a) of R96. -/
def decodeOpF (w : Word) : Option Instr :=
  let x := regOf (fieldX w)
  match fieldKK w with
  | 0x01 => some (.plane (fieldX w))
  | 0x02 => if fieldX w = 0x0 then some .audio else none
  | 0x07 => some (.getDelay x)
  | 0x0A => some (.waitKey x)
  | 0x15 => some (.setDelay x)
  | 0x18 => some (.setSound x)
  | 0x1E => some (.addI x)
  | 0x29 => some (.ldF x)
  | 0x30 => some (.ldHF x)
  | 0x33 => some (.bcd x)
  | 0x3A => some (.pitch x)
  | 0x55 => some (.storeRegs x)
  | 0x65 => some (.loadRegs x)
  | 0x75 => some (.storeRpl x)
  | 0x85 => some (.loadRpl x)
  | _ => none

/-- The 49 one-word instructions, all modes together: a match on OP and then on the other nibbles (R93). -/
def decodeShort (w : Word) : Option Instr :=
  let x := regOf (fieldX w)
  match fieldOP w with
  | 0x0 => decodeOp0 w
  | 0x1 => some (.jp (fieldNNN w))
  | 0x2 => some (.call (fieldNNN w))
  | 0x3 => some (.seImm x (fieldKK w))
  | 0x4 => some (.sneImm x (fieldKK w))
  | 0x5 => decodeOp5 w
  | 0x6 => some (.ldImm x (fieldKK w))
  | 0x7 => some (.addImm x (fieldKK w))
  | 0x8 => decodeOp8 w
  | 0x9 => decodeOp9 w
  | 0xA => some (.ldI (fieldNNN w))
  | 0xB => some (.jpV0 (fieldNNN w))
  | 0xC => some (.rnd x (fieldKK w))
  | 0xD => some (.drw x (regOf (fieldY w)) (fieldN w))
  | 0xE => decodeOpE w
  | _ => decodeOpF w

/-- R93, R97: the instruction a word that is not long selects in the mode. -/
def decodeInMode (m : Mode) (w : Word) : Except DecodeError Instr :=
  match decodeShort w with
  | some i => if i.existsIn m then .ok i else .error (.unknownInstruction w)
  | none => .error (.unknownInstruction w)

/-- The instruction at the head of a byte string in the mode, with the bytes that follow it. Total; rejects by name. -/
def decode (m : Mode) : List Byte → Except DecodeError (Instr × List Byte)
  | hi :: lo :: rest =>
    if isLong m (wordOf hi lo) then
      match rest with
      | hi' :: lo' :: rest' => .ok (.ldILong (wordOf hi' lo'), rest')
      | _ => .error .truncated
    else
      match decodeInMode m (wordOf hi lo) with
      | .ok i => .ok (i, rest)
      | .error e => .error e
  | _ => .error .truncated

/-! ## Encoding, from the same patterns -/

/-- Format XYN and, with constant nibbles, FIXED, N4 and XSS (R92). -/
def packNibbles (op x y n : Nibble) : Word := op ++ x ++ y ++ n

/-- Formats XKK and XSS (R92). -/
def packXKK (op : Nibble) (x : Reg) (kk : Byte) : Word := op ++ fieldOf x ++ kk

/-- Format NNN (R92). -/
def packNNN (op : Nibble) (nnn : Addr12) : Word := op ++ nnn

/-- The (first) word of an instruction, R96. -/
def Instr.firstWord : Instr → Word
  | .scd n => packNibbles 0x0 0x0 0xC n
  | .scu n => packNibbles 0x0 0x0 0xD n
  | .cls => 0x00E0
  | .ret => 0x00EE
  | .scr => 0x00FB
  | .scl => 0x00FC
  | .exit => 0x00FD
  | .low => 0x00FE
  | .high => 0x00FF
  | .jp nnn => packNNN 0x1 nnn
  | .call nnn => packNNN 0x2 nnn
  | .seImm x kk => packXKK 0x3 x kk
  | .sneImm x kk => packXKK 0x4 x kk
  | .seReg x y => packNibbles 0x5 (fieldOf x) (fieldOf y) 0x0
  | .storeRange x y => packNibbles 0x5 (fieldOf x) (fieldOf y) 0x2
  | .loadRange x y => packNibbles 0x5 (fieldOf x) (fieldOf y) 0x3
  | .ldImm x kk => packXKK 0x6 x kk
  | .addImm x kk => packXKK 0x7 x kk
  | .ldReg x y => packNibbles 0x8 (fieldOf x) (fieldOf y) 0x0
  | .or x y => packNibbles 0x8 (fieldOf x) (fieldOf y) 0x1
  | .and x y => packNibbles 0x8 (fieldOf x) (fieldOf y) 0x2
  | .xor x y => packNibbles 0x8 (fieldOf x) (fieldOf y) 0x3
  | .add x y => packNibbles 0x8 (fieldOf x) (fieldOf y) 0x4
  | .sub x y => packNibbles 0x8 (fieldOf x) (fieldOf y) 0x5
  | .shr x y => packNibbles 0x8 (fieldOf x) (fieldOf y) 0x6
  | .subn x y => packNibbles 0x8 (fieldOf x) (fieldOf y) 0x7
  | .shl x y => packNibbles 0x8 (fieldOf x) (fieldOf y) 0xE
  | .sneReg x y => packNibbles 0x9 (fieldOf x) (fieldOf y) 0x0
  | .ldI nnn => packNNN 0xA nnn
  | .jpV0 nnn => packNNN 0xB nnn
  | .rnd x kk => packXKK 0xC x kk
  | .drw x y n => packNibbles 0xD (fieldOf x) (fieldOf y) n
  | .skp x => packXKK 0xE x 0x9E
  | .sknp x => packXKK 0xE x 0xA1
  | .ldILong _ => 0xF000
  | .plane mask => packNibbles 0xF mask 0x0 0x1
  | .audio => 0xF002
  | .getDelay x => packXKK 0xF x 0x07
  | .waitKey x => packXKK 0xF x 0x0A
  | .setDelay x => packXKK 0xF x 0x15
  | .setSound x => packXKK 0xF x 0x18
  | .addI x => packXKK 0xF x 0x1E
  | .ldF x => packXKK 0xF x 0x29
  | .ldHF x => packXKK 0xF x 0x30
  | .bcd x => packXKK 0xF x 0x33
  | .pitch x => packXKK 0xF x 0x3A
  | .storeRegs x => packXKK 0xF x 0x55
  | .loadRegs x => packXKK 0xF x 0x65
  | .storeRpl x => packXKK 0xF x 0x75
  | .loadRpl x => packXKK 0xF x 0x85

/-- A word as it lies in memory, big-endian (20_memory.md R64). -/
def bytesOf (w : Word) : List Byte := [highByte w, lowByte w]

/-- The second word of a long instruction, nothing for the others (R90). -/
def Instr.operandBytes : Instr → List Byte
  | .ldILong nnnn => bytesOf nnnn
  | _ => []

/-- The bytes of an instruction, in ascending address order. -/
def encode (i : Instr) : List Byte := bytesOf i.firstWord ++ i.operandBytes

/-! ## The table's numbering of bits -/

/-- The four bytes that `w`, numbered as spec/opcode_table.json numbers bits, has in memory: bits 15..0 are the first word,
bits 31..16 the second; bits from `nbits` up are 0. -/
def tableBytes (nbits w : Nat) : List Byte :=
  let v := w % 2 ^ nbits
  bytesOf (BitVec.ofNat 16 v) ++ bytesOf (BitVec.ofNat 16 (v / 2 ^ 16))

/-- What the decoder reads from such a word, in XOCHIP mode, where every row of the table exists (R95). -/
def decodeTableWord (nbits w : Nat) : Option Instr :=
  match decode .xochip (tableBytes nbits w) with
  | .ok (i, _) => some i
  | .error _ => none

end Sys2Proof
end

