-- ==== Sys2Proof/Machine/State.lean ====
section
/-!
DEFINITION. 10_state.md: everything the spec gives the machine, as plain data, with its value after reset (R45); the ten
faults of 60_exceptions.md R271; and the reasons the model's step can stop.
-/
namespace Sys2Proof.Machine

/-- The two glyph sizes of `FontAddress`, 20_memory.md R76. -/
inductive FontSize where
  | standard
  | extended
  deriving DecidableEq, Repr, Inhabited

/-- The faults of CORE, 60_exceptions.md R271, each with its `info`. Taking one is a next state (R270, R277; log 1). -/
inductive CoreFault where
  /-- code 1: the fetched word is no instruction of the mode -/
  | unknownInstruction (w : Word)
  /-- code 2: a read above 0xFFF -/
  | memRead (addr : Nat)
  /-- code 3: a write below 0x200 or above 0xFFF -/
  | memWrite (addr : Nat)
  /-- code 4: `Push` with SP = 16 -/
  | stackOverflow
  /-- code 5: `Pop` with SP = 0 -/
  | stackUnderflow
  /-- code 6: digit > 0xF at standard size, > 9 at extended size -/
  | font (digit : Byte) (size : FontSize)
  /-- code 7: plane mask > 3 -/
  | planeMask (mask : Nibble)
  /-- code 8: X > 7 in SCHIP mode -/
  | rplCount (x : Reg)
  /-- code 9: an index above 7 reaches the 8-byte store -/
  | rplIndex (index : Nat)
  /-- code 10: V[X] > 0xF as a key number -/
  | keyIndex (value : Byte)
  deriving DecidableEq, Repr

/-- The status register RUN, R38. -/
inductive RunStatus where
  | running
  | exited
  | faulted
  deriving DecidableEq, Repr, Inhabited

/-- The fault record FREC, R39 and 60_exceptions.md R272. -/
structure FaultRecord where
  /-- the fault; its code is `faultCode` of it -/
  fault : CoreFault
  /-- the address the faulting instruction was fetched from -/
  addr : Word
  /-- its (first) word -/
  raw : Word
  deriving DecidableEq, Repr

/-- The plane selection SEL, R33: a mask whose value 0 never occurs. -/
inductive PlaneSel where
  /-- 1: the first plane -/
  | first
  /-- 2: the second plane -/
  | second
  /-- 3: both planes -/
  | both
  deriving DecidableEq, Repr, Inhabited

/-- A bitplane, R31: 64 rows from the top, each 128 pixels; bit x of a row is column x counted from the left edge. -/
abbrev Plane := Vector (BitVec 128) 64

/-- Main memory M, R29, as the cells that differ from what `Memory.unlisted` says; `Memory.wf` (Machine/Memory.lean) is
the canonical form. -/
abbrev Memory := List Host.Cell

/-- The key vector K, R36: entry k is true when key k is pressed. -/
abbrev Keys := Vector Bool 16

/-- The state of CORE. -/
structure State where
  /-- MODE, R37 -/
  mode : Mode
  /-- the quirk flags, R37 -/
  quirks : Quirks
  /-- IPF, R37 -/
  ipf : Nat
  /-- V[0] to V[15], R20; V[15] is VF, R21 -/
  v : Vector Byte 16
  /-- the address register, R22 -/
  I : Word
  /-- the program counter, R23 -/
  pc : Word
  /-- the stack slots S[0] to S[15], R25 -/
  stack : Vector Word 16
  /-- the stack pointer SP, 0 to 16, R25 -/
  sp : Fin 17
  /-- the delay timer DT, R28 -/
  dt : Byte
  /-- the sound timer ST, R28 -/
  st : Byte
  /-- main memory M, R29 -/
  mem : Memory
  /-- the persistent flag store RPL, R30 -/
  rpl : Vector Byte 8
  /-- the first plane P1, R31 -/
  p1 : Plane
  /-- the second plane P2, R31 -/
  p2 : Plane
  /-- HIRES, R32 -/
  hires : Bool
  /-- SEL, R33 -/
  sel : PlaneSel
  /-- PATTERN[0] to PATTERN[15], R35 -/
  pattern : Vector Byte 16
  /-- PITCH, R35 -/
  pitch : Word
  /-- K, R36 -/
  keys : Keys
  /-- RUN, R38 -/
  run : RunStatus
  /-- FREC, R39; `none` is "not valid" -/
  frec : Option FaultRecord
  /-- instructions executed in the current frame, 60_exceptions.md R281 (local to the frame loop) -/
  frameDone : Nat
  /-- MODEL'S OWN (log 5): the key vectors the host will set, one for each coming frame boundary, R285 -/
  keyInputs : List Keys
  /-- MODEL'S OWN (log 16): callbacks made so far, R284 -/
  frames : Nat
  /-- MODEL'S OWN (log 6): the index of the next free value -/
  draws : Nat
  deriving DecidableEq, Repr, Inhabited

end Sys2Proof.Machine

namespace Sys2Proof

/-- FREE VALUE (log 2). What the state elements hold after a fault, 60_exceptions.md R273: "unspecified" but for RUN and
FREC. The argument is the draw's index. -/
opaque Config.afterFault : Nat → Machine.State

end Sys2Proof

namespace Sys2Proof.Machine

/-- Why `step` has no next state. -/
inductive Fault where
  /-- raised by `step` when RUN is EXITED: CORE "has no step" then (40 R120, 00 R10). Safe: nothing runs where the spec says
  nothing does. -/
  | stoppedByExit
  /-- raised by `step` when RUN is FAULTED: CORE "has no step" then (40 R120, 60 R270). Safe, for the same reason. -/
  | stoppedByFault
  deriving DecidableEq, Repr

/-- Why the model gives no state for an instruction or a request. -/
inductive Refusal where
  /-- raised by `exec` for an instruction without a meaning (none is left). Safe: the model stops where CORE goes on. -/
  | notModelled (mnemonic : String)
  /-- raised by `resetWith` for an image over 3584 bytes: reset is refused (70 R312). Safe: no state results, as the spec says. -/
  | imageTooLong
  /-- raised by `keyDown` and `keyUp` inside a frame: outside the spec (60 R285, 93 U23). Safe: the model offers no such request. -/
  | keyChangeInFrame
  /-- raised by `hostView` and `hostStatus` inside a frame: outside the spec (60 R283, 93 U23). Safe: the model offers no such request. -/
  | readInFrame
  /-- raised by `hostView` after EXITED or FAULTED: the host may read RUN and FREC then (`hostStatus`), nothing else (60 R288,
  70 R318). Safe: the model offers no such request. -/
  | readAfterEnd
  /-- raised by `stepFrame` inside a frame: the host must not touch CORE then (60 R288, log 17). Safe: the model offers no such
  request. -/
  | stepFrameInFrame
  deriving DecidableEq, Repr

/-- The outcome of an instruction, a step or a request. -/
abbrev Answer := Host.Outcome State Fault Refusal

/-- The state after reset, R45, for the arguments of log 8: MODE XOCHIP, no quirk, IPF 10, an empty image, and the default
fonts, pitch and flag store (log 10, log 11). `State.resetWith` (Machine/Reset.lean) takes any arguments. -/
def State.reset : State where
  mode := .xochip
  quirks := ⟨false, false, false, false, false⟩
  ipf := 10
  v := Vector.replicate 16 0
  I := 0
  pc := 0x0200
  stack := Vector.replicate 16 0
  sp := 0
  dt := 0
  st := 0
  mem := []
  rpl := Vector.replicate 8 0
  p1 := Vector.replicate 64 0
  p2 := Vector.replicate 64 0
  hires := false
  sel := .first
  pattern := Vector.replicate 16 0xFF
  pitch := 64
  keys := Vector.replicate 16 false
  run := .running
  frec := none
  frameDone := 0
  keyInputs := []
  frames := 0
  draws := 0

end Sys2Proof.Machine
end

