-- ==== Sys2Proof/Machine/Memory.lean ====
section
/-!
DEFINITION. Main memory, 20_memory.md: the reset content (R46, R47, R49, R67), reading and setting one byte in the canonical
form (log 13), and the primitives `MemRead` and `MemWrite` with their faults (R61, R62). Effective addresses are natural
numbers and never wrap (R63). The font lookup (R76) and the persistent store (R77) stand here too.
-/
namespace Sys2Proof.Machine

/-! ## Reset content -/

/-- `FONT_SMALL_BASE`, D6. -/
def fontSmallBase : Nat := 0x000

/-- `FONT_LARGE_BASE`, D6. -/
def fontLargeBase : Nat := 0x050

/-- `FONT_SMALL`, the default table of R46, one line for two digits (log 10). -/
def fontSmallDefault : List Byte :=
  [ 0xF0, 0x90, 0x90, 0x90, 0xF0, 0x20, 0x60, 0x20, 0x20, 0x70 ] ++
  [ 0xF0, 0x10, 0xF0, 0x80, 0xF0, 0xF0, 0x10, 0xF0, 0x10, 0xF0 ] ++
  [ 0x90, 0x90, 0xF0, 0x10, 0x10, 0xF0, 0x80, 0xF0, 0x10, 0xF0 ] ++
  [ 0xF0, 0x80, 0xF0, 0x90, 0xF0, 0xF0, 0x10, 0x20, 0x40, 0x40 ] ++
  [ 0xF0, 0x90, 0xF0, 0x90, 0xF0, 0xF0, 0x90, 0xF0, 0x10, 0xF0 ] ++
  [ 0xF0, 0x90, 0xF0, 0x90, 0x90, 0xE0, 0x90, 0xE0, 0x90, 0xE0 ] ++
  [ 0xF0, 0x80, 0x80, 0x80, 0xF0, 0xE0, 0x90, 0x90, 0x90, 0xE0 ] ++
  [ 0xF0, 0x80, 0xF0, 0x80, 0xF0, 0xF0, 0x80, 0xF0, 0x80, 0x80 ]

/-- `FONT_LARGE`, the default table of R47, one line for each digit (log 10). -/
def fontLargeDefault : List Byte :=
  [ 0xFF, 0xFF, 0xC3, 0xC3, 0xC3, 0xC3, 0xC3, 0xC3, 0xFF, 0xFF ] ++
  [ 0x18, 0x78, 0x78, 0x18, 0x18, 0x18, 0x18, 0x18, 0xFF, 0xFF ] ++
  [ 0xFF, 0xFF, 0x03, 0x03, 0xFF, 0xFF, 0xC0, 0xC0, 0xFF, 0xFF ] ++
  [ 0xFF, 0xFF, 0x03, 0x03, 0xFF, 0xFF, 0x03, 0x03, 0xFF, 0xFF ] ++
  [ 0xC3, 0xC3, 0xC3, 0xC3, 0xFF, 0xFF, 0x03, 0x03, 0x03, 0x03 ] ++
  [ 0xFF, 0xFF, 0xC0, 0xC0, 0xFF, 0xFF, 0x03, 0x03, 0xFF, 0xFF ] ++
  [ 0xFF, 0xFF, 0xC0, 0xC0, 0xFF, 0xFF, 0xC3, 0xC3, 0xFF, 0xFF ] ++
  [ 0xFF, 0xFF, 0x03, 0x03, 0x06, 0x0C, 0x18, 0x18, 0x18, 0x18 ] ++
  [ 0xFF, 0xFF, 0xC3, 0xC3, 0xFF, 0xFF, 0xC3, 0xC3, 0xFF, 0xFF ] ++
  [ 0xFF, 0xFF, 0xC3, 0xC3, 0xFF, 0xFF, 0x03, 0x03, 0xFF, 0xFF ]

/-- What an address that memory does not list reads as: the two default fonts back to back from address 0, then 0x00
(R46, R47, R49). A CHIP8-mode reset, which has no large font, lists zeros over it. -/
def Memory.unlisted (a : Nat) : Byte := (fontSmallDefault ++ fontLargeDefault).getD a 0x00

/-! ## One byte -/

/-- The byte at an address. -/
def Memory.get : Memory → Nat → Byte
  | [], a => Memory.unlisted a
  | (b, v) :: cells, a => if b = a then v else Memory.get cells a

/-- Put a byte in front of cells whose addresses are higher, unless the address reads so unlisted. -/
def Memory.put (a : Nat) (v : Byte) (cells : Memory) : Memory :=
  if v = Memory.unlisted a then cells else (a, v) :: cells

/-- Memory with the byte at an address changed, in canonical form. -/
def Memory.set : Memory → Nat → Byte → Memory
  | [], a, v => Memory.put a v []
  | (b, w) :: cells, a, v =>
    if a < b then Memory.put a v ((b, w) :: cells)
    else if a = b then Memory.put a v cells
    else (b, w) :: Memory.set cells a v

/-- The canonical form (log 13): addresses strictly rising, all in 0..0xFFF, no cell equal to what its address reads as
unlisted. -/
def Memory.wf (m : Memory) : Bool :=
  (m.map Prod.fst).Pairwise (· < ·) && m.all fun c => c.1 ≤ Config.lastAddr && c.2 != Memory.unlisted c.1

/-- Set a byte if the address exists: the loader's write (R48), which no protection applies to. -/
def Memory.poke (m : Memory) (a : Nat) (v : Byte) : Memory := if a ≤ Config.lastAddr then m.set a v else m

/-- The loader's write of a byte string from an address up. -/
def Memory.pokeAll (m : Memory) (a : Nat) : List Byte → Memory
  | [] => m
  | b :: bs => Memory.pokeAll (m.poke a b) (a + 1) bs

/-- Any cells at all, brought into canonical form. -/
def Memory.ofCells (cells : Memory) : Memory := cells.foldl (fun m c => m.poke c.1 c.2) []

/-! ## The primitives, R61, R62 -/

/-- `MemRead(addr, 1)`. -/
def memRead (m : Memory) (addr : Nat) : Except CoreFault Byte :=
  if addr ≤ Config.lastAddr then .ok (m.get addr) else .error (.memRead addr)

/-- `MemRead(addr, n)` as n single reads in ascending address order (R66). -/
def memReadBytes (m : Memory) (addr : Nat) : Nat → Except CoreFault (List Byte)
  | 0 => .ok []
  | n + 1 =>
    match memRead m addr with
    | .error f => .error f
    | .ok b =>
      match memReadBytes m (addr + 1) n with
      | .error f => .error f
      | .ok bs => .ok (b :: bs)

/-- `MemRead(addr, 2)`, big-endian (R64): the lower address first. -/
def memReadWord (m : Memory) (addr : Nat) : Except CoreFault Word :=
  match memRead m addr with
  | .error f => .error f
  | .ok hi =>
    match memRead m (addr + 1) with
    | .error f => .error f
    | .ok lo => .ok (wordOf hi lo)

/-- `MemWrite(addr, 1, v)`: the region below 0x200 is write-protected (R62, R68). -/
def memWrite (m : Memory) (addr : Nat) (v : Byte) : Except CoreFault Memory :=
  if addr < Config.progBase ∨ Config.lastAddr < addr then .error (.memWrite addr) else .ok (m.set addr v)

/-- Single writes in ascending address order (R62, R66). -/
def memWriteBytes (m : Memory) (addr : Nat) : List Byte → Except CoreFault Memory
  | [] => .ok m
  | b :: bs =>
    match memWrite m addr b with
    | .error f => .error f
    | .ok m' => memWriteBytes m' (addr + 1) bs

/-! ## Font lookup, R76, and the persistent store, R77 -/

/-- `FontAddress(d, size)`, R76. -/
def fontAddress (mode : Mode) (d : Byte) : FontSize → Except CoreFault Nat
  | .standard =>
    if d.toNat > 0xF then .error (.font d .standard) else .ok (fontSmallBase + 5 * d.toNat)
  | .extended =>
    if mode = .chip8 then .error (.font d .extended)
    else if d.toNat > 9 then .error (.font d .extended) else .ok (fontLargeBase + 10 * d.toNat)

/-- `RplRead(i)`, R77. -/
def rplRead (rpl : Vector Byte 8) (i : Nat) : Except CoreFault Byte :=
  if h : i < 8 then .ok rpl[i] else .error (.rplIndex i)

/-- `RplWrite(i, v)`, R77. -/
def rplWrite (rpl : Vector Byte 8) (i : Nat) (v : Byte) : Except CoreFault (Vector Byte 8) :=
  if h : i < 8 then .ok (rpl.set i v) else .error (.rplIndex i)

end Sys2Proof.Machine
end

