-- ==== Sys2Proof/Machine/Ops.lean ====
section
/-!
DEFINITION. The named operations the meanings share: one writer for each kind of register (10_state.md), the call stack
(R26, R27), `Skip()` (40 R122), taking a fault (60 R270 to R273, R277) and the dispatch that ends every instruction
(40 R120). There is no return from a fault (60 R278): only reset leaves FAULTED.
-/
namespace Sys2Proof.Machine

/-! ## Writers -/

/-- `V[x]`, R20. -/
def State.reg (s : State) (x : Reg) : Byte := s.v[x]

/-- `V[x] <- b`, R20. -/
def State.setReg (s : State) (x : Reg) (b : Byte) : State := { s with v := s.v.set x b }

/-- Register writes in the order of the list. -/
def State.setRegs (s : State) : List (Reg × Byte) → State
  | [] => s
  | (x, b) :: rest => State.setRegs (s.setReg x b) rest

/-- `I <- n`: every assignment to I is masked to 0..0xFFF, R22. -/
def State.setI (s : State) (n : Nat) : State := { s with I := BitVec.ofNat 16 (n % 0x1000) }

/-- `pc <- a`: no mask, R23. -/
def State.setPc (s : State) (a : Word) : State := { s with pc := a }

/-- M replaced by the outcome of a store. -/
def State.setMem (s : State) (m : Memory) : State := { s with mem := m }

/-- RPL replaced by the outcome of `Fx75`. -/
def State.setRpl (s : State) (r : Vector Byte 8) : State := { s with rpl := r }

/-- Both planes. -/
def State.setPlanes (s : State) (p1 p2 : Plane) : State := { s with p1 := p1, p2 := p2 }

/-- `HIRES <- b`, R32. -/
def State.setHires (s : State) (b : Bool) : State := { s with hires := b }

/-- `SEL <- sel`, R33. -/
def State.setSel (s : State) (sel : PlaneSel) : State := { s with sel := sel }

/-- `DT <- b`, R28. -/
def State.setDt (s : State) (b : Byte) : State := { s with dt := b }

/-- `ST <- b`, R28. -/
def State.setSt (s : State) (b : Byte) : State := { s with st := b }

/-- PATTERN, R35. -/
def State.setPattern (s : State) (p : Vector Byte 16) : State := { s with pattern := p }

/-- `PITCH <- w`, R35. -/
def State.setPitch (s : State) (w : Word) : State := { s with pitch := w }

/-- RUN, R38. -/
def State.setRun (s : State) (r : RunStatus) : State := { s with run := r }

/-- The stack slots and SP together. -/
def State.setStack (s : State) (slots : Vector Word 16) (sp : Fin 17) : State := { s with stack := slots, sp := sp }

/-- One free value has been used (00_scope.md R11). -/
def State.drawn (s : State) : State := { s with draws := s.draws + 1 }

/-! ## Call stack -/

/-- `Push(a)`, R26. -/
def State.push (s : State) (a : Word) : Except CoreFault State :=
  if h : s.sp.val < 16 then .ok (s.setStack (s.stack.set s.sp.val a) ⟨s.sp.val + 1, by omega⟩)
  else .error .stackOverflow

/-- `Pop()`, R27: the slot keeps its value. -/
def State.pop (s : State) : Except CoreFault (Word × State) :=
  if s.sp.val = 0 then .error .stackUnderflow
  else .ok (s.stack[s.sp.val - 1], s.setStack s.stack ⟨s.sp.val - 1, by omega⟩)

/-! ## Skip -/

/-- `Skip()`, 40 R122: pc is already past the skip instruction; only in XOCHIP mode is the next word read. -/
def State.skip (s : State) : Except CoreFault State :=
  if s.mode = .xochip then
    match memReadWord s.mem s.pc.toNat with
    | .error f => .error f
    | .ok w => .ok (s.setPc (if isLong s.mode w then s.pc + 4 else s.pc + 2))
  else .ok (s.setPc (s.pc + 2))

/-- A conditional skip: when the condition fails, `Skip()` is not called and nothing is read (R122). -/
def State.skipIf (s : State) (c : Bool) : Except CoreFault State := if c then s.skip else .ok s

/-! ## Faults -/

/-- The code of a fault, 60 R271. -/
def faultCode : CoreFault → Nat
  | .unknownInstruction _ => 1
  | .memRead _ => 2
  | .memWrite _ => 3
  | .stackOverflow => 4
  | .stackUnderflow => 5
  | .font _ _ => 6
  | .planeMask _ => 7
  | .rplCount _ => 8
  | .rplIndex _ => 9
  | .keyIndex _ => 10

/-- TAKING A FAULT, 60 R270, R272, R277: RUN <- FAULTED, FREC is written, the frame in progress ends. No vector, no handler,
no saved register. Every other state element is unspecified (R273): it comes from a free state (log 2), memory in
canonical form; the model's own fields go on. -/
def takeFault (f : CoreFault) (addr raw : Word) (s : State) : State :=
  { Config.afterFault s.draws with
    mem := Memory.ofCells (Config.afterFault s.draws).mem
    run := .faulted
    frec := some ⟨f, addr, raw⟩
    frameDone := 0
    keyInputs := s.keyInputs
    frames := s.frames
    draws := s.draws + 1 }

/-- A fault raised by instruction `i`: pc is already past its first word (40 R120), so it was fetched from pc - 2. -/
def raise (f : CoreFault) (i : Instr) (s : State) : State := takeFault f (s.pc - 2) i.firstWord s

/-! ## Dispatch -/

/-- 40 R120 after the fetch: an instruction that the mode does not have is unknown (30 R95, R97); otherwise its pseudocode
runs, and the first `raise` it meets is taken (60 R274). -/
def dispatch (i : Instr) (s : State) (pseudocode : Except CoreFault State) : Answer :=
  if i.existsIn s.mode then
    match pseudocode with
    | .ok t => .next t
    | .error f => .next (raise f i s)
  else .next (raise (.unknownInstruction i.firstWord) i s)

end Sys2Proof.Machine
end

