-- ==== Sys2Proof/Machine/Operands.lean ====
section
/-!
DEFINITION. The operand forms of CORE (30_encoding.md R94): registers named by X or Y, immediates, the address I + k, register
ranges, and the sources that a quirk chooses (00_scope.md R3).
-/
namespace Sys2Proof.Machine

/-- VF, 10_state.md R21. -/
def VF : Reg := 15

/-- The effective address I + k, a natural number, not masked (20 R63). -/
def State.ea (s : State) (k : Nat) : Nat := s.I.toNat + k

/-- The source of a shift, 41 R158 and R160. -/
def State.shiftSource (s : State) (x y : Reg) : Byte := if s.quirks.shiftUsesVY then s.reg y else s.reg x

/-- The register the jump-with-offset adds, 40 R131: X is the top nibble of NNN. -/
def State.jumpOffset (s : State) (nnn : Addr12) : Byte :=
  if s.quirks.jumpUsesVX then s.reg (regOf (nnn.extractLsb' 8 4)) else s.reg 0

/-- Registers from X toward Y, both included, 42 R188; from 0 to X they are those of `Fx55`, R186. -/
def regRange (x y : Reg) : List Reg :=
  (List.range ((if x ≤ y then y.val - x.val else x.val - y.val) + 1)).map fun k =>
    Fin.ofNat 16 (if x ≤ y then x.val + k else x.val - k)

/-- The contents of registers, in the order of the list. -/
def State.regList (s : State) (rs : List Reg) : List Byte := rs.map s.reg

/-- `I <- (I + X + 1) & 0xFFF` when `Q_MEM_INCREMENTS_I`, 42 R186 and R187. -/
def State.bumpI (s : State) (x : Reg) : State :=
  if s.quirks.memIncrementsI then s.setI (s.I.toNat + x.val + 1) else s

/-- The keys that are down, by index, in ascending order (10_state.md R36). -/
def pressedKeys (k : Keys) : List Nat := (List.range 16).filter fun j => k[j]?.getD false

end Sys2Proof.Machine
end

