-- ==== Sys2Proof/Machine/Flags.lean ====
section
/-!
DEFINITION. Every value that VF receives as a flag (10_state.md R21) and the order in which an instruction writes its result
and its flag (41_alu.md R163). Sums and comparisons are on natural numbers (R162).
-/
namespace Sys2Proof.Machine

/-- A flag as the byte VF holds. -/
def flagByte (b : Bool) : Byte := if b then 1 else 0

/-- Carry out of bit 7, R156. -/
def carryOf (a b : Byte) : Bool := a.toNat + b.toNat > 0xFF

/-- The 8-bit sum, R156. -/
def sumOf (a b : Byte) : Byte := BitVec.ofNat 8 (a.toNat + b.toNat)

/-- Not-borrow: minuend ≥ subtrahend, on the operands as given, R157. -/
def noBorrowOf (a b : Byte) : Bool := a.toNat ≥ b.toNat

/-- The 8-bit difference, (a + 256 - b) mod 256, R157. -/
def diffOf (a b : Byte) : Byte := BitVec.ofNat 8 (a.toNat + 256 - b.toNat)

/-- The result and the bit shifted out of a right shift by one, R158. -/
def shiftedRight (s : Byte) : Byte × Bool := (s >>> 1, s.getLsbD 0)

/-- The result and the bit shifted out of a left shift by one, R160. -/
def shiftedLeft (s : Byte) : Byte × Bool := (s <<< 1, s.getLsbD 7)

/-- R163: `V[X]` is written first and VF last. -/
def State.setResultFlag (s : State) (x : Reg) (result : Byte) (flag : Bool) : State :=
  (s.setReg x result).setReg VF (flagByte flag)

/-- R153: the result, then VF <- 0 under `Q_LOGIC_RESETS_VF`. -/
def State.setLogic (s : State) (x : Reg) (result : Byte) : State :=
  if s.quirks.logicResetsVF then (s.setReg x result).setReg VF 0 else s.setReg x result

end Sys2Proof.Machine
end

