-- ==== Sys2Proof/Machine/Alu.lean ====
section
/-!
DEFINITION. 41_alu.md: register load, arithmetic, logic, shift and random. None of these instructions can fault in a mode that
has it, and every mode does.
-/
namespace Sys2Proof.Machine

/-- `6xkk`, R150. -/
def execLdImm (x : Reg) (kk : Byte) (s : State) : Answer := dispatch (.ldImm x kk) s (.ok (s.setReg x kk))

/-- `7xkk`, R151: VF is not written (D42). -/
def execAddImm (x : Reg) (kk : Byte) (s : State) : Answer :=
  dispatch (.addImm x kk) s (.ok (s.setReg x (sumOf (s.reg x) kk)))

/-- `8xy0`, R152. -/
def execLdReg (x y : Reg) (s : State) : Answer := dispatch (.ldReg x y) s (.ok (s.setReg x (s.reg y)))

/-- `8xy1`, R153. -/
def execOr (x y : Reg) (s : State) : Answer := dispatch (.or x y) s (.ok (s.setLogic x (s.reg x ||| s.reg y)))

/-- `8xy2`, R154. -/
def execAnd (x y : Reg) (s : State) : Answer := dispatch (.and x y) s (.ok (s.setLogic x (s.reg x &&& s.reg y)))

/-- `8xy3`, R155. -/
def execXor (x y : Reg) (s : State) : Answer := dispatch (.xor x y) s (.ok (s.setLogic x (s.reg x ^^^ s.reg y)))

/-- `8xy4`, R156. -/
def execAdd (x y : Reg) (s : State) : Answer :=
  dispatch (.add x y) s (.ok (s.setResultFlag x (sumOf (s.reg x) (s.reg y)) (carryOf (s.reg x) (s.reg y))))

/-- `8xy5`, R157. -/
def execSub (x y : Reg) (s : State) : Answer :=
  dispatch (.sub x y) s (.ok (s.setResultFlag x (diffOf (s.reg x) (s.reg y)) (noBorrowOf (s.reg x) (s.reg y))))

/-- `8xy6`, R158. -/
def execShr (x y : Reg) (s : State) : Answer :=
  dispatch (.shr x y) s <|
    .ok (s.setResultFlag x (shiftedRight (s.shiftSource x y)).1 (shiftedRight (s.shiftSource x y)).2)

/-- `8xy7`, R159: the minuend is V[Y]. -/
def execSubn (x y : Reg) (s : State) : Answer :=
  dispatch (.subn x y) s (.ok (s.setResultFlag x (diffOf (s.reg y) (s.reg x)) (noBorrowOf (s.reg y) (s.reg x))))

/-- `8xyE`, R160. -/
def execShl (x y : Reg) (s : State) : Answer :=
  dispatch (.shl x y) s <|
    .ok (s.setResultFlag x (shiftedLeft (s.shiftSource x y)).1 (shiftedLeft (s.shiftSource x y)).2)

/-- `Cxkk`, R161: a free byte, drawn anew at each execution (log 6), ANDed with KK. -/
def execRnd (x : Reg) (kk : Byte) (s : State) : Answer :=
  dispatch (.rnd x kk) s (.ok ((s.setReg x (Config.freeByte s.draws &&& kk)).drawn))

end Sys2Proof.Machine
end

