-- ==== Sys2Proof/Machine/Control.lean ====
section
/-!
DEFINITION. 40_step_and_control_flow.md: return, jump, call, the register skips, the jump with offset, exit. pc is already past
the instruction (R120).
-/
namespace Sys2Proof.Machine

/-- `00EE`, R123. -/
def execRet (s : State) : Answer :=
  dispatch .ret s <|
    match s.pop with
    | .error f => .error f
    | .ok (a, t) => .ok (t.setPc a)

/-- `1nnn`, R124. -/
def execJp (nnn : Addr12) (s : State) : Answer := dispatch (.jp nnn) s (.ok (s.setPc (nnn.setWidth 16)))

/-- `2nnn`, R125: the pushed value is the address after the call. -/
def execCall (nnn : Addr12) (s : State) : Answer :=
  dispatch (.call nnn) s <|
    match s.push s.pc with
    | .error f => .error f
    | .ok t => .ok (t.setPc (nnn.setWidth 16))

/-- `3xkk`, R126. -/
def execSeImm (x : Reg) (kk : Byte) (s : State) : Answer := dispatch (.seImm x kk) s (s.skipIf (s.reg x == kk))

/-- `4xkk`, R127. -/
def execSneImm (x : Reg) (kk : Byte) (s : State) : Answer := dispatch (.sneImm x kk) s (s.skipIf (s.reg x != kk))

/-- `5xy0`, R128. -/
def execSeReg (x y : Reg) (s : State) : Answer := dispatch (.seReg x y) s (s.skipIf (s.reg x == s.reg y))

/-- `9xy0`, R129. -/
def execSneReg (x y : Reg) (s : State) : Answer := dispatch (.sneReg x y) s (s.skipIf (s.reg x != s.reg y))

/-- `Bnnn`, R131: not masked to 12 bits. -/
def execJpV0 (nnn : Addr12) (s : State) : Answer :=
  dispatch (.jpV0 nnn) s (.ok (s.setPc (nnn.setWidth 16 + (s.jumpOffset nnn).setWidth 16)))

/-- `00FD`, R132: RUN <- EXITED, nothing else of the spec's state; the frame in progress ends at once (60 R281). -/
def execExit (s : State) : Answer := dispatch .exit s (.ok (s.setRun .exited))

end Sys2Proof.Machine
end

