-- ==== Sys2Proof/Machine/Plane.lean ====
section
/-!
DEFINITION. The display engine, 43_display.md: geometry (R210, 10_state.md R32), sprite rows (R211), `DrawSprite` with its
collision (R212, R213) and the scroll helpers (R216).
-/
namespace Sys2Proof.Machine

/-! ## Geometry -/

/-- W, 10_state.md R32. -/
def State.width (s : State) : Nat := if s.hires then 128 else 64

/-- H, 10_state.md R32. -/
def State.height (s : State) : Nat := if s.hires then 64 else 32

/-- A plane with no pixel set. -/
def Plane.blank : Plane := Vector.replicate 64 0

/-- A row of a plane; a row that does not exist is empty. -/
def Plane.row (p : Plane) (y : Nat) : BitVec 128 := if h : y < 64 then p[y] else 0

/-- `P[y][x]`. -/
def Plane.pixel (p : Plane) (x y : Nat) : Bool := (p.row y).getLsbD x

/-- `P[y][x] <- P[y][x] ^ 1`. -/
def Plane.flip (p : Plane) (x y : Nat) : Plane := if h : y < 64 then p.set y (p[y] ^^^ BitVec.twoPow 128 x) else p

/-! ## Drawing -/

/-- The bits of a byte from the leftmost pixel: bit 7 first, R211. -/
def byteBits (b : Byte) : List Bool :=
  [b.getLsbD 7, b.getLsbD 6, b.getLsbD 5, b.getLsbD 4, b.getLsbD 3, b.getLsbD 2, b.getLsbD 1, b.getLsbD 0]

/-- The rows of an 8-wide sprite: one byte each. -/
def spriteRows8 (bytes : List Byte) : List (List Bool) := bytes.map byteBits

/-- The rows of a 16-wide sprite: two bytes each, the lower address left, R211. -/
def spriteRows16 : List Byte → List (List Bool)
  | l :: r :: rest => (byteBits l ++ byteBits r) :: spriteRows16 rest
  | _ => []

/-- The inner loop of `DrawSprite`, R212: the sprite bits still to draw in row `y`, the first of them at column `px` before
wrapping. Carries the plane and whether a collision was seen (R213). -/
def drawRow (clip : Bool) (w y px : Nat) : List Bool → Plane × Bool → Plane × Bool
  | [], acc => acc
  | b :: bits, (p, hit) =>
    if w ≤ px ∧ clip then (p, hit)
    else
      let x := if w ≤ px then px - w else px
      drawRow clip w y (px + 1) bits (if b then (p.flip x y, hit || p.pixel x y) else (p, hit))

/-- The outer loop of `DrawSprite`, R212: the rows still to draw, the first of them at row `py` before wrapping. -/
def drawRows (clip : Bool) (w h x0 py : Nat) : List (List Bool) → Plane × Bool → Plane × Bool
  | [], acc => acc
  | row :: rows, acc =>
    if h ≤ py ∧ clip then acc
    else drawRows clip w h x0 (py + 1) rows (drawRow clip w (if h ≤ py then py - h else py) x0 row acc)

/-- `DrawSprite(P, x, y, rows, w)`, R212: the origin wraps under both policies. -/
def drawSprite (clip : Bool) (w h : Nat) (x y : Byte) (rows : List (List Bool)) (p : Plane) : Plane × Bool :=
  drawRows clip w h (x.toNat % w) (y.toNat % h) rows (p, false)

/-! ## Scrolling -/

/-- The pixels x < W of a row. -/
def rowMask (w : Nat) : BitVec 128 := BitVec.ofNat 128 (2 ^ w - 1)

/-- New content for the active area, given as rows; elements outside it stay as they are (R216). -/
def Plane.mapActive (w h : Nat) (new : Nat → BitVec 128) (p : Plane) : Plane :=
  Vector.ofFn fun y : Fin 64 =>
    if y.val < h then (new y.val &&& rowMask w) ||| (p[y] &&& ~~~ rowMask w) else p[y]

/-- `ScrollDown(P, n)`, R216. -/
def scrollDown (w h n : Nat) (p : Plane) : Plane := p.mapActive w h fun y => if n ≤ y then p.row (y - n) else 0

/-- `ScrollUp(P, n)`, R216. -/
def scrollUp (w h n : Nat) (p : Plane) : Plane := p.mapActive w h fun y => if y + n < h then p.row (y + n) else 0

/-- `ScrollRight(P)`, R216: column x is bit x, so right is toward the high bits. -/
def scrollRight (w h : Nat) (p : Plane) : Plane := p.mapActive w h fun y => p.row y <<< 4

/-- `ScrollLeft(P)`, R216. -/
def scrollLeft (w h : Nat) (p : Plane) : Plane := p.mapActive w h fun y => (p.row y &&& rowMask w) >>> 4

/-- Whether SEL selects the first plane, 10_state.md R33. -/
def PlaneSel.hasFirst : PlaneSel → Bool
  | .first | .both => true
  | .second => false

/-- Whether SEL selects the second plane, 10_state.md R33. -/
def PlaneSel.hasSecond : PlaneSel → Bool
  | .second | .both => true
  | .first => false

/-- `for P in planes(SEL): P <- f P`, R210. -/
def State.mapSelected (s : State) (f : Plane → Plane) : State :=
  s.setPlanes (if s.sel.hasFirst then f s.p1 else s.p1) (if s.sel.hasSecond then f s.p2 else s.p2)

end Sys2Proof.Machine
end

