-- ==== Sys2Proof/Machine/Display.lean ====
section
/-!
DEFINITION. 43_display.md: draw, clear, scroll, resolution and plane selection.
-/
namespace Sys2Proof.Machine

/-- R214: whether `Dxyn` draws the 16x16 sprite. -/
def State.isBigSprite (s : State) (n : Nibble) : Bool := s.hires && n == 0

/-- R214: `size`, the bytes of one plane's sprite. -/
def State.spriteSize (s : State) (n : Nibble) : Nat := if s.isBigSprite n then 32 else n.toNat

/-- R214: the rows read from address `a`, all of them, before the plane is drawn. -/
def State.spriteAt (s : State) (n : Nibble) (a : Nat) : Except CoreFault (List (List Bool)) :=
  match memReadBytes s.mem a (s.spriteSize n) with
  | .error f => .error f
  | .ok bytes => .ok (if s.isBigSprite n then spriteRows16 bytes else spriteRows8 bytes)

/-- R214: read the sprite at `a` and draw it into one plane at (V[X], V[Y]). -/
def State.drawPlane (s : State) (x y : Reg) (n : Nibble) (a : Nat) (p : Plane) : Except CoreFault (Plane × Bool) :=
  match s.spriteAt n a with
  | .error f => .error f
  | .ok rows => .ok (drawSprite s.quirks.clipSprites s.width s.height (s.reg x) (s.reg y) rows p)

/-- R214: the selected planes, the first one first; with both, the second sprite follows the first in memory. -/
def State.drawSelected (s : State) (x y : Reg) (n : Nibble) : Except CoreFault State :=
  match s.sel with
  | .first =>
    match s.drawPlane x y n (s.ea 0) s.p1 with
    | .error f => .error f
    | .ok (p, hit) => .ok ((s.setPlanes p s.p2).setReg VF (flagByte hit))
  | .second =>
    match s.drawPlane x y n (s.ea 0) s.p2 with
    | .error f => .error f
    | .ok (p, hit) => .ok ((s.setPlanes s.p1 p).setReg VF (flagByte hit))
  | .both =>
    match s.drawPlane x y n (s.ea 0) s.p1 with
    | .error f => .error f
    | .ok (p, hit) =>
      match s.drawPlane x y n (s.ea (s.spriteSize n)) s.p2 with
      | .error f => .error f
      | .ok (q, hit') => .ok ((s.setPlanes p q).setReg VF (flagByte (hit || hit')))

/-- `Dxyn`, R214. -/
def execDrw (x y : Reg) (n : Nibble) (s : State) : Answer := dispatch (.drw x y n) s (s.drawSelected x y n)

/-- `00E0`, R215: all of each selected plane. -/
def execCls (s : State) : Answer := dispatch .cls s (.ok (s.mapSelected fun _ => Plane.blank))

/-- `00Cn`, R217. -/
def execScd (n : Nibble) (s : State) : Answer :=
  dispatch (.scd n) s (.ok (s.mapSelected (scrollDown s.width s.height n.toNat)))

/-- `00Dn`, R218. -/
def execScu (n : Nibble) (s : State) : Answer :=
  dispatch (.scu n) s (.ok (s.mapSelected (scrollUp s.width s.height n.toNat)))

/-- `00FB`, R219. -/
def execScr (s : State) : Answer := dispatch .scr s (.ok (s.mapSelected (scrollRight s.width s.height)))

/-- `00FC`, R220. -/
def execScl (s : State) : Answer := dispatch .scl s (.ok (s.mapSelected (scrollLeft s.width s.height)))

/-- `00FE`, R221: both planes are cleared whatever SEL and HIRES were (D30). -/
def execLow (s : State) : Answer := dispatch .low s (.ok ((s.setHires false).setPlanes Plane.blank Plane.blank))

/-- `00FF`, R222. -/
def execHigh (s : State) : Answer := dispatch .high s (.ok ((s.setHires true).setPlanes Plane.blank Plane.blank))

/-- R223: a mask above 3 faults, 0 changes nothing, 1 to 3 select. -/
def State.selectPlanes (s : State) (mask : Nibble) : Except CoreFault State :=
  match mask with
  | 0x0 => .ok s
  | 0x1 => .ok (s.setSel .first)
  | 0x2 => .ok (s.setSel .second)
  | 0x3 => .ok (s.setSel .both)
  | m => .error (.planeMask m)

/-- `Fn01`, R223. -/
def execPlane (mask : Nibble) (s : State) : Answer := dispatch (.plane mask) s (s.selectPlanes mask)

end Sys2Proof.Machine
end

