-- ==== Sys2Proof/Machine/Index.lean ====
section
/-!
DEFINITION. 42_index_memory.md: the address register, loads and stores, the font glyphs and the persistent flag store. The one
data address is I + k (R180 to R189), never masked on access (20 R63).
-/
namespace Sys2Proof.Machine

/-- `Annn`, R180. -/
def execLdI (nnn : Addr12) (s : State) : Answer := dispatch (.ldI nnn) s (.ok (s.setI nnn.toNat))

/-- `F000 nnnn`, R181: pc moves past the second word, which the fetch has read (log 18). -/
def execLdILong (nnnn : Word) (s : State) : Answer :=
  dispatch (.ldILong nnnn) s (.ok ((s.setPc (s.pc + 2)).setI nnnn.toNat))

/-- `Fx1E`, R182: VF is not written (D42). -/
def execAddI (x : Reg) (s : State) : Answer := dispatch (.addI x) s (.ok (s.setI (s.I.toNat + (s.reg x).toNat)))

/-- I to a glyph, R183 and R184. -/
def State.pointAtGlyph (s : State) (x : Reg) (size : FontSize) : Except CoreFault State :=
  match fontAddress s.mode (s.reg x) size with
  | .error f => .error f
  | .ok a => .ok (s.setI a)

/-- `Fx29`, R183. -/
def execLdF (x : Reg) (s : State) : Answer := dispatch (.ldF x) s (s.pointAtGlyph x .standard)

/-- `Fx30`, R184. -/
def execLdHF (x : Reg) (s : State) : Answer := dispatch (.ldHF x) s (s.pointAtGlyph x .extended)

/-- Bytes stored at I, I + 1, ... (R185, R186, R188). -/
def State.storeAtI (s : State) (bytes : List Byte) : Except CoreFault State :=
  match memWriteBytes s.mem (s.ea 0) bytes with
  | .error f => .error f
  | .ok m => .ok (s.setMem m)

/-- Registers loaded, in the list's order, from I, I + 1, ... (R187, R189). -/
def State.loadFromI (s : State) (rs : List Reg) : Except CoreFault State :=
  match memReadBytes s.mem (s.ea 0) rs.length with
  | .error f => .error f
  | .ok bytes => .ok (s.setRegs (rs.zip bytes))

/-- Hundreds, tens, ones, R185. -/
def bcdDigits (v : Byte) : List Byte :=
  [BitVec.ofNat 8 (v.toNat / 100), BitVec.ofNat 8 (v.toNat / 10 % 10), BitVec.ofNat 8 (v.toNat % 10)]

/-- `Fx33`, R185. -/
def execBcd (x : Reg) (s : State) : Answer := dispatch (.bcd x) s (s.storeAtI (bcdDigits (s.reg x)))

/-- `Fx55`, R186. -/
def execStoreRegs (x : Reg) (s : State) : Answer :=
  dispatch (.storeRegs x) s <|
    match s.storeAtI (s.regList (regRange 0 x)) with
    | .error f => .error f
    | .ok t => .ok (t.bumpI x)

/-- `Fx65`, R187. -/
def execLoadRegs (x : Reg) (s : State) : Answer :=
  dispatch (.loadRegs x) s <|
    match s.loadFromI (regRange 0 x) with
    | .error f => .error f
    | .ok t => .ok (t.bumpI x)

/-- `5xy2`, R188: I is never changed. -/
def execStoreRange (x y : Reg) (s : State) : Answer :=
  dispatch (.storeRange x y) s (s.storeAtI (s.regList (regRange x y)))

/-- `5xy3`, R189: I is never changed. -/
def execLoadRange (x y : Reg) (s : State) : Answer := dispatch (.loadRange x y) s (s.loadFromI (regRange x y))

/-- In SCHIP mode X > 7 faults before any transfer, R190 and R191. -/
def rplCountCheck (mode : Mode) (x : Reg) : Except CoreFault Unit :=
  if mode = .schip ∧ x.val > 7 then .error (.rplCount x) else .ok ()

/-- `RplWrite(k, ..)` for k from `k` up, in order. -/
def rplWriteAll (rpl : Vector Byte 8) (k : Nat) : List Byte → Except CoreFault (Vector Byte 8)
  | [] => .ok rpl
  | b :: bs =>
    match rplWrite rpl k b with
    | .error f => .error f
    | .ok r => rplWriteAll r (k + 1) bs

/-- `RplRead(k)` for n indices from `k` up, in order. -/
def rplReadAll (rpl : Vector Byte 8) (k : Nat) : Nat → Except CoreFault (List Byte)
  | 0 => .ok []
  | n + 1 =>
    match rplRead rpl k with
    | .error f => .error f
    | .ok b =>
      match rplReadAll rpl (k + 1) n with
      | .error f => .error f
      | .ok bs => .ok (b :: bs)

/-- `Fx75`, R190. -/
def execStoreRpl (x : Reg) (s : State) : Answer :=
  dispatch (.storeRpl x) s <|
    match rplCountCheck s.mode x with
    | .error f => .error f
    | .ok _ =>
      match rplWriteAll s.rpl 0 (s.regList (regRange 0 x)) with
      | .error f => .error f
      | .ok r => .ok (s.setRpl r)

/-- `Fx85`, R191. -/
def execLoadRpl (x : Reg) (s : State) : Answer :=
  dispatch (.loadRpl x) s <|
    match rplCountCheck s.mode x with
    | .error f => .error f
    | .ok _ =>
      match rplReadAll s.rpl 0 (x.val + 1) with
      | .error f => .error f
      | .ok bytes => .ok (s.setRegs ((regRange 0 x).zip bytes))

end Sys2Proof.Machine
end

