-- ==== Sys2Proof/Machine/Io.lean ====
section
/-!
DEFINITION. 44_timers_keys_audio.md: the timer, keypad and audio instructions.
-/
namespace Sys2Proof.Machine

/-- `Fx07`, R250. -/
def execGetDelay (x : Reg) (s : State) : Answer := dispatch (.getDelay x) s (.ok (s.setReg x s.dt))

/-- `Fx15`, R251. -/
def execSetDelay (x : Reg) (s : State) : Answer := dispatch (.setDelay x) s (.ok (s.setDt (s.reg x)))

/-- `Fx18`, R252. -/
def execSetSound (x : Reg) (s : State) : Answer := dispatch (.setSound x) s (.ok (s.setSt (s.reg x)))

/-- `K[k]` for a register value, R253: above 0xF it is no key (D22). -/
def State.keyOf (s : State) (k : Byte) : Except CoreFault Bool :=
  if h : k.toNat < 16 then .ok s.keys[k.toNat] else .error (.keyIndex k)

/-- `Ex9E`, R253: the key check comes before the skip's peek (60 R274). -/
def execSkp (x : Reg) (s : State) : Answer :=
  dispatch (.skp x) s <|
    match s.keyOf (s.reg x) with
    | .error f => .error f
    | .ok down => s.skipIf down

/-- `ExA1`, R254. -/
def execSknp (x : Reg) (s : State) : Answer :=
  dispatch (.sknp x) s <|
    match s.keyOf (s.reg x) with
    | .error f => .error f
    | .ok down => s.skipIf (!down)

/-- R255: no key down rewinds pc to the instruction; one key is taken; among several the choice is a draw (log 7). -/
def State.takeKey (s : State) (x : Reg) : State :=
  match pressedKeys s.keys with
  | [] => s.setPc (s.pc - 2)
  | [k] => s.setReg x (BitVec.ofNat 8 k)
  | k :: k' :: ks =>
    (s.setReg x (BitVec.ofNat 8 ((k :: k' :: ks).getD (Config.freeKey s.draws % (ks.length + 2)) k))).drawn

/-- `Fx0A`, R255. -/
def execWaitKey (x : Reg) (s : State) : Answer := dispatch (.waitKey x) s (.ok (s.takeKey x))

/-- Sixteen bytes as PATTERN. -/
def patternOf (bytes : List Byte) : Vector Byte 16 := Vector.ofFn fun k : Fin 16 => bytes.getD k.val 0

/-- `F002`, R256: all sixteen bytes are read before any is written. -/
def execAudio (s : State) : Answer :=
  dispatch .audio s <|
    match memReadBytes s.mem (s.ea 0) 16 with
    | .error f => .error f
    | .ok bytes => .ok (s.setPattern (patternOf bytes))

/-- `Fx3A`, R257. -/
def execPitch (x : Reg) (s : State) : Answer := dispatch (.pitch x) s (.ok (s.setPitch ((s.reg x).setWidth 16)))

end Sys2Proof.Machine
end

