-- ==== Sys2Proof/Machine/Dispatch.lean ====
section
/-!
DEFINITION. One arm for each instruction of 30_encoding.md R96.
-/
namespace Sys2Proof.Machine

/-- The meaning of an instruction, on a state whose pc is already past its first word (40 R120). -/
def exec (i : Instr) (s : State) : Host.Outcome State Fault Refusal :=
  match i with
  | .scd n => Sys2Proof.Machine.execScd n s
  | .scu n => Sys2Proof.Machine.execScu n s
  | .cls => Sys2Proof.Machine.execCls s
  | .ret => Sys2Proof.Machine.execRet s
  | .scr => Sys2Proof.Machine.execScr s
  | .scl => Sys2Proof.Machine.execScl s
  | .exit => Sys2Proof.Machine.execExit s
  | .low => Sys2Proof.Machine.execLow s
  | .high => Sys2Proof.Machine.execHigh s
  | .jp nnn => Sys2Proof.Machine.execJp nnn s
  | .call nnn => Sys2Proof.Machine.execCall nnn s
  | .seImm x kk => Sys2Proof.Machine.execSeImm x kk s
  | .sneImm x kk => Sys2Proof.Machine.execSneImm x kk s
  | .seReg x y => Sys2Proof.Machine.execSeReg x y s
  | .storeRange x y => Sys2Proof.Machine.execStoreRange x y s
  | .loadRange x y => Sys2Proof.Machine.execLoadRange x y s
  | .ldImm x kk => Sys2Proof.Machine.execLdImm x kk s
  | .addImm x kk => Sys2Proof.Machine.execAddImm x kk s
  | .ldReg x y => Sys2Proof.Machine.execLdReg x y s
  | .or x y => Sys2Proof.Machine.execOr x y s
  | .and x y => Sys2Proof.Machine.execAnd x y s
  | .xor x y => Sys2Proof.Machine.execXor x y s
  | .add x y => Sys2Proof.Machine.execAdd x y s
  | .sub x y => Sys2Proof.Machine.execSub x y s
  | .shr x y => Sys2Proof.Machine.execShr x y s
  | .subn x y => Sys2Proof.Machine.execSubn x y s
  | .shl x y => Sys2Proof.Machine.execShl x y s
  | .sneReg x y => Sys2Proof.Machine.execSneReg x y s
  | .ldI nnn => Sys2Proof.Machine.execLdI nnn s
  | .jpV0 nnn => Sys2Proof.Machine.execJpV0 nnn s
  | .rnd x kk => Sys2Proof.Machine.execRnd x kk s
  | .drw x y n => Sys2Proof.Machine.execDrw x y n s
  | .skp x => Sys2Proof.Machine.execSkp x s
  | .sknp x => Sys2Proof.Machine.execSknp x s
  | .ldILong nnnn => Sys2Proof.Machine.execLdILong nnnn s
  | .plane mask => Sys2Proof.Machine.execPlane mask s
  | .audio => Sys2Proof.Machine.execAudio s
  | .getDelay x => Sys2Proof.Machine.execGetDelay x s
  | .waitKey x => Sys2Proof.Machine.execWaitKey x s
  | .setDelay x => Sys2Proof.Machine.execSetDelay x s
  | .setSound x => Sys2Proof.Machine.execSetSound x s
  | .addI x => Sys2Proof.Machine.execAddI x s
  | .ldF x => Sys2Proof.Machine.execLdF x s
  | .ldHF x => Sys2Proof.Machine.execLdHF x s
  | .bcd x => Sys2Proof.Machine.execBcd x s
  | .pitch x => Sys2Proof.Machine.execPitch x s
  | .storeRegs x => Sys2Proof.Machine.execStoreRegs x s
  | .loadRegs x => Sys2Proof.Machine.execLoadRegs x s
  | .storeRpl x => Sys2Proof.Machine.execStoreRpl x s
  | .loadRpl x => Sys2Proof.Machine.execLoadRpl x s

end Sys2Proof.Machine
end

