-- ==== Sys2Proof/Machine/Fetch.lean ====
section
/-!
DEFINITION. The head of the step, 40_step_and_control_flow.md R120 and R121: fetch, advance pc, decode. A four-byte instruction is
fetched whole (log 18).
-/
namespace Sys2Proof.Machine

/-- What the head of a step comes to. -/
inductive Fetched where
  /-- the instruction to execute, and the state with pc past its first word -/
  | run (i : Instr) (s : State)
  /-- the state left by a fault of the fetch or by an unknown instruction -/
  | stopped (s : State)
  deriving DecidableEq, Repr

/-- R120: the fetched bytes, whose first word is `w`, as an instruction of the mode; pc <- pc + 2. -/
def decodeFetched (s : State) (w : Word) (bytes : List Byte) : Fetched :=
  match decode s.mode bytes with
  | .ok (i, _) => .run i (s.setPc (s.pc + 2))
  | .error _ => .stopped (takeFault (.unknownInstruction w) s.pc w s)

/-- R120, R121: `w <- MemRead(pc, 2)`, and R181's second word when the instruction is long. FREC holds the fetch address; the
raw word of a fault on the first word is unspecified (60 R272, log 3). -/
def fetch (s : State) : Fetched :=
  match memReadWord s.mem s.pc.toNat with
  | .error f => .stopped (takeFault f s.pc (Config.freeRaw s.draws) s)
  | .ok w =>
    if isLong s.mode w then
      match memReadWord s.mem (s.pc.toNat + 2) with
      | .error f => .stopped (takeFault f s.pc w s)
      | .ok w2 => decodeFetched s w (bytesOf w ++ bytesOf w2)
    else decodeFetched s w (bytesOf w)

/-- Memory with an instruction's bytes where the next fetch reads them. -/
def placeAtPc (s : State) (bytes : List Byte) : State := s.setMem (s.mem.pokeAll s.pc.toNat bytes)

end Sys2Proof.Machine
end

