-- ==== Sys2Proof/Machine/Frame.lean ====
section
/-!
DEFINITION. 60_exceptions.md: the timer tick (R280), the end of a frame with the host callback (R281, R284, R285), the host's
requests between frames (R283), and what the host reads (R284, 43_display.md R224).
-/
namespace Sys2Proof.Machine

/-- One timer's decrement, floor 0, R280. -/
def tickTimer (t : Byte) : Byte := if t = 0 then 0 else t - 1

/-- `Tick()`, R280. -/
def tick (s : State) : State := { s with dt := tickTimer s.dt, st := tickTimer s.st }

/-- RUN and FREC, which the host reads between frames and after the end of the run, R283, R288. -/
structure HostStatus where
  run : RunStatus
  /-- FREC; `none` is "not valid" -/
  frec : Option FaultRecord
  deriving DecidableEq, Repr

/-- What the host can read between frames, R283's last row: RUN and FREC with the active display as colours and its size, ST,
DT and the audio state. The callback hands over the same values (R284; DT by its §2), when RUN is RUNNING and FREC not valid. -/
structure HostView extends HostStatus where
  width : Nat
  height : Nat
  /-- the colour numbers of R224, row by row from the top, each row from the left -/
  colours : List (List Nat)
  soundTimer : Byte
  delayTimer : Byte
  pattern : Vector Byte 16
  pitch : Word
  deriving DecidableEq, Repr

/-- The colour of a pixel, R224: (first-plane bit, second-plane bit). -/
def State.colour (s : State) (x y : Nat) : Bool × Bool := (s.p1.pixel x y, s.p2.pixel x y)

/-- The colour as a number 0 to 3, R224. -/
def State.colourNumber (s : State) (x y : Nat) : Nat :=
  (if (s.colour x y).1 then 1 else 0) + 2 * (if (s.colour x y).2 then 1 else 0)

/-- The values of R288's reads after the end: no request by itself (that is `hostStatus`). -/
def statusOf (s : State) : HostStatus := ⟨s.run, s.frec⟩

/-- The values that the host reads, R224, R284: no request by itself (that is `hostView`). -/
def viewOf (s : State) : HostView where
  toHostStatus := statusOf s
  width := s.width
  height := s.height
  colours := (List.range s.height).map fun y => (List.range s.width).map fun x => s.colourNumber x y
  soundTimer := s.st
  delayTimer := s.dt
  pattern := s.pattern
  pitch := s.pitch

/-- The host's reads, R283: between frames only, and none of them inside a frame (U23, log 17). After EXITED or FAULTED, R288
leaves the host RUN and FREC alone, which `hostStatus` reads: an abandoned frame is never shown (R281, 70 R318; log 26). -/
def hostView (s : State) : Except Refusal HostView :=
  if s.run ≠ .running then .error .readAfterEnd
  else if s.frameDone = 0 then .ok (viewOf s)
  else .error .readInFrame

/-- The host's read of RUN and FREC, R283, R288: between frames and after EXITED or FAULTED. -/
def hostStatus (s : State) : Except Refusal HostStatus :=
  if s.run = .running ∧ s.frameDone ≠ 0 then .error .readInFrame else .ok (statusOf s)

/-- The audio gate the host derives, R284: "nonzero sound timer means 'play'". -/
def audioGate (v : HostView) : Bool := v.soundTimer != 0

/-- The host's key writes in the callback, R285: the next key vector it has ready, or none (log 5). -/
def takeKeyInput (s : State) : State :=
  match s.keyInputs with
  | [] => s
  | k :: rest => { s with keys := k, keyInputs := rest }

/-- The end of a completed frame, R281: tick both timers once, call the host back, and a new frame begins. -/
def endFrame (s : State) : State := takeKeyInput { tick s with frameDone := 0, frames := s.frames + 1 }

/-- The frame is abandoned, R281: no tick, no callback. -/
def abandonFrame (s : State) : State := { s with frameDone := 0 }

/-- What the frame loop makes of the state an instruction leaves, R281: an exit or a fault abandons the frame; the IPF-th
instruction ends it. -/
def frameTail (s : State) : State :=
  if s.run ≠ .running then abandonFrame s
  else if s.frameDone + 1 < s.ipf then { s with frameDone := s.frameDone + 1 }
  else endFrame s

/-- The frame loop after an instruction. -/
def afterInstr : Answer → Answer
  | .next s => .next (frameTail s)
  | .fault f => .fault f
  | .refused r => .refused r

/-- `K[k] <- down` as a request of the host, R283, R285: between frames only; inside a frame it is refused (log 17).
After EXITED or FAULTED, where R283 allows it and R288 does not list it, it still changes K: the model's choice (log 26). -/
def setKey (down : Bool) (k : Fin 16) (s : State) : Answer :=
  if s.frameDone = 0 then .next { s with keys := s.keys.set k down } else .refused .keyChangeInFrame

/-- `KeyDown(k)`, R283; that it acts after EXITED or FAULTED is the model's choice (log 26). -/
def keyDown (k : Fin 16) (s : State) : Answer := setKey true k s

/-- `KeyUp(k)`, R283; that it acts after EXITED or FAULTED is the model's choice (log 26). -/
def keyUp (k : Fin 16) (s : State) : Answer := setKey false k s

end Sys2Proof.Machine
end

