-- ==== Sys2Proof/Machine/Step.lean ====
section
/-!
DEFINITION. `Step()` of 40_step_and_control_flow.md R120, the machine's step, which is the frame loop of 60_exceptions.md R281
taken one instruction at a time (log 4), and `StepFrame()` itself.
-/
namespace Sys2Proof.Machine

/-- `Step()`, R120: fetch, advance pc, decode, execute. -/
def instrStep (s : State) : Host.Outcome State Fault Refusal :=
  match fetch s with
  | .run i t => exec i t
  | .stopped t => .next t

/-- One step of the machine while the host keeps calling StepFrame: one instruction and, when it is the last of its frame, the
end of the frame; with IPF = 0, the end of a frame without an instruction (R281). CORE has no step when RUN is not RUNNING
(R120). -/
def step (s : State) : Host.Outcome State Fault Refusal :=
  match s.run with
  | .running => if s.ipf = 0 then .next (endFrame s) else afterInstr (instrStep s)
  | .exited => .fault .stoppedByExit
  | .faulted => .fault .stoppedByFault

/-- `repeat n times: Step(); if RUN != RUNNING then return`, R281. -/
def frameSteps : Nat → State → Host.Outcome State Fault Refusal
  | 0, s => .next s
  | n + 1, s =>
    match instrStep s with
    | .next t => if t.run = .running then frameSteps n t else .next t
    | .fault f => .fault f
    | .refused r => .refused r

/-- `StepFrame()`, R281: called between frames, since the host must not touch CORE during one (R288; refused, log 17); no effect
when RUN is not RUNNING (D17). -/
def stepFrame (s : State) : Host.Outcome State Fault Refusal :=
  match s.run with
  | .running =>
    if s.frameDone = 0 then
      match frameSteps s.ipf s with
      | .next t => if t.run = .running then .next (endFrame t) else .next t
      | .fault f => .fault f
      | .refused r => .refused r
    else .refused .stepFrameInFrame
  | .exited => .next s
  | .faulted => .next s

/-- The state with an instruction, given as spec/opcode_table.json numbers its bits, where the next step fetches it: its
bytes at pc. This stands for the load of a program (log 12). -/
def State.withFetchWord (s : State) (nbits w : Nat) : State := placeAtPc s (tableBytes nbits w)

end Sys2Proof.Machine
end

