-- ==== Sys2Proof/Machine/Reset.lean ====
section
/-!
DEFINITION. Reset with any arguments, 70_reset_and_hazards.md R310 and R312. `State.reset` (Machine/State.lean) is its outcome
for the default arguments (shown in Laws/Reset.lean).
-/
namespace Sys2Proof.Machine

/-- The arguments of Reset, R310. -/
structure ResetArgs where
  image : List Byte
  mode : Mode
  quirks : Quirks
  ipf : Nat
  fontSmall : Vector Byte 80
  fontLarge : Vector Byte 100
  pitchReset : Word
  rplInit : Vector Byte 8
  deriving DecidableEq, Repr

/-- The arguments of `State.reset`: XOCHIP, no quirk, IPF 10, an empty image (log 8), the default fonts (log 10), pitch 64
and an all-zero flag store (log 11). -/
def ResetArgs.default : ResetArgs where
  image := []
  mode := .xochip
  quirks := ⟨false, false, false, false, false⟩
  ipf := 10
  fontSmall := Vector.ofFn fun k : Fin 80 => fontSmallDefault.getD k.val 0
  fontLarge := Vector.ofFn fun k : Fin 100 => fontLargeDefault.getD k.val 0
  pitchReset := 64
  rplInit := Vector.replicate 8 0

/-- M after reset, R310: the small font, the large font unless MODE is CHIP8 (then zeros, R47), and the image from 0x200. -/
def ResetArgs.memory (a : ResetArgs) : Memory :=
  let small := Memory.pokeAll [] fontSmallBase a.fontSmall.toList
  let large := small.pokeAll fontLargeBase (if a.mode = .chip8 then List.replicate 100 0x00 else a.fontLarge.toList)
  large.pokeAll Config.progBase a.image

/-- Reset, R310 and R45; an image over 3584 bytes is refused, and no state results (R312). The host may reset at any time
(60 R283); nothing survives but what it passes back in. -/
def State.resetWith (a : ResetArgs) : Answer :=
  if a.image.length > Config.maxImage then .refused .imageTooLong
  else .next { State.reset with
    mode := a.mode
    quirks := a.quirks
    ipf := a.ipf
    mem := a.memory
    rpl := a.rplInit
    pitch := a.pitchReset }

end Sys2Proof.Machine
end

