-- ==== Sys2Proof/Safety.lean ====
section
/-!
DEFINITION. What a sound state and a good run are, in the terms statements use: the invariants that the spec's own rules draw
(10_state.md R22, R24, R32 to R34, R38, R39), and reaching a state by steps.
-/
namespace Sys2Proof.Machine

/-- Every pixel outside the W by H corner is 0, 10_state.md R34. -/
def Plane.quietOutside (w h : Nat) (p : Plane) : Prop := ∀ x y, w ≤ x ∨ h ≤ y → p.pixel x y = false

/-- What holds of every state element that the spec defines while RUN is not FAULTED. After a fault nothing but RUN and FREC is
defined (60_exceptions.md R273). -/
structure State.Live (s : State) : Prop where
  /-- R22: the value of I is always in 0..0xFFF -/
  addressInRange : s.I.toNat ≤ 0xFFF
  /-- R24: no rule gives pc a value above 0x10FE -/
  pcBound : s.pc.toNat ≤ 0x10FE
  /-- R24, R26: the slots in use hold return addresses, the address of a fetched word plus 2 -/
  slotBound : ∀ k : Fin 16, k.val < s.sp.val → s.stack[k].toNat ≤ 0x1000
  /-- R34 -/
  plane1Quiet : s.p1.quietOutside s.width s.height
  /-- R34 -/
  plane2Quiet : s.p2.quietOutside s.width s.height
  /-- R32: in CHIP8 mode HIRES stays 0 -/
  loresInChip8 : s.mode = .chip8 → s.hires = false
  /-- R33: outside XOCHIP mode SEL keeps its reset value -/
  firstPlaneOutsideXochip : s.mode ≠ .xochip → s.sel = .first
  /-- R281: a frame has at most IPF instructions -/
  frameInBudget : s.frameDone = 0 ∨ s.frameDone < s.ipf
  /-- R39: FREC is not valid -/
  noFaultRecord : s.frec = none

/-- The invariant of CORE: memory is canonical, FREC is valid exactly when RUN is FAULTED, and otherwise the state is sound. -/
structure State.Inv (s : State) : Prop where
  memCanonical : s.mem.wf = true
  recordWhenFaulted : s.run = .faulted → s.frec.isSome = true
  live : s.run ≠ .faulted → s.Live

/-- `t` is reached from `s` by some number of steps, every one of which has a next state. -/
inductive Reaches : State → State → Prop where
  | refl (s : State) : Reaches s s
  | tail {s t u : State} : Reaches s t → step t = .next u → Reaches s u

/-- The answer is a fault taken: a next state with RUN = FAULTED and FREC holding the fault, the address and the raw word
(60_exceptions.md R270, R272). -/
def Faults (a : Answer) (f : CoreFault) (addr raw : Word) : Prop :=
  ∃ u, a = .next u ∧ u.run = .faulted ∧ u.frec = some ⟨f, addr, raw⟩

/-- In the mode, the word is instruction `i` (30_encoding.md R93). -/
def Decodes (m : Mode) (w : Word) (i : Instr) : Prop := decode m (bytesOf w) = .ok (i, [])

/-- In the mode, the word is no instruction (30_encoding.md R97). -/
def Unknown (m : Mode) (w : Word) : Prop := decode m (bytesOf w) = .error (.unknownInstruction w)

/-- A rule's *Encoding*: a word with this pattern under this mask is the instruction `read` gives, in the named modes, and no
instruction in the others (00_scope.md R12, 30_encoding.md R93 and R97). -/
def EncodedBy (mask pattern : Word) (modes : List Mode) (read : Word → Instr) : Prop :=
  ∀ m w, w &&& mask = pattern → if m ∈ modes then Decodes m w (read w) else Unknown m w

/-- The big-endian word at an address (20_memory.md R64). -/
def State.wordAt (s : State) (a : Nat) : Word := wordOf (s.mem.get a) (s.mem.get (a + 1))

/-- The instruction completes, gives every register the named value, and changes nothing else. -/
def SetsRegisters (i : Instr) (s : State) (new : Reg → Nat) : Prop :=
  ∃ t, exec i s = .next t ∧ (∀ r, (t.reg r).toNat = new r) ∧ t = { s with v := t.v }

/-- `Skip()` under a condition (40 R122): when it fails pc stays; when it holds pc moves by 2, or in XOCHIP mode by 4 over the
word 0xF000, and the XOCHIP peek faults like any read. -/
def SkipsWhen (c : Prop) (i : Instr) (s : State) : Prop :=
  (¬ c → exec i s = .next s) ∧
  (c → s.mode ≠ .xochip → exec i s = .next { s with pc := s.pc + 2 }) ∧
  (c → s.mode = .xochip → s.pc.toNat ≤ 0xFFE →
    exec i s = .next { s with pc := if s.wordAt s.pc.toNat = 0xF000 then s.pc + 4 else s.pc + 2 }) ∧
  (c → s.mode = .xochip → 0xFFE < s.pc.toNat →
    Faults (exec i s) (.memRead (max s.pc.toNat 0x1000)) (s.pc - 2) i.firstWord)

/-- The registers an instruction that completes may change (10_state.md R21, and the destinations of files 41, 42, 44). -/
def Instr.mayWrite (q : Quirks) (r : Reg) : Instr → Prop
  | .ldImm x _ | .addImm x _ | .ldReg x _ | .rnd x _ | .getDelay x | .waitKey x => r = x
  | .or x _ | .and x _ | .xor x _ => r = x ∨ (r = VF ∧ q.logicResetsVF = true)
  | .add x _ | .sub x _ | .subn x _ | .shr x _ | .shl x _ => r = x ∨ r = VF
  | .drw _ _ _ => r = VF
  | .loadRegs x | .loadRpl x => r ≤ x
  | .loadRange x y => min x y ≤ r ∧ r ≤ max x y
  | _ => False

/-- The faults an instruction that the mode has may raise once it is fetched, each with its cause (60_exceptions.md R271). -/
def Instr.mayRaise (s : State) : CoreFault → Instr → Prop
  | .memRead a, .drw _ _ _ | .memRead a, .loadRegs _ | .memRead a, .loadRange _ _ | .memRead a, .audio => 0xFFF < a
  | .memRead a, .seImm _ _ | .memRead a, .sneImm _ _ | .memRead a, .seReg _ _ | .memRead a, .sneReg _ _
  | .memRead a, .skp _ | .memRead a, .sknp _ => 0xFFF < a ∧ s.mode = .xochip
  | .memWrite a, .bcd _ | .memWrite a, .storeRegs _ | .memWrite a, .storeRange _ _ => a < 0x200 ∨ 0xFFF < a
  | .stackOverflow, .call _ => s.sp.val = 16
  | .stackUnderflow, .ret => s.sp.val = 0
  | .font d .standard, .ldF x => d = s.reg x ∧ 0xF < d.toNat
  | .font d .extended, .ldHF x => d = s.reg x ∧ 9 < d.toNat
  | .planeMask k, .plane mask => k = mask ∧ 3 < k.toNat
  | .rplCount n, .storeRpl x | .rplCount n, .loadRpl x => n = x ∧ s.mode = .schip ∧ 7 < x.val
  | .rplIndex k, .storeRpl x | .rplIndex k, .loadRpl x => k = 8 ∧ s.mode = .xochip ∧ 7 < x.val
  | .keyIndex k, .skp x | .keyIndex k, .sknp x => k = s.reg x ∧ 0xF < k.toNat
  | _, _ => False

/-- The state elements no instruction reads: ST, PATTERN and PITCH (10_state.md R28, R35). -/
def SameButHostOnly (s t : State) : Prop := t = { s with st := t.st, pattern := t.pattern, pitch := t.pitch }

/-- The sprite `rows`, drawn from the origin (x0, y0) of a w by h area, has a set bit that is drawn at (px, py)
(43_display.md R212): clipped past the edges, or wrapped around them. -/
def Covers (clip : Bool) (w h x0 y0 : Nat) (rows : List (List Bool)) (px py : Nat) : Prop :=
  ∃ r c, (rows.getD r []).getD c false = true ∧
    if clip = true then px = x0 + c ∧ py = y0 + r else px = (x0 + c) % w ∧ py = (y0 + r) % h

/-- The pixels of the active area become `f` of the old ones; the pixels outside it stay. -/
def ActiveBecomes (s : State) (f : (Nat → Nat → Bool) → Nat → Nat → Bool) (p p' : Plane) : Prop :=
  ∀ x y, p'.pixel x y = if x < s.width ∧ y < s.height then f p.pixel x y else p.pixel x y

/-- The selected planes become `f` of themselves, the others stay, and so does everything else (43_display.md R210). -/
def SelectedBecome (f : (Nat → Nat → Bool) → Nat → Nat → Bool) (s t : State) : Prop :=
  (s.sel.hasFirst = true → ActiveBecomes s f s.p1 t.p1) ∧ (s.sel.hasFirst = false → t.p1 = s.p1) ∧
  (s.sel.hasSecond = true → ActiveBecomes s f s.p2 t.p2) ∧ (s.sel.hasSecond = false → t.p2 = s.p2) ∧
  t = { s with p1 := t.p1, p2 := t.p2 }

/-- `n` steps of the machine, ending early when RUN leaves RUNNING. -/
def stepsWhileRunning : Nat → State → Answer
  | 0, s => .next s
  | n + 1, s =>
    match step s with
    | .next t => if t.run = .running then stepsWhileRunning n t else .next t
    | .fault f => .fault f
    | .refused r => .refused r

end Sys2Proof.Machine
end

