-- ==== Sys2Proof/WellFormed.lean ====
section
/-!
DEFINITION. Which instruction terms are instructions of a machine. The operand types already bound every field (R94), so
the one check is R95's: the instruction exists in the platform mode. (`Instr.existsIn` stands in Decode.lean, where the
dispatch of R93 uses it.)
-/
namespace Sys2Proof

/-- The instruction is one that a CORE in mode `m` has (30_encoding.md R95). -/
abbrev Instr.WellFormed (m : Mode) (i : Instr) : Prop := i.existsIn m = true

end Sys2Proof
end

