-- ==== Sys2Proof/Certificates/Slice0/Obligations.lean ====
section
/-!
DEFINITION. The statements for the provers. Inside a statement about `exec`, pc is already past the instruction's first word
(40_step_and_control_flow.md R120), so `s.pc - 2` is the address it was fetched from. What a fault leaves is
RUN and FREC only (60_exceptions.md R273): no statement says more of it.
-/

open Sys2Proof Sys2Proof.Machine

/-! ## Encoding, 30_encoding.md -/

/-- R92, R93, R96: decoding what the encoder wrote gives the instruction back, with the bytes that follow it. -/
def Obligations.DecodeAfterEncode : Prop :=
  ∀ (m : Mode) (i : Instr) (rest : List Byte), i.WellFormed m → decode m (encode i ++ rest) = .ok (i, rest)

/-- R92, R93: the other direction; no bit of an instruction's bytes is dropped, and what decodes exists in the mode. -/
def Obligations.EncodeAfterDecode : Prop :=
  ∀ (m : Mode) (bytes rest : List Byte) (i : Instr),
    decode m bytes = .ok (i, rest) → encode i ++ rest = bytes ∧ i.WellFormed m

/-- R93: no word matches two rows of the opcode map; a row that the word matches in the mode is the row of the decoded
instruction; a word that matches none is unknown. -/
def Obligations.DispatchFollowsTheOpcodeMap : Prop :=
  (opcodeMap.Pairwise fun r q => ∀ w : Word, ¬ (w &&& r.mask = r.pattern ∧ w &&& q.mask = q.pattern)) ∧
  ∀ (m : Mode) (w second : Word),
    (∀ r ∈ opcodeMap, w &&& r.mask = r.pattern → m ∈ r.modes →
      ∃ i rest, decode m (bytesOf w ++ bytesOf second) = .ok (i, rest) ∧ i.row = r ∧ i.firstWord = w) ∧
    ((∀ r ∈ opcodeMap, ¬ (w &&& r.mask = r.pattern ∧ m ∈ r.modes)) →
      decode m (bytesOf w ++ bytesOf second) = .error (.unknownInstruction w))

/-- R97's list of the unknown words, the complement of the opcode map (the spec marks the list as derived from R96). -/
def Obligations.UnknownWordsAreThoseListed : Prop :=
  ∀ (m : Mode) (w second : Word),
    (decode m (bytesOf w ++ bytesOf second) = .error (.unknownInstruction w) ↔
      (fieldOP w = 0x0 ∧ w ≠ 0x00E0 ∧ w ≠ 0x00EE ∧
        (m ≠ .chip8 → w &&& 0xFFF0 ≠ 0x00C0 ∧ ¬ (0x00FB ≤ w ∧ w ≤ 0x00FF)) ∧
        (m = .xochip → w &&& 0xFFF0 ≠ 0x00D0)) ∨
      (fieldOP w = 0x5 ∧ fieldN w ≠ 0x0 ∧ (m = .xochip → fieldN w ≠ 0x2 ∧ fieldN w ≠ 0x3)) ∨
      (fieldOP w = 0x8 ∧ fieldN w ∈ ([0x8, 0x9, 0xA, 0xB, 0xC, 0xD, 0xF] : List Nibble)) ∨
      (fieldOP w = 0x9 ∧ fieldN w ≠ 0x0) ∨
      (fieldOP w = 0xE ∧ fieldKK w ∉ ([0x9E, 0xA1] : List Byte)) ∨
      (fieldOP w = 0xF ∧ fieldKK w ∉ ([0x07, 0x0A, 0x15, 0x18, 0x1E, 0x29, 0x33, 0x55, 0x65] : List Byte) ∧
        (m ≠ .chip8 → fieldKK w ∉ ([0x30, 0x75, 0x85] : List Byte)) ∧
        (m = .xochip → fieldKK w ∉ ([0x01, 0x3A] : List Byte) ∧ w ≠ 0xF000 ∧ w ≠ 0xF002)))

/-- Words written out from R96, one or more for each leading nibble, with the instruction each stands for. -/
def Obligations.SampleWordsDecode : Prop :=
  decode .schip [0x00, 0xC7] = .ok (.scd 7, []) ∧
  decode .chip8 [0x00, 0xEE] = .ok (.ret, []) ∧
  decode .chip8 [0x1A, 0xBC] = .ok (.jp 0xABC, []) ∧
  decode .chip8 [0x3A, 0x2C] = .ok (.seImm 10 0x2C, []) ∧
  decode .xochip [0x51, 0xE3] = .ok (.loadRange 1 14, []) ∧
  decode .chip8 [0x81, 0x2E] = .ok (.shl 1 2, []) ∧
  decode .chip8 [0xA3, 0x00] = .ok (.ldI 0x300, []) ∧
  decode .chip8 [0xD1, 0x25] = .ok (.drw 1 2 5, []) ∧
  decode .chip8 [0xE4, 0xA1] = .ok (.sknp 4, []) ∧
  decode .schip [0xF3, 0x75] = .ok (.storeRpl 3, []) ∧
  decode .xochip [0xF0, 0x00, 0x0A, 0xBC] = .ok (.ldILong 0x0ABC, [])

/-- R91: where the fields of a word lie, how they overlap, and the round trip. -/
def Obligations.FieldsRebuildTheWord : Prop :=
  ∀ w : Word,
    (fieldOP w).toNat = w.toNat / 0x1000 ∧ (fieldX w).toNat = w.toNat / 0x100 % 0x10 ∧
    (fieldY w).toNat = w.toNat / 0x10 % 0x10 ∧ (fieldN w).toNat = w.toNat % 0x10 ∧
    (fieldKK w).toNat = w.toNat % 0x100 ∧ (fieldNNN w).toNat = w.toNat % 0x1000 ∧
    fieldKK w = fieldY w ++ fieldN w ∧ fieldNNN w = fieldX w ++ fieldY w ++ fieldN w ∧
    (((fieldOP w).setWidth 16 <<< 12) ||| ((fieldX w).setWidth 16 <<< 8) ||| ((fieldY w).setWidth 16 <<< 4) |||
      (fieldN w).setWidth 16 : Word) = w

/-! ## The step, 40_step_and_control_flow.md §1 -/

/-- R120, R181: a step executes the instruction whose bytes lie at pc, on the state with pc two further; `afterInstr` is what
the frame loop adds (60 R281, log 4; see FrameBoundary). -/
def Obligations.StepExecutesTheDecodedInstruction : Prop :=
  ∀ (s : State) (i : Instr), s.run = .running → s.ipf ≠ 0 →
    (s.pc.toNat ≤ 0xFFE → Decodes s.mode (s.wordAt s.pc.toNat) i →
      instrStep s = exec i { s with pc := s.pc + 2 } ∧ step s = afterInstr (instrStep s)) ∧
    (s.pc.toNat ≤ 0xFFC → s.mode = .xochip → s.wordAt s.pc.toNat = 0xF000 →
      instrStep s = exec (.ldILong (s.wordAt (s.pc.toNat + 2))) { s with pc := s.pc + 2 } ∧
      step s = afterInstr (instrStep s))

/-- R121, with R181's second word: the faults of a fetch, lower byte first. The raw word of a fault on the first word is
unspecified (60 R272). (R121's clause that pc stays is withdrawn by 60 R273.) -/
def Obligations.FetchFaultsBeyondMemory : Prop :=
  ∀ s : State, s.run = .running → s.ipf ≠ 0 →
    (0xFFF < s.pc.toNat → ∃ raw, Faults (step s) (.memRead s.pc.toNat) s.pc raw) ∧
    (s.pc.toNat = 0xFFF → ∃ raw, Faults (step s) (.memRead 0x1000) s.pc raw) ∧
    (s.mode = .xochip → s.pc.toNat = 0xFFD ∨ s.pc.toNat = 0xFFE → s.wordAt s.pc.toNat = 0xF000 →
      Faults (step s) (.memRead 0x1000) s.pc 0xF000)

/-- R97: a fetched word that matches no row of the opcode map in the current mode faults, carrying the raw word. -/
def Obligations.UnknownWordFaultsTheStep : Prop :=
  ∀ s : State, s.run = .running → s.ipf ≠ 0 → s.pc.toNat ≤ 0xFFE →
    (∀ r ∈ opcodeMap, ¬ (s.wordAt s.pc.toNat &&& r.mask = r.pattern ∧ s.mode ∈ r.modes)) →
    Faults (step s) (.unknownInstruction (s.wordAt s.pc.toNat)) s.pc (s.wordAt s.pc.toNat)

/-- R322, R120, 60 R281 with D17: in every RUNNING state `Step` has a next state, and so has `StepFrame` between frames (inside
a frame the model refuses it, R288, log 17); in EXITED and FAULTED there is no step, and `StepFrame` does nothing (that `step`
then stops by name is the model's form of "no step", log 24). -/
def Obligations.StepIsDefinedExactlyWhenRunning : Prop :=
  ∀ s : State,
    (s.run = .running → (∃ t, step s = .next t) ∧ (s.frameDone = 0 → ∃ t, stepFrame s = .next t) ∧
      (s.frameDone ≠ 0 → stepFrame s = .refused .stepFrameInFrame)) ∧
    (s.run = .exited → step s = .fault .stoppedByExit ∧ stepFrame s = .next s) ∧
    (s.run = .faulted → step s = .fault .stoppedByFault ∧ stepFrame s = .next s)

/-- R95: the three nested instruction sets, and that an instruction the mode lacks faults as unknown, carrying its word. -/
def Obligations.ModeGatesInstructions : Prop :=
  (∀ i : Instr, i.existsIn .xochip = true ∧
    (i.existsIn .schip = false ↔ match i with
      | .scu _ | .storeRange _ _ | .loadRange _ _ | .ldILong _ | .plane _ | .audio | .pitch _ => True
      | _ => False) ∧
    (i.existsIn .chip8 = false ↔ match i with
      | .scu _ | .storeRange _ _ | .loadRange _ _ | .ldILong _ | .plane _ | .audio | .pitch _ => True
      | .scd _ | .scr | .scl | .exit | .low | .high | .ldHF _ | .storeRpl _ | .loadRpl _ => True
      | _ => False)) ∧
  ∀ (i : Instr) (s : State), i.existsIn s.mode = false →
    Faults (exec i s) (.unknownInstruction i.firstWord) (s.pc - 2) i.firstWord

/-! ## Faults, 60_exceptions.md §1 -/

/-- R270, R272: when a step leaves RUN = FAULTED, FREC holds one of the ten codes, the address fetched from and the fetched
word; the frame has ended without a callback; no further step exists. -/
def Obligations.TakingAFault : Prop :=
  ∀ s t : State, step s = .next t → t.run = .faulted →
    (∃ f raw, t.frec = some ⟨f, s.pc, raw⟩ ∧ 1 ≤ faultCode f ∧ faultCode f ≤ 10 ∧
      (s.pc.toNat ≤ 0xFFE → raw = s.wordAt s.pc.toNat)) ∧
    t.frameDone = 0 ∧ t.frames = s.frames ∧ step t = .fault .stoppedByFault ∧ stepFrame t = .next t

/-- R271: once fetched, an instruction of the mode raises only the faults of the table's rows that name it, each with the
cause that row gives ("No other condition faults"). -/
def Obligations.FaultsHaveTheirCauses : Prop :=
  ∀ (i : Instr) (s : State) (f : CoreFault) (addr raw : Word), s.run ≠ .faulted → i.existsIn s.mode = true →
    Faults (exec i s) f addr raw → Instr.mayRaise s f i

/-! ## The whole machine -/

/-- The invariant of Safety.lean (10 R22, R24, R32 to R34, R39; 20 R68's canonical memory, log 13) is kept by every step. -/
def Obligations.InvariantIsKept : Prop := ∀ s t : State, s.Inv → step s = .next t → t.Inv

/-- The invariant holds after every reset (70 R310), and of the model's reset state (log 8). -/
def Obligations.ResetHasTheInvariant : Prop :=
  State.reset.Inv ∧ ∀ (a : ResetArgs) (t : State), State.resetWith a = .next t → t.Inv

/-- 20 R68: whatever a program does, no byte below 0x200 changes, along any run. -/
def Obligations.ProtectedRegionNeverChanges : Prop :=
  ∀ s t : State, s.mem.wf = true → Reaches s t → t.run ≠ .faulted → ∀ a < 0x200, t.mem.get a = s.mem.get a

/-- 10 R22, R25, R28, R30 to R38, R40's columns "written by": every state element but V changes only under the instructions
that the spec names as its writers; configuration, K and FREC change under none. -/
def Obligations.StateElementsHaveTheirWriters : Prop :=
  ∀ (i : Instr) (s t : State), exec i s = .next t → t.run ≠ .faulted →
    (t.mode = s.mode ∧ t.quirks = s.quirks ∧ t.ipf = s.ipf ∧ t.keys = s.keys ∧ t.frec = s.frec) ∧
    (t.mem ≠ s.mem → (∃ x, i = .bcd x) ∨ (∃ x, i = .storeRegs x) ∨ ∃ x y, i = .storeRange x y) ∧
    (t.rpl ≠ s.rpl → ∃ x, i = .storeRpl x) ∧
    (t.stack ≠ s.stack → ∃ nnn, i = .call nnn) ∧
    (t.sp ≠ s.sp → (∃ nnn, i = .call nnn) ∨ i = .ret) ∧
    (t.hires ≠ s.hires → i = .low ∨ i = .high) ∧
    (t.sel ≠ s.sel → ∃ mask, i = .plane mask) ∧
    (t.dt ≠ s.dt → ∃ x, i = .setDelay x) ∧
    (t.st ≠ s.st → ∃ x, i = .setSound x) ∧
    (t.pattern ≠ s.pattern → i = .audio) ∧
    (t.pitch ≠ s.pitch → ∃ x, i = .pitch x) ∧
    (t.run ≠ s.run → i = .exit) ∧
    (t.I ≠ s.I → match i with
      | .ldI _ | .ldILong _ | .addI _ | .ldF _ | .ldHF _ => True
      | .storeRegs _ | .loadRegs _ => s.quirks.memIncrementsI = true
      | _ => False) ∧
    (t.p1 ≠ s.p1 → match i with
      | .drw _ _ _ | .cls | .scd _ | .scu _ | .scr | .scl => s.sel ≠ .second
      | .low | .high => True
      | _ => False) ∧
    (t.p2 ≠ s.p2 → match i with
      | .drw _ _ _ | .cls | .scd _ | .scu _ | .scr | .scl => s.sel ≠ .first
      | .low | .high => True
      | _ => False)

/-- 10 R20, R21: a register changes only as a destination of the instruction or, VF, as its flag. -/
def Obligations.RegistersChangeOnlyAsDestinations : Prop :=
  ∀ (i : Instr) (s t : State), exec i s = .next t → t.run ≠ .faulted →
    ∀ r, t.reg r ≠ s.reg r → Instr.mayWrite s.quirks r i

/-- 10 R28, R35, R40: no instruction reads ST, PATTERN or PITCH. Two states that differ in these alone step to states that
differ in these alone. -/
def Obligations.HostOnlyStateIsNeverRead : Prop :=
  ∀ s s' t : State, SameButHostOnly s s' → step s = .next t → ∃ t', step s' = .next t' ∧ SameButHostOnly t t'

/-! ## Frames and the host, 60_exceptions.md §4 and §5 -/

/-- R276, R281 taken one instruction at a time (log 4, log 5): an exit or a fault ends the frame at once; an instruction that
is not the frame's last adds nothing; after the last one the timers tick once, the callback is made, and the host's next key
vector, if it has one, is in K. With IPF = 0 a frame is a tick and a callback. -/
def Obligations.FrameBoundary : Prop :=
  ∀ s u : State, s.run = .running →
    (s.ipf ≠ 0 → instrStep s = .next u →
      (u.run ≠ .running → step s = .next { u with frameDone := 0 }) ∧
      (u.run = .running → u.frameDone + 1 < u.ipf → step s = .next { u with frameDone := u.frameDone + 1 })) ∧
    ((s.ipf = 0 ∧ u = s) ∨ (s.ipf ≠ 0 ∧ instrStep s = .next u ∧ u.run = .running ∧ u.ipf ≤ u.frameDone + 1) →
      ∃ t, step s = .next t ∧ t.dt.toNat = u.dt.toNat - 1 ∧ t.st.toNat = u.st.toNat - 1 ∧
        t.keys = u.keyInputs.headD u.keys ∧ t.keyInputs = u.keyInputs.tail ∧
        t = { u with dt := t.dt, st := t.st, keys := t.keys, keyInputs := t.keyInputs, frameDone := 0,
                     frames := u.frames + 1 })

/-- R281: `StepFrame`, called between frames, is IPF steps of the machine, fewer when one of them leaves RUNNING (one step
when IPF = 0, log 4). -/
def Obligations.StepFrameIsItsSteps : Prop :=
  ∀ s : State, s.run = .running → s.frameDone = 0 → stepFrame s = stepsWhileRunning (max 1 s.ipf) s

/-- R280: n ticks take n off each timer, never below 0, and change nothing else. -/
def Obligations.TicksCountDownToZero : Prop :=
  ∀ (s : State) (n : Nat), ((tick^[n]) s).dt.toNat = s.dt.toNat - n ∧ ((tick^[n]) s).st.toNat = s.st.toNat - n ∧
    (tick^[n]) s = { s with dt := ((tick^[n]) s).dt, st := ((tick^[n]) s).st }

/-- R283's and R288's reads, 43 R224, R284: between frames the host reads the grid, its size, ST, DT, PATTERN, PITCH, RUN and
FREC as the state holds them, and derives the audio gate; after EXITED or FAULTED it reads RUN and FREC, and nothing else.
Inside a frame the spec has no such request (U23). What is no request, the model refuses by name (log 17, log 26). -/
def Obligations.HostReadsTheDisplay : Prop :=
  ∀ s : State,
    (s.run = .running → s.frameDone = 0 → ∃ v, hostView s = .ok v ∧
      v.width = (if s.hires then 128 else 64) ∧ v.height = (if s.hires then 64 else 32) ∧
      v.colours.length = v.height ∧ (∀ row ∈ v.colours, row.length = v.width) ∧
      (∀ x y, x < v.width → y < v.height →
        s.colour x y = (s.p1.pixel x y, s.p2.pixel x y) ∧
        (v.colours.getD y []).getD x 0 = (s.p1.pixel x y).toNat + 2 * (s.p2.pixel x y).toNat) ∧
      v.soundTimer = s.st ∧ v.delayTimer = s.dt ∧ v.pattern = s.pattern ∧ v.pitch = s.pitch ∧
      v.run = s.run ∧ v.frec = s.frec ∧ (audioGate v = true ↔ s.st.toNat ≠ 0)) ∧
    (s.run = .running → s.frameDone ≠ 0 →
      hostView s = .error .readInFrame ∧ hostStatus s = .error .readInFrame) ∧
    (s.run ≠ .running → hostView s = .error .readAfterEnd) ∧
    (s.run ≠ .running ∨ s.frameDone = 0 → ∃ v, hostStatus s = .ok v ∧ v.run = s.run ∧ v.frec = s.frec)

/-- R283, R285: the host's key setters between frames change the one key. (Inside a frame the spec gives them no meaning; the
model refuses them, log 17. That they act after EXITED or FAULTED is the model's choice, log 26.) -/
def Obligations.KeySettersChangeOneKey : Prop :=
  ∀ (s : State) (k : Fin 16), s.frameDone = 0 →
    ∃ d u, keyDown k s = .next d ∧ keyUp k s = .next u ∧
      (∀ j : Fin 16, d.keys[j] = if j = k then true else s.keys[j]) ∧ d = { s with keys := d.keys } ∧
      (∀ j : Fin 16, u.keys[j] = if j = k then false else s.keys[j]) ∧ u = { s with keys := u.keys }

/-! ## Reset, 10_state.md §9 and 70_reset_and_hazards.md §1 -/

/-- 10 R45, its table: every state element but M after a reset with an image that fits (for M see ResetMemory). -/
def Obligations.ResetValues : Prop :=
  ∀ a : ResetArgs, a.image.length ≤ 3584 → ∃ t, State.resetWith a = .next t ∧
    (∀ r, t.reg r = 0x00) ∧ t.I.toNat = 0x000 ∧ t.pc.toNat = 0x0200 ∧ t.sp.val = 0 ∧ (∀ k : Fin 16, t.stack[k] = 0x0000) ∧
    t.dt = 0x00 ∧ t.st = 0x00 ∧ t.rpl = a.rplInit ∧
    (∀ x y, t.p1.pixel x y = false ∧ t.p2.pixel x y = false) ∧ t.hires = false ∧ t.sel = .first ∧
    (∀ k : Fin 16, t.pattern[k] = 0xFF) ∧ t.pitch = a.pitchReset ∧ (∀ k : Fin 16, t.keys[k] = false) ∧
    t.mode = a.mode ∧ t.quirks = a.quirks ∧ t.ipf = a.ipf ∧ t.run = .running ∧ t.frec = none

/-- 10 R46 to R49 and 20 R67: what every address reads as after reset. -/
def Obligations.ResetMemory : Prop :=
  ∀ (a : ResetArgs) (t : State), State.resetWith a = .next t → ∀ adr : Nat,
    t.mem.get adr =
      if adr < 80 then a.fontSmall.toList.getD adr 0x00
      else if adr < 180 then (if a.mode = .chip8 then 0x00 else a.fontLarge.toList.getD (adr - 80) 0x00)
      else if 0x200 ≤ adr ∧ adr < 0x200 + a.image.length then a.image.getD (adr - 0x200) 0x00
      else 0x00

/-- 70 R312: an over-long image is refused; after an empty image the first step faults on the word 0x0000 at 0x200. -/
def Obligations.ImageLengthLimits : Prop :=
  ∀ a : ResetArgs,
    (3584 < a.image.length → State.resetWith a = .refused .imageTooLong) ∧
    (a.image = [] → a.ipf ≠ 0 →
      ∃ t, State.resetWith a = .next t ∧ Faults (step t) (.unknownInstruction 0x0000) 0x0200 0x0000)

/-! ## Control transfer, 40_step_and_control_flow.md §2 to §5 -/

/-- R124, R131: the jump and the jump with offset, whose sum is not masked; everything but pc stays. -/
def Obligations.JumpsSetPc : Prop :=
  EncodedBy 0xF000 0x1000 allModes (fun w => .jp (fieldNNN w)) ∧
  EncodedBy 0xF000 0xB000 allModes (fun w => .jpV0 (fieldNNN w)) ∧
  ∀ (nnn : Addr12) (s : State),
    (∃ t, exec (.jp nnn) s = .next t ∧ t.pc.toNat = nnn.toNat ∧ t = { s with pc := t.pc }) ∧
    (∃ t, exec (.jpV0 nnn) s = .next t ∧ t = { s with pc := t.pc } ∧
      (s.quirks.jumpUsesVX = false → t.pc.toNat = nnn.toNat + (s.reg 0).toNat) ∧
      (s.quirks.jumpUsesVX = true → ∀ x : Reg, x.val = nnn.toNat / 0x100 → t.pc.toNat = nnn.toNat + (s.reg x).toNat))

/-- 10 R26 through R125: the call pushes the address after it and jumps, and with 16 slots in use faults. -/
def Obligations.CallPushesTheReturnAddress : Prop :=
  EncodedBy 0xF000 0x2000 allModes (fun w => .call (fieldNNN w)) ∧
  ∀ (nnn : Addr12) (s : State),
    (s.sp.val < 16 → ∃ t, exec (.call nnn) s = .next t ∧ t.sp.val = s.sp.val + 1 ∧
      (∀ k : Fin 16, t.stack[k] = if k.val = s.sp.val then s.pc else s.stack[k]) ∧ t.pc.toNat = nnn.toNat ∧
      t = { s with stack := t.stack, sp := t.sp, pc := t.pc }) ∧
    (s.sp.val = 16 → Faults (exec (.call nnn) s) .stackOverflow (s.pc - 2) (Instr.call nnn).firstWord)

/-- 10 R27 through R123: the return takes the top slot as pc, leaves the slot as it is, and on an empty stack faults. -/
def Obligations.ReturnPopsTheStack : Prop :=
  EncodedBy 0xFFFF 0x00EE allModes (fun _ => .ret) ∧
  ∀ s : State,
    (∀ k : Fin 16, s.sp.val = k.val + 1 → ∃ t, exec .ret s = .next t ∧ t.sp.val = k.val ∧ t.pc = s.stack[k] ∧
      t = { s with sp := t.sp, pc := t.pc }) ∧
    (s.sp.val = 0 → Faults (exec .ret s) .stackUnderflow (s.pc - 2) 0x00EE)

/-- §8 item 6 as R26, R27, R123 and R125 carry it: a return right after a call resumes after the call, with SP and every slot
below it as they were. -/
def Obligations.ReturnAfterCallResumes : Prop :=
  ∀ (nnn : Addr12) (s : State), s.sp.val < 16 →
    ∃ t u, exec (.call nnn) s = .next t ∧ exec .ret t = .next u ∧ u = { s with stack := u.stack } ∧
      ∀ k : Fin 16, k.val ≠ s.sp.val → u.stack[k] = s.stack[k]

/-- R126 to R129 with R122: the four register skips; the last nibble of the two-register forms must be 0. -/
def Obligations.RegisterSkips : Prop :=
  EncodedBy 0xF000 0x3000 allModes (fun w => .seImm (regOf (fieldX w)) (fieldKK w)) ∧
  EncodedBy 0xF000 0x4000 allModes (fun w => .sneImm (regOf (fieldX w)) (fieldKK w)) ∧
  EncodedBy 0xF00F 0x5000 allModes (fun w => .seReg (regOf (fieldX w)) (regOf (fieldY w))) ∧
  EncodedBy 0xF00F 0x9000 allModes (fun w => .sneReg (regOf (fieldX w)) (regOf (fieldY w))) ∧
  (∀ m w, fieldOP w = 0x5 → fieldN w ≠ 0x0 → ¬ (m = .xochip ∧ (fieldN w = 0x2 ∨ fieldN w = 0x3)) → Unknown m w) ∧
  (∀ m w, fieldOP w = 0x9 → fieldN w ≠ 0x0 → Unknown m w) ∧
  ∀ (x y : Reg) (kk : Byte) (s : State),
    SkipsWhen (s.reg x = kk) (.seImm x kk) s ∧ SkipsWhen (s.reg x ≠ kk) (.sneImm x kk) s ∧
    SkipsWhen (s.reg x = s.reg y) (.seReg x y) s ∧ SkipsWhen (s.reg x ≠ s.reg y) (.sneReg x y) s

/-- R132, 60 R281: exit makes RUN EXITED and changes nothing else; as a step it ends the frame with no tick and no callback,
pc is the address after it, and there is no further step. -/
def Obligations.ExitStops : Prop :=
  EncodedBy 0xFFFF 0x00FD schipModes (fun _ => .exit) ∧
  ∀ s : State, s.mode ≠ .chip8 →
    exec .exit s = .next { s with run := .exited } ∧
    (s.run = .running → s.ipf ≠ 0 → s.pc.toNat ≤ 0xFFE → s.wordAt s.pc.toNat = 0x00FD →
      ∃ t, step s = .next t ∧ t = { s with pc := s.pc + 2, run := .exited, frameDone := 0 } ∧
        step t = .fault .stoppedByExit)

/-! ## Register load, arithmetic, logic, shift and random, 41_alu.md -/

/-- R150 to R152: load immediate, add immediate without a flag, copy. -/
def Obligations.LoadsAndImmediateAdd : Prop :=
  EncodedBy 0xF000 0x6000 allModes (fun w => .ldImm (regOf (fieldX w)) (fieldKK w)) ∧
  EncodedBy 0xF000 0x7000 allModes (fun w => .addImm (regOf (fieldX w)) (fieldKK w)) ∧
  EncodedBy 0xF00F 0x8000 allModes (fun w => .ldReg (regOf (fieldX w)) (regOf (fieldY w))) ∧
  ∀ (x y : Reg) (kk : Byte) (s : State),
    SetsRegisters (.ldImm x kk) s (fun r => if r = x then kk.toNat else (s.reg r).toNat) ∧
    SetsRegisters (.addImm x kk) s
      (fun r => if r = x then ((s.reg x).toNat + kk.toNat) % 256 else (s.reg r).toNat) ∧
    SetsRegisters (.ldReg x y) s (fun r => if r = x then (s.reg y).toNat else (s.reg r).toNat)

/-- R153 to R155: OR, AND, XOR; under `Q_LOGIC_RESETS_VF` VF ends as 0, even as the destination. -/
def Obligations.LogicOperations : Prop :=
  EncodedBy 0xF00F 0x8001 allModes (fun w => .or (regOf (fieldX w)) (regOf (fieldY w))) ∧
  EncodedBy 0xF00F 0x8002 allModes (fun w => .and (regOf (fieldX w)) (regOf (fieldY w))) ∧
  EncodedBy 0xF00F 0x8003 allModes (fun w => .xor (regOf (fieldX w)) (regOf (fieldY w))) ∧
  ∀ (x y : Reg) (s : State),
    SetsRegisters (.or x y) s (fun r =>
      if r = 15 ∧ s.quirks.logicResetsVF = true then 0
      else if r = x then (s.reg x).toNat ||| (s.reg y).toNat else (s.reg r).toNat) ∧
    SetsRegisters (.and x y) s (fun r =>
      if r = 15 ∧ s.quirks.logicResetsVF = true then 0
      else if r = x then (s.reg x).toNat &&& (s.reg y).toNat else (s.reg r).toNat) ∧
    SetsRegisters (.xor x y) s (fun r =>
      if r = 15 ∧ s.quirks.logicResetsVF = true then 0
      else if r = x then (s.reg x).toNat ^^^ (s.reg y).toNat else (s.reg r).toNat)

/-- R156, R157, R159, R163: sum and carry, the two differences and not-borrow; VF is written last. -/
def Obligations.AddAndSubtract : Prop :=
  EncodedBy 0xF00F 0x8004 allModes (fun w => .add (regOf (fieldX w)) (regOf (fieldY w))) ∧
  EncodedBy 0xF00F 0x8005 allModes (fun w => .sub (regOf (fieldX w)) (regOf (fieldY w))) ∧
  EncodedBy 0xF00F 0x8007 allModes (fun w => .subn (regOf (fieldX w)) (regOf (fieldY w))) ∧
  ∀ (x y : Reg) (s : State),
    SetsRegisters (.add x y) s (fun r =>
      if r = 15 then (if (s.reg x).toNat + (s.reg y).toNat > 0xFF then 1 else 0)
      else if r = x then ((s.reg x).toNat + (s.reg y).toNat) % 256 else (s.reg r).toNat) ∧
    SetsRegisters (.sub x y) s (fun r =>
      if r = 15 then (if (s.reg x).toNat ≥ (s.reg y).toNat then 1 else 0)
      else if r = x then ((s.reg x).toNat + 256 - (s.reg y).toNat) % 256 else (s.reg r).toNat) ∧
    SetsRegisters (.subn x y) s (fun r =>
      if r = 15 then (if (s.reg y).toNat ≥ (s.reg x).toNat then 1 else 0)
      else if r = x then ((s.reg y).toNat + 256 - (s.reg x).toNat) % 256 else (s.reg r).toNat)

/-- R158, R160, R163: the shifts by one, of the source that `Q_SHIFT_USES_VY` chooses; VF is the bit shifted out. -/
def Obligations.ShiftsByOne : Prop :=
  EncodedBy 0xF00F 0x8006 allModes (fun w => .shr (regOf (fieldX w)) (regOf (fieldY w))) ∧
  EncodedBy 0xF00F 0x800E allModes (fun w => .shl (regOf (fieldX w)) (regOf (fieldY w))) ∧
  ∀ (x y : Reg) (s : State) (source : Nat),
    source = (if s.quirks.shiftUsesVY = true then (s.reg y).toNat else (s.reg x).toNat) →
    SetsRegisters (.shr x y) s (fun r =>
      if r = 15 then source % 2 else if r = x then source / 2 else (s.reg r).toNat) ∧
    SetsRegisters (.shl x y) s (fun r =>
      if r = 15 then source / 128 else if r = x then source * 2 % 256 else (s.reg r).toNat)

/-- R161: V[X] becomes KK masked by some byte, which nothing constrains (log 6); only V[X] changes (and the model's own count
of draws). -/
def Obligations.RandomByteIsMasked : Prop :=
  EncodedBy 0xF000 0xC000 allModes (fun w => .rnd (regOf (fieldX w)) (fieldKK w)) ∧
  ∀ (x : Reg) (kk : Byte) (s : State), ∃ t, ∃ b : Byte, exec (.rnd x kk) s = .next t ∧
    (∀ r, t.reg r = if r = x then b &&& kk else s.reg r) ∧ t = { s with v := t.v, draws := t.draws }

/-! ## Address register, loads and stores, 42_index_memory.md -/

/-- R180, R182: load I, add to I modulo 4096; VF is not written. -/
def Obligations.AddressRegisterLoadAndAdd : Prop :=
  EncodedBy 0xF000 0xA000 allModes (fun w => .ldI (fieldNNN w)) ∧
  EncodedBy 0xF0FF 0xF01E allModes (fun w => .addI (regOf (fieldX w))) ∧
  ∀ (nnn : Addr12) (x : Reg) (s : State),
    (∃ t, exec (.ldI nnn) s = .next t ∧ t.I.toNat = nnn.toNat ∧ t = { s with I := t.I }) ∧
    (∃ t, exec (.addI x) s = .next t ∧ t.I.toNat = (s.I.toNat + (s.reg x).toNat) % 0x1000 ∧ t = { s with I := t.I })

/-- R181: the long load of I, as an instruction and as a step; pc ends past its four bytes, and the top 4 bits of the second
word are dropped. Outside XOCHIP mode its first word is unknown. (Its fault: FetchFaultsBeyondMemory.) -/
def Obligations.LongAddressLoad : Prop :=
  (∀ m, m ≠ .xochip → Unknown m 0xF000) ∧
  ∀ s : State, s.mode = .xochip →
    (∀ nnnn : Word, ∃ t, exec (.ldILong nnnn) s = .next t ∧ t.I.toNat = nnnn.toNat % 0x1000 ∧ t.pc = s.pc + 2 ∧
      t = { s with I := t.I, pc := t.pc }) ∧
    (s.pc.toNat ≤ 0xFFC → s.wordAt s.pc.toNat = 0xF000 →
      ∃ t, instrStep s = .next t ∧ t.I.toNat = (s.wordAt (s.pc.toNat + 2)).toNat % 0x1000 ∧
        t.pc.toNat = s.pc.toNat + 4 ∧ t = { s with I := t.I, pc := t.pc })

/-- R183, R184, 20 R76: I at the small glyph of a digit up to 0xF, at the large glyph of a digit up to 9; a larger digit
faults. (The rules' clause that I then stays is withdrawn by 60 R273. The bases are decision D6.) -/
def Obligations.GlyphAddresses : Prop :=
  EncodedBy 0xF0FF 0xF029 allModes (fun w => .ldF (regOf (fieldX w))) ∧
  EncodedBy 0xF0FF 0xF030 schipModes (fun w => .ldHF (regOf (fieldX w))) ∧
  ∀ (x : Reg) (s : State),
    ((s.reg x).toNat ≤ 0xF →
      ∃ t, exec (.ldF x) s = .next t ∧ t.I.toNat = 5 * (s.reg x).toNat ∧ t = { s with I := t.I }) ∧
    (0xF < (s.reg x).toNat →
      Faults (exec (.ldF x) s) (.font (s.reg x) .standard) (s.pc - 2) (Instr.ldF x).firstWord) ∧
    (s.mode ≠ .chip8 → (s.reg x).toNat ≤ 9 →
      ∃ t, exec (.ldHF x) s = .next t ∧ t.I.toNat = 0x050 + 10 * (s.reg x).toNat ∧ t = { s with I := t.I }) ∧
    (s.mode ≠ .chip8 → 9 < (s.reg x).toNat →
      Faults (exec (.ldHF x) s) (.font (s.reg x) .extended) (s.pc - 2) (Instr.ldHF x).firstWord)

/-- R185: hundreds, tens and ones at I, I + 1, I + 2, every other byte as before; a fault at the first address that is
protected or does not exist. -/
def Obligations.DecimalDigitsAreStored : Prop :=
  EncodedBy 0xF0FF 0xF033 allModes (fun w => .bcd (regOf (fieldX w))) ∧
  ∀ (x : Reg) (s : State),
    (s.mem.wf = true → 0x200 ≤ s.I.toNat → s.I.toNat + 2 ≤ 0xFFF →
      ∃ t, exec (.bcd x) s = .next t ∧
        (t.mem.get s.I.toNat).toNat = (s.reg x).toNat / 100 ∧
        (t.mem.get (s.I.toNat + 1)).toNat = (s.reg x).toNat / 10 % 10 ∧
        (t.mem.get (s.I.toNat + 2)).toNat = (s.reg x).toNat % 10 ∧
        (∀ a, a < s.I.toNat ∨ s.I.toNat + 2 < a → t.mem.get a = s.mem.get a) ∧ t = { s with mem := t.mem }) ∧
    (s.I.toNat < 0x200 → Faults (exec (.bcd x) s) (.memWrite s.I.toNat) (s.pc - 2) (Instr.bcd x).firstWord) ∧
    (0xFFF < s.I.toNat + 2 →
      Faults (exec (.bcd x) s) (.memWrite (max s.I.toNat 0x1000)) (s.pc - 2) (Instr.bcd x).firstWord)

/-- R186: V[0] to V[X] at I upward, every other byte as before, I moved by X + 1 under the quirk; a fault at the first address
that is protected or does not exist. (The rule's clause that I then stays is withdrawn by 60 R273.) -/
def Obligations.BulkStore : Prop :=
  EncodedBy 0xF0FF 0xF055 allModes (fun w => .storeRegs (regOf (fieldX w))) ∧
  ∀ (x : Reg) (s : State),
    (s.mem.wf = true → 0x200 ≤ s.I.toNat → s.I.toNat + x.val ≤ 0xFFF →
      ∃ t, exec (.storeRegs x) s = .next t ∧
        (∀ k : Reg, k ≤ x → t.mem.get (s.I.toNat + k.val) = s.reg k) ∧
        (∀ a, a < s.I.toNat ∨ s.I.toNat + x.val < a → t.mem.get a = s.mem.get a) ∧
        t.I.toNat = (if s.quirks.memIncrementsI = true then (s.I.toNat + x.val + 1) % 0x1000 else s.I.toNat) ∧
        t = { s with mem := t.mem, I := t.I }) ∧
    (s.I.toNat < 0x200 →
      Faults (exec (.storeRegs x) s) (.memWrite s.I.toNat) (s.pc - 2) (Instr.storeRegs x).firstWord) ∧
    (0xFFF < s.I.toNat + x.val →
      Faults (exec (.storeRegs x) s) (.memWrite (max s.I.toNat 0x1000)) (s.pc - 2) (Instr.storeRegs x).firstWord)

/-- R187: V[0] to V[X] from I upward, the registers above X as before, I moved by X + 1 under the quirk; a fault at the first
address above 0xFFF; memory as before. -/
def Obligations.BulkLoad : Prop :=
  EncodedBy 0xF0FF 0xF065 allModes (fun w => .loadRegs (regOf (fieldX w))) ∧
  ∀ (x : Reg) (s : State),
    (s.I.toNat + x.val ≤ 0xFFF →
      ∃ t, exec (.loadRegs x) s = .next t ∧
        (∀ r : Reg, t.reg r = if r ≤ x then s.mem.get (s.I.toNat + r.val) else s.reg r) ∧
        t.I.toNat = (if s.quirks.memIncrementsI = true then (s.I.toNat + x.val + 1) % 0x1000 else s.I.toNat) ∧
        t = { s with v := t.v, I := t.I }) ∧
    (0xFFF < s.I.toNat + x.val →
      Faults (exec (.loadRegs x) s) (.memRead (max s.I.toNat 0x1000)) (s.pc - 2) (Instr.loadRegs x).firstWord)

/-- R188: the registers from X toward Y at I upward, V[X] at I, every other byte as before, I unchanged; a fault at the first
address that is protected or does not exist. -/
def Obligations.RangeStore : Prop :=
  EncodedBy 0xF00F 0x5002 xochipModes (fun w => .storeRange (regOf (fieldX w)) (regOf (fieldY w))) ∧
  ∀ (x y : Reg) (s : State) (d : Nat), s.mode = .xochip → d = max x.val y.val - min x.val y.val →
    (s.mem.wf = true → 0x200 ≤ s.I.toNat → s.I.toNat + d ≤ 0xFFF →
      ∃ t, exec (.storeRange x y) s = .next t ∧
        (∀ (r : Reg) (k : Nat), k ≤ d → (if x ≤ y then r.val = x.val + k else r.val + k = x.val) →
          t.mem.get (s.I.toNat + k) = s.reg r) ∧
        (∀ a, a < s.I.toNat ∨ s.I.toNat + d < a → t.mem.get a = s.mem.get a) ∧ t = { s with mem := t.mem }) ∧
    (s.I.toNat < 0x200 →
      Faults (exec (.storeRange x y) s) (.memWrite s.I.toNat) (s.pc - 2) (Instr.storeRange x y).firstWord) ∧
    (0xFFF < s.I.toNat + d →
      Faults (exec (.storeRange x y) s) (.memWrite (max s.I.toNat 0x1000)) (s.pc - 2)
        (Instr.storeRange x y).firstWord)

/-- R189: the registers from X toward Y from I upward, the others as before, I and memory unchanged; a fault at the first
address above 0xFFF. -/
def Obligations.RangeLoad : Prop :=
  EncodedBy 0xF00F 0x5003 xochipModes (fun w => .loadRange (regOf (fieldX w)) (regOf (fieldY w))) ∧
  ∀ (x y : Reg) (s : State) (d : Nat), s.mode = .xochip → d = max x.val y.val - min x.val y.val →
    (s.I.toNat + d ≤ 0xFFF →
      ∃ t, exec (.loadRange x y) s = .next t ∧
        (∀ (r : Reg) (k : Nat), k ≤ d → (if x ≤ y then r.val = x.val + k else r.val + k = x.val) →
          t.reg r = s.mem.get (s.I.toNat + k)) ∧
        (∀ r : Reg, r < min x y ∨ max x y < r → t.reg r = s.reg r) ∧ t = { s with v := t.v }) ∧
    (0xFFF < s.I.toNat + d →
      Faults (exec (.loadRange x y) s) (.memRead (max s.I.toNat 0x1000)) (s.pc - 2) (Instr.loadRange x y).firstWord)

/-- R190, R191, 20 R77: the persistent flag store and the registers up to X, the rest of each as before; X above 7 faults, in
SCHIP mode for the count, in XOCHIP mode for the index 8. (What the rules say is moved before that fault is withdrawn by 60
R273.) -/
def Obligations.FlagStoreTransfers : Prop :=
  EncodedBy 0xF0FF 0xF075 schipModes (fun w => .storeRpl (regOf (fieldX w))) ∧
  EncodedBy 0xF0FF 0xF085 schipModes (fun w => .loadRpl (regOf (fieldX w))) ∧
  ∀ (x : Reg) (s : State), s.mode ≠ .chip8 →
    (x.val ≤ 7 →
      (∃ t, exec (.storeRpl x) s = .next t ∧
        (∀ (k : Fin 8) (r : Reg), r.val = k.val → t.rpl[k] = if r ≤ x then s.reg r else s.rpl[k]) ∧
        t = { s with rpl := t.rpl }) ∧
      (∃ t, exec (.loadRpl x) s = .next t ∧
        (∀ (k : Fin 8) (r : Reg), r.val = k.val → r ≤ x → t.reg r = s.rpl[k]) ∧
        (∀ r : Reg, x < r → t.reg r = s.reg r) ∧ t = { s with v := t.v })) ∧
    (7 < x.val → s.mode = .schip →
      Faults (exec (.storeRpl x) s) (.rplCount x) (s.pc - 2) (Instr.storeRpl x).firstWord ∧
      Faults (exec (.loadRpl x) s) (.rplCount x) (s.pc - 2) (Instr.loadRpl x).firstWord) ∧
    (7 < x.val → s.mode = .xochip →
      Faults (exec (.storeRpl x) s) (.rplIndex 8) (s.pc - 2) (Instr.storeRpl x).firstWord ∧
      Faults (exec (.loadRpl x) s) (.rplIndex 8) (s.pc - 2) (Instr.loadRpl x).firstWord)

/-- R186's round trip (§8 item 8): what `Fx55` stored, `Fx65` with I set back loads into any register file. -/
def Obligations.StoreThenLoadRestores : Prop :=
  ∀ (x : Reg) (s : State) (v : Vector Byte 16), s.mem.wf = true → 0x200 ≤ s.I.toNat → s.I.toNat + x.val ≤ 0xFFF →
    ∃ t u, exec (.storeRegs x) s = .next t ∧ exec (.loadRegs x) { t with v := v, I := s.I } = .next u ∧
      ∀ r : Reg, u.reg r = if r ≤ x then s.reg r else v[r]

/-- 20 R73: a store into the very next instruction is what the next step executes (self-modifying code works at once). -/
def Obligations.StoredWordIsFetchedNext : Prop :=
  ∀ (s : State) (i : Instr), s.mem.wf = true → s.run = .running → s.ipf ≠ 0 → 0x200 ≤ s.pc.toNat → s.pc.toNat ≤ 0xFFE →
    s.I = s.pc → Decodes s.mode (wordOf (s.reg 0) (s.reg 1)) i →
    ∃ t, exec (.storeRegs 1) s = .next t ∧ instrStep t = exec i { t with pc := t.pc + 2 }

/-! ## Display, 43_display.md -/

/-- R212, R213: a drawn sprite flips exactly the pixels that its set bits cover, inside the active area; the result reports a
collision exactly when one of these was set. -/
def Obligations.SpriteFlipsWhatItCovers : Prop :=
  ∀ (clip : Bool) (w h : Nat) (x y : Byte) (rows : List (List Bool)) (p : Plane),
    16 ≤ w → w ≤ 128 → 16 ≤ h → h ≤ 64 → rows.length ≤ 16 → (∀ row ∈ rows, row.length ≤ 16) →
    (∀ px py, px < w → py < h →
      (Covers clip w h (x.toNat % w) (y.toNat % h) rows px py →
        (drawSprite clip w h x y rows p).1.pixel px py = !p.pixel px py) ∧
      (¬ Covers clip w h (x.toNat % w) (y.toNat % h) rows px py →
        (drawSprite clip w h x y rows p).1.pixel px py = p.pixel px py)) ∧
    (∀ px py, w ≤ px ∨ h ≤ py → (drawSprite clip w h x y rows p).1.pixel px py = p.pixel px py) ∧
    ((drawSprite clip w h x y rows p).2 = true ↔
      ∃ px py, px < w ∧ py < h ∧ Covers clip w h (x.toNat % w) (y.toNat % h) rows px py ∧ p.pixel px py = true)

/-- R212's second example (§8 item 5), for any sprite and plane: drawing twice restores the plane, and the second draw reports
a collision exactly when it covers a pixel that was clear. -/
def Obligations.DrawingTwiceRestores : Prop :=
  ∀ (clip : Bool) (w h : Nat) (x y : Byte) (rows : List (List Bool)) (p : Plane),
    16 ≤ w → w ≤ 128 → 16 ≤ h → h ≤ 64 → rows.length ≤ 16 → (∀ row ∈ rows, row.length ≤ 16) →
    (drawSprite clip w h x y rows (drawSprite clip w h x y rows p).1).1 = p ∧
    ((drawSprite clip w h x y rows (drawSprite clip w h x y rows p).1).2 = true ↔
      ∃ px py, px < w ∧ py < h ∧ Covers clip w h (x.toNat % w) (y.toNat % h) rows px py ∧ p.pixel px py = false)

/-- R211, R214: the sprite each selected plane is given, where its bytes lie, where it is drawn, and VF; a fault at the first
sprite byte above 0xFFF. -/
def Obligations.DrawInstruction : Prop :=
  EncodedBy 0xF000 0xD000 allModes (fun w => .drw (regOf (fieldX w)) (regOf (fieldY w)) (fieldN w)) ∧
  ∀ (x y : Reg) (n : Nibble) (s : State) (big : Bool) (size planes : Nat) (rowsAt : Nat → List (List Bool))
    (draw : Plane → Nat → Plane × Bool),
    big = (s.hires && n == 0) → size = (if big then 32 else n.toNat) → planes = (if s.sel = .both then 2 else 1) →
    (∀ a, rowsAt a =
      if big then (List.range 16).map fun r => (List.range 16).map fun c => (s.wordAt (a + 2 * r)).getLsbD (15 - c)
      else (List.range n.toNat).map fun r => (List.range 8).map fun c => (s.mem.get (a + r)).getLsbD (7 - c)) →
    (∀ p a, draw p a = drawSprite s.quirks.clipSprites (if s.hires then 128 else 64) (if s.hires then 64 else 32)
      (s.reg x) (s.reg y) (rowsAt a) p) →
    (size = 0 ∨ s.I.toNat + planes * size ≤ 0x1000 →
      ∃ t, exec (.drw x y n) s = .next t ∧
        t.p1 = (if s.sel = .second then s.p1 else (draw s.p1 s.I.toNat).1) ∧
        t.p2 = (match s.sel with
          | .first => s.p2
          | .second => (draw s.p2 s.I.toNat).1
          | .both => (draw s.p2 (s.I.toNat + size)).1) ∧
        (t.reg 15).toNat = (if (match s.sel with
          | .first => (draw s.p1 s.I.toNat).2
          | .second => (draw s.p2 s.I.toNat).2
          | .both => (draw s.p1 s.I.toNat).2 || (draw s.p2 (s.I.toNat + size)).2) then 1 else 0) ∧
        (∀ r : Reg, r ≠ 15 → t.reg r = s.reg r) ∧ t = { s with v := t.v, p1 := t.p1, p2 := t.p2 }) ∧
    (size ≠ 0 → 0x1000 < s.I.toNat + planes * size →
      Faults (exec (.drw x y n) s) (.memRead (max s.I.toNat 0x1000)) (s.pc - 2) (Instr.drw x y n).firstWord)

/-- R215, R221, R222: CLS clears the selected planes and nothing else; LOW and HIGH clear both planes whatever is selected and
set the resolution. -/
def Obligations.ClearingInstructions : Prop :=
  EncodedBy 0xFFFF 0x00E0 allModes (fun _ => .cls) ∧
  EncodedBy 0xFFFF 0x00FE schipModes (fun _ => .low) ∧
  EncodedBy 0xFFFF 0x00FF schipModes (fun _ => .high) ∧
  ∀ s : State,
    (∃ t, exec .cls s = .next t ∧
      (∀ x y, t.p1.pixel x y = (if s.sel = .second then s.p1.pixel x y else false) ∧
        t.p2.pixel x y = (if s.sel = .first then s.p2.pixel x y else false)) ∧
      t = { s with p1 := t.p1, p2 := t.p2 }) ∧
    (s.mode ≠ .chip8 →
      (∃ t, exec .low s = .next t ∧ t.hires = false ∧ (∀ x y, t.p1.pixel x y = false ∧ t.p2.pixel x y = false) ∧
        t = { s with hires := t.hires, p1 := t.p1, p2 := t.p2 }) ∧
      (∃ t, exec .high s = .next t ∧ t.hires = true ∧ (∀ x y, t.p1.pixel x y = false ∧ t.p2.pixel x y = false) ∧
        t = { s with hires := t.hires, p1 := t.p1, p2 := t.p2 }))

/-- R216 to R220: each scroll, pixel by pixel over the active area of the selected planes; nothing else changes. -/
def Obligations.ScrollInstructions : Prop :=
  EncodedBy 0xFFF0 0x00C0 schipModes (fun w => .scd (fieldN w)) ∧
  EncodedBy 0xFFF0 0x00D0 xochipModes (fun w => .scu (fieldN w)) ∧
  EncodedBy 0xFFFF 0x00FB schipModes (fun _ => .scr) ∧
  EncodedBy 0xFFFF 0x00FC schipModes (fun _ => .scl) ∧
  ∀ (n : Nibble) (s : State), s.mode ≠ .chip8 →
    (∃ t, exec (.scd n) s = .next t ∧
      SelectedBecome (fun P x y => if n.toNat ≤ y then P x (y - n.toNat) else false) s t) ∧
    (s.mode = .xochip → ∃ t, exec (.scu n) s = .next t ∧
      SelectedBecome (fun P x y => if y + n.toNat < s.height then P x (y + n.toNat) else false) s t) ∧
    (∃ t, exec .scr s = .next t ∧ SelectedBecome (fun P x y => if 4 ≤ x then P (x - 4) y else false) s t) ∧
    (∃ t, exec .scl s = .next t ∧ SelectedBecome (fun P x y => if x + 4 < s.width then P (x + 4) y else false) s t)

/-- R223: the masks 1, 2, 3 select, 0 changes nothing, a larger one faults. -/
def Obligations.PlaneSelection : Prop :=
  EncodedBy 0xF0FF 0xF001 xochipModes (fun w => .plane (fieldX w)) ∧
  ∀ (mask : Nibble) (s : State), s.mode = .xochip →
    (mask.toNat = 0 → exec (.plane mask) s = .next s) ∧
    (mask.toNat = 1 → exec (.plane mask) s = .next { s with sel := .first }) ∧
    (mask.toNat = 2 → exec (.plane mask) s = .next { s with sel := .second }) ∧
    (mask.toNat = 3 → exec (.plane mask) s = .next { s with sel := .both }) ∧
    (3 < mask.toNat → Faults (exec (.plane mask) s) (.planeMask mask) (s.pc - 2) (Instr.plane mask).firstWord)

/-! ## Timers, keypad, audio, 44_timers_keys_audio.md -/

/-- R250 to R252, R257: reading and setting the timers, setting the pitch; each changes the one element. -/
def Obligations.TimerAndPitchRegisters : Prop :=
  EncodedBy 0xF0FF 0xF007 allModes (fun w => .getDelay (regOf (fieldX w))) ∧
  EncodedBy 0xF0FF 0xF015 allModes (fun w => .setDelay (regOf (fieldX w))) ∧
  EncodedBy 0xF0FF 0xF018 allModes (fun w => .setSound (regOf (fieldX w))) ∧
  EncodedBy 0xF0FF 0xF03A xochipModes (fun w => .pitch (regOf (fieldX w))) ∧
  ∀ (x : Reg) (s : State),
    SetsRegisters (.getDelay x) s (fun r => if r = x then s.dt.toNat else (s.reg r).toNat) ∧
    exec (.setDelay x) s = .next { s with dt := s.reg x } ∧
    exec (.setSound x) s = .next { s with st := s.reg x } ∧
    (s.mode = .xochip →
      ∃ t, exec (.pitch x) s = .next t ∧ t.pitch.toNat = (s.reg x).toNat ∧ t = { s with pitch := t.pitch })

/-- R253, R254, R122: a register above 0xF faults before anything is read; otherwise the key's state decides the skip. -/
def Obligations.KeySkips : Prop :=
  EncodedBy 0xF0FF 0xE09E allModes (fun w => .skp (regOf (fieldX w))) ∧
  EncodedBy 0xF0FF 0xE0A1 allModes (fun w => .sknp (regOf (fieldX w))) ∧
  ∀ (x : Reg) (s : State),
    (0xF < (s.reg x).toNat →
      Faults (exec (.skp x) s) (.keyIndex (s.reg x)) (s.pc - 2) (Instr.skp x).firstWord ∧
      Faults (exec (.sknp x) s) (.keyIndex (s.reg x)) (s.pc - 2) (Instr.sknp x).firstWord) ∧
    (∀ k : Fin 16, (s.reg x).toNat = k.val →
      SkipsWhen (s.keys[k] = true) (.skp x) s ∧ SkipsWhen (s.keys[k] = false) (.sknp x) s)

/-- R255: with no key down pc goes back to the instruction and nothing else changes; with a key down V[X] becomes the index of
some pressed key (which one, among several, is free: log 7; only the model's own count of draws changes beside V[X]). -/
def Obligations.WaitForKey : Prop :=
  EncodedBy 0xF0FF 0xF00A allModes (fun w => .waitKey (regOf (fieldX w))) ∧
  ∀ (x : Reg) (s : State),
    ((∀ k : Fin 16, s.keys[k] = false) → exec (.waitKey x) s = .next { s with pc := s.pc - 2 }) ∧
    ((∃ k : Fin 16, s.keys[k] = true) →
      ∃ t, ∃ k : Fin 16, exec (.waitKey x) s = .next t ∧ s.keys[k] = true ∧
        (∀ r, (t.reg r).toNat = if r = x then k.val else (s.reg r).toNat) ∧
        t = { s with v := t.v, draws := t.draws })

/-- R256: the sixteen bytes at I become PATTERN, I and memory stay; a fault at the first address above 0xFFF. (The rule's
clause that PATTERN then stays is withdrawn by 60 R273.) -/
def Obligations.AudioPattern : Prop :=
  EncodedBy 0xFFFF 0xF002 xochipModes (fun _ => .audio) ∧
  ∀ s : State, s.mode = .xochip →
    (s.I.toNat + 15 ≤ 0xFFF →
      ∃ t, exec .audio s = .next t ∧ (∀ k : Fin 16, t.pattern[k] = s.mem.get (s.I.toNat + k.val)) ∧
        t = { s with pattern := t.pattern }) ∧
    (0xFFF < s.I.toNat + 15 → Faults (exec .audio s) (.memRead (max s.I.toNat 0x1000)) (s.pc - 2) 0xF002)

/-- 70 R318: ST = 1, as an instruction leaves it, is never seen non-zero by the host: after the step that this instruction is
part of, either the host is shown nothing, or the tick has made ST 0 and the audio gate is closed. -/
def Obligations.SoundTimerOfOneIsNeverSeen : Prop :=
  ∀ s u : State, s.run = .running → s.ipf ≠ 0 → instrStep s = .next u → u.st.toNat = 1 →
    ∃ t, step s = .next t ∧
      ∀ v, hostView t = .ok v → t.st.toNat = 0 ∧ v.soundTimer.toNat = 0 ∧ audioGate v = false
end

