-- ==== Sys2Proof/Laws/Decode.lean ====
section
/-!
SUPPORT. Fields of packed words, words and their bytes, masks of packed words.
-/
namespace Sys2Proof

/-! ## Words and bytes -/

@[simp] theorem wordOf_bytes (w : Word) : wordOf (highByte w) (lowByte w) = w := by
  change (w.extractLsb' 8 8 ++ w.extractLsb' 0 8 : BitVec (8 + 8)) = w
  refine BitVec.eq_of_getLsbD_eq fun k hk => ?_
  rw [BitVec.getLsbD_append, BitVec.getLsbD_extractLsb', BitVec.getLsbD_extractLsb']
  by_cases h : k < 8
  · simp [h]
  · simp [h, show k - 8 < 8 by omega, show 8 + (k - 8) = k by omega]

@[simp] theorem highByte_wordOf (hi lo : Byte) : highByte (wordOf hi lo) = hi :=
  BitVec.extractLsb'_append_eq_left

@[simp] theorem lowByte_wordOf (hi lo : Byte) : lowByte (wordOf hi lo) = lo :=
  BitVec.extractLsb'_append_eq_right

@[simp] theorem regOf_fieldOf (r : Reg) : regOf (fieldOf r) = r := rfl

@[simp] theorem fieldOf_regOf (f : Nibble) : fieldOf (regOf f) = f := rfl

/-! ## Fields of packed words -/

section
variable (op x y n : Nibble) (r : Reg) (kk : Byte) (nnn : Addr12)

@[simp] theorem fieldOP_packNibbles : fieldOP (packNibbles op x y n) = op := by
  change BitVec.extractLsb' 12 4 (op ++ x ++ y ++ n : BitVec (4 + 4 + 4 + 4)) = op
  rw [BitVec.extractLsb'_append_eq_of_le (by decide), BitVec.extractLsb'_append_eq_of_le (by decide)]
  exact BitVec.extractLsb'_append_eq_left

@[simp] theorem fieldX_packNibbles : fieldX (packNibbles op x y n) = x := by
  change BitVec.extractLsb' 8 4 (op ++ x ++ y ++ n : BitVec (4 + 4 + 4 + 4)) = x
  rw [BitVec.extractLsb'_append_eq_of_le (by decide), BitVec.extractLsb'_append_eq_of_le (by decide)]
  exact BitVec.extractLsb'_append_eq_right

@[simp] theorem fieldY_packNibbles : fieldY (packNibbles op x y n) = y := by
  change BitVec.extractLsb' 4 4 (op ++ x ++ y ++ n : BitVec (4 + 4 + 4 + 4)) = y
  rw [BitVec.extractLsb'_append_eq_of_le (by decide)]
  exact BitVec.extractLsb'_append_eq_right

@[simp] theorem fieldN_packNibbles : fieldN (packNibbles op x y n) = n := by
  change BitVec.extractLsb' 0 4 (op ++ x ++ y ++ n : BitVec (4 + 4 + 4 + 4)) = n
  exact BitVec.extractLsb'_append_eq_right

@[simp] theorem fieldKK_packNibbles : fieldKK (packNibbles op x y n) = y ++ n := by
  change BitVec.extractLsb' 0 8 (op ++ x ++ y ++ n : BitVec (4 + 4 + 4 + 4)) = y ++ n
  have e : (op ++ x ++ y ++ n : BitVec (4 + 4 + 4 + 4)) = (op ++ x ++ (y ++ n) : BitVec (4 + 4 + 8)) := by
    rw [BitVec.append_assoc]
    rfl
  rw [e]
  exact BitVec.extractLsb'_append_eq_right

@[simp] theorem fieldOP_packXKK : fieldOP (packXKK op r kk) = op := by
  change BitVec.extractLsb' 12 4 (op ++ fieldOf r ++ kk : BitVec (4 + 4 + 8)) = op
  rw [BitVec.extractLsb'_append_eq_of_le (by decide)]
  exact BitVec.extractLsb'_append_eq_left

@[simp] theorem fieldX_packXKK : fieldX (packXKK op r kk) = fieldOf r := by
  change BitVec.extractLsb' 8 4 (op ++ fieldOf r ++ kk : BitVec (4 + 4 + 8)) = fieldOf r
  rw [BitVec.extractLsb'_append_eq_of_le (by decide)]
  exact BitVec.extractLsb'_append_eq_right

@[simp] theorem fieldKK_packXKK : fieldKK (packXKK op r kk) = kk := by
  change BitVec.extractLsb' 0 8 (op ++ fieldOf r ++ kk : BitVec (4 + 4 + 8)) = kk
  exact BitVec.extractLsb'_append_eq_right

@[simp] theorem fieldOP_packNNN : fieldOP (packNNN op nnn) = op := by
  change BitVec.extractLsb' 12 4 (op ++ nnn : BitVec (4 + 12)) = op
  exact BitVec.extractLsb'_append_eq_left

@[simp] theorem fieldNNN_packNNN : fieldNNN (packNNN op nnn) = nnn := by
  change BitVec.extractLsb' 0 12 (op ++ nnn : BitVec (4 + 12)) = nnn
  exact BitVec.extractLsb'_append_eq_right

end

/-! ## Masks of packed words -/

theorem nibble_and_ones (v : Nibble) : v &&& 0xF = v := BitVec.and_allOnes

theorem nibble_and_zero (v : Nibble) : v &&& 0 = 0 := BitVec.and_zero

theorem packNibbles_and (op x y n a b c d : Nibble) :
    packNibbles op x y n &&& packNibbles a b c d = packNibbles (op &&& a) (x &&& b) (y &&& c) (n &&& d) := by
  change (op ++ x ++ y ++ n : BitVec (4 + 4 + 4 + 4)) &&& (a ++ b ++ c ++ d) = _
  simp only [BitVec.and_append]
  rfl

theorem packXKK_and_F000 (op : Nibble) (r : Reg) (kk : Byte) : packXKK op r kk &&& 0xF000 = packXKK op 0 0 := by
  have mask : (0xF000 : Word) = 0xF#4 ++ 0#4 ++ 0#8 := by decide
  rw [packXKK, mask, BitVec.and_append, BitVec.and_append, BitVec.and_zero, BitVec.and_zero,
    show op &&& 0xF#4 = op from BitVec.and_allOnes]
  rfl

theorem packXKK_and_F0FF (op : Nibble) (r : Reg) (kk : Byte) : packXKK op r kk &&& 0xF0FF = packXKK op 0 kk := by
  have mask : (0xF0FF : Word) = 0xF#4 ++ 0#4 ++ 0xFF#8 := by decide
  rw [packXKK, mask, BitVec.and_append, BitVec.and_append, BitVec.and_zero,
    show op &&& 0xF#4 = op from BitVec.and_allOnes, show kk &&& 0xFF#8 = kk from BitVec.and_allOnes]
  rfl

theorem packNNN_and_F000 (op : Nibble) (nnn : Addr12) : packNNN op nnn &&& 0xF000 = packNNN op 0 := by
  have mask : (0xF000 : Word) = 0xF#4 ++ 0#12 := by decide
  rw [packNNN, mask, BitVec.and_append, BitVec.and_zero, show op &&& 0xF#4 = op from BitVec.and_allOnes]
  rfl

theorem packNibbles_and_F00F (op x y n : Nibble) : packNibbles op x y n &&& 0xF00F = packNibbles op 0 0 n := by
  have mask : (0xF00F : Word) = packNibbles 0xF 0 0 0xF := by decide
  simp only [mask, packNibbles_and, nibble_and_ones, nibble_and_zero]

theorem packNibbles_and_FFF0 (op x y n : Nibble) : packNibbles op x y n &&& 0xFFF0 = packNibbles op x y 0 := by
  have mask : (0xFFF0 : Word) = packNibbles 0xF 0xF 0xF 0 := by decide
  simp only [mask, packNibbles_and, nibble_and_ones, nibble_and_zero]

theorem packNibbles_and_F0FF (op x y n : Nibble) : packNibbles op x y n &&& 0xF0FF = packNibbles op 0 y n := by
  have mask : (0xF0FF : Word) = packNibbles 0xF 0 0xF 0xF := by decide
  simp only [mask, packNibbles_and, nibble_and_ones, nibble_and_zero]

theorem packNibbles_and_F000 (op x y n : Nibble) : packNibbles op x y n &&& 0xF000 = packNibbles op 0 0 0 := by
  have mask : (0xF000 : Word) = packNibbles 0xF 0 0 0 := by decide
  simp only [mask, packNibbles_and, nibble_and_ones, nibble_and_zero]

end Sys2Proof
end

