-- ==== Sys2Proof/Laws/PerInstr.lean ====
section
/-!
SUPPORT. Facts about every instruction as syntax, one lemma for each constructor.
-/
namespace Sys2Proof.Laws.Encoding

/-- The first word of an instruction has its row's pattern under its row's mask, and that row stands in the opcode map. -/
def Statement (i : Instr) : Prop := i.firstWord &&& i.row.mask = i.row.pattern ∧ i.row ∈ opcodeMap

theorem scd (n : Nibble) : Statement (.scd n) :=
  ⟨(packNibbles_and_FFF0 ..).trans rfl, by simp only [Instr.row]; decide⟩

theorem scu (n : Nibble) : Statement (.scu n) :=
  ⟨(packNibbles_and_FFF0 ..).trans rfl, by simp only [Instr.row]; decide⟩

theorem cls : Statement .cls :=
  ⟨rfl, by simp only [Instr.row]; decide⟩

theorem ret : Statement .ret :=
  ⟨rfl, by simp only [Instr.row]; decide⟩

theorem scr : Statement .scr :=
  ⟨rfl, by simp only [Instr.row]; decide⟩

theorem scl : Statement .scl :=
  ⟨rfl, by simp only [Instr.row]; decide⟩

theorem exit : Statement .exit :=
  ⟨rfl, by simp only [Instr.row]; decide⟩

theorem low : Statement .low :=
  ⟨rfl, by simp only [Instr.row]; decide⟩

theorem high : Statement .high :=
  ⟨rfl, by simp only [Instr.row]; decide⟩

theorem jp (nnn : Addr12) : Statement (.jp nnn) :=
  ⟨(packNNN_and_F000 ..).trans rfl, by simp only [Instr.row]; decide⟩

theorem call (nnn : Addr12) : Statement (.call nnn) :=
  ⟨(packNNN_and_F000 ..).trans rfl, by simp only [Instr.row]; decide⟩

theorem seImm (x : Reg) (kk : Byte) : Statement (.seImm x kk) :=
  ⟨(packXKK_and_F000 ..).trans rfl, by simp only [Instr.row]; decide⟩

theorem sneImm (x : Reg) (kk : Byte) : Statement (.sneImm x kk) :=
  ⟨(packXKK_and_F000 ..).trans rfl, by simp only [Instr.row]; decide⟩

theorem seReg (x y : Reg) : Statement (.seReg x y) :=
  ⟨(packNibbles_and_F00F ..).trans rfl, by simp only [Instr.row]; decide⟩

theorem storeRange (x y : Reg) : Statement (.storeRange x y) :=
  ⟨(packNibbles_and_F00F ..).trans rfl, by simp only [Instr.row]; decide⟩

theorem loadRange (x y : Reg) : Statement (.loadRange x y) :=
  ⟨(packNibbles_and_F00F ..).trans rfl, by simp only [Instr.row]; decide⟩

theorem ldImm (x : Reg) (kk : Byte) : Statement (.ldImm x kk) :=
  ⟨(packXKK_and_F000 ..).trans rfl, by simp only [Instr.row]; decide⟩

theorem addImm (x : Reg) (kk : Byte) : Statement (.addImm x kk) :=
  ⟨(packXKK_and_F000 ..).trans rfl, by simp only [Instr.row]; decide⟩

theorem ldReg (x y : Reg) : Statement (.ldReg x y) :=
  ⟨(packNibbles_and_F00F ..).trans rfl, by simp only [Instr.row]; decide⟩

theorem or (x y : Reg) : Statement (.or x y) :=
  ⟨(packNibbles_and_F00F ..).trans rfl, by simp only [Instr.row]; decide⟩

theorem and (x y : Reg) : Statement (.and x y) :=
  ⟨(packNibbles_and_F00F ..).trans rfl, by simp only [Instr.row]; decide⟩

theorem xor (x y : Reg) : Statement (.xor x y) :=
  ⟨(packNibbles_and_F00F ..).trans rfl, by simp only [Instr.row]; decide⟩

theorem add (x y : Reg) : Statement (.add x y) :=
  ⟨(packNibbles_and_F00F ..).trans rfl, by simp only [Instr.row]; decide⟩

theorem sub (x y : Reg) : Statement (.sub x y) :=
  ⟨(packNibbles_and_F00F ..).trans rfl, by simp only [Instr.row]; decide⟩

theorem shr (x y : Reg) : Statement (.shr x y) :=
  ⟨(packNibbles_and_F00F ..).trans rfl, by simp only [Instr.row]; decide⟩

theorem subn (x y : Reg) : Statement (.subn x y) :=
  ⟨(packNibbles_and_F00F ..).trans rfl, by simp only [Instr.row]; decide⟩

theorem shl (x y : Reg) : Statement (.shl x y) :=
  ⟨(packNibbles_and_F00F ..).trans rfl, by simp only [Instr.row]; decide⟩

theorem sneReg (x y : Reg) : Statement (.sneReg x y) :=
  ⟨(packNibbles_and_F00F ..).trans rfl, by simp only [Instr.row]; decide⟩

theorem ldI (nnn : Addr12) : Statement (.ldI nnn) :=
  ⟨(packNNN_and_F000 ..).trans rfl, by simp only [Instr.row]; decide⟩

theorem jpV0 (nnn : Addr12) : Statement (.jpV0 nnn) :=
  ⟨(packNNN_and_F000 ..).trans rfl, by simp only [Instr.row]; decide⟩

theorem rnd (x : Reg) (kk : Byte) : Statement (.rnd x kk) :=
  ⟨(packXKK_and_F000 ..).trans rfl, by simp only [Instr.row]; decide⟩

theorem drw (x y : Reg) (n : Nibble) : Statement (.drw x y n) :=
  ⟨(packNibbles_and_F000 ..).trans rfl, by simp only [Instr.row]; decide⟩

theorem skp (x : Reg) : Statement (.skp x) :=
  ⟨(packXKK_and_F0FF ..).trans rfl, by simp only [Instr.row]; decide⟩

theorem sknp (x : Reg) : Statement (.sknp x) :=
  ⟨(packXKK_and_F0FF ..).trans rfl, by simp only [Instr.row]; decide⟩

theorem ldILong (nnnn : Word) : Statement (.ldILong nnnn) :=
  ⟨show (0xF000 : Word) &&& 0xFFFF = 0xF000 by decide, by simp only [Instr.row]; decide⟩

theorem plane (mask : Nibble) : Statement (.plane mask) :=
  ⟨(packNibbles_and_F0FF ..).trans rfl, by simp only [Instr.row]; decide⟩

theorem audio : Statement .audio :=
  ⟨rfl, by simp only [Instr.row]; decide⟩

theorem getDelay (x : Reg) : Statement (.getDelay x) :=
  ⟨(packXKK_and_F0FF ..).trans rfl, by simp only [Instr.row]; decide⟩

theorem waitKey (x : Reg) : Statement (.waitKey x) :=
  ⟨(packXKK_and_F0FF ..).trans rfl, by simp only [Instr.row]; decide⟩

theorem setDelay (x : Reg) : Statement (.setDelay x) :=
  ⟨(packXKK_and_F0FF ..).trans rfl, by simp only [Instr.row]; decide⟩

theorem setSound (x : Reg) : Statement (.setSound x) :=
  ⟨(packXKK_and_F0FF ..).trans rfl, by simp only [Instr.row]; decide⟩

theorem addI (x : Reg) : Statement (.addI x) :=
  ⟨(packXKK_and_F0FF ..).trans rfl, by simp only [Instr.row]; decide⟩

theorem ldF (x : Reg) : Statement (.ldF x) :=
  ⟨(packXKK_and_F0FF ..).trans rfl, by simp only [Instr.row]; decide⟩

theorem ldHF (x : Reg) : Statement (.ldHF x) :=
  ⟨(packXKK_and_F0FF ..).trans rfl, by simp only [Instr.row]; decide⟩

theorem bcd (x : Reg) : Statement (.bcd x) :=
  ⟨(packXKK_and_F0FF ..).trans rfl, by simp only [Instr.row]; decide⟩

theorem pitch (x : Reg) : Statement (.pitch x) :=
  ⟨(packXKK_and_F0FF ..).trans rfl, by simp only [Instr.row]; decide⟩

theorem storeRegs (x : Reg) : Statement (.storeRegs x) :=
  ⟨(packXKK_and_F0FF ..).trans rfl, by simp only [Instr.row]; decide⟩

theorem loadRegs (x : Reg) : Statement (.loadRegs x) :=
  ⟨(packXKK_and_F0FF ..).trans rfl, by simp only [Instr.row]; decide⟩

theorem storeRpl (x : Reg) : Statement (.storeRpl x) :=
  ⟨(packXKK_and_F0FF ..).trans rfl, by simp only [Instr.row]; decide⟩

theorem loadRpl (x : Reg) : Statement (.loadRpl x) :=
  ⟨(packXKK_and_F0FF ..).trans rfl, by simp only [Instr.row]; decide⟩

end Sys2Proof.Laws.Encoding
end

