-- ==== Sys2Proof/Laws/Exec.lean ====
section
/-!
SUPPORT. One equation for each instruction: its dispatch and its pseudocode. Proofs cite these and never unfold `exec`.
-/
namespace Sys2Proof.Machine

/-! ### Machine/Control.lean -/

theorem exec_ret (s : State) : exec .ret s =
    dispatch .ret s (match s.pop with
    | .error f => .error f
    | .ok (a, t) => .ok (t.setPc a)) := rfl

theorem exec_jp (nnn : Addr12) (s : State) : exec (.jp nnn) s =
    dispatch (.jp nnn) s (.ok (s.setPc (nnn.setWidth 16))) := rfl

theorem exec_call (nnn : Addr12) (s : State) : exec (.call nnn) s =
    dispatch (.call nnn) s (match s.push s.pc with
    | .error f => .error f
    | .ok t => .ok (t.setPc (nnn.setWidth 16))) := rfl

theorem exec_seImm (x : Reg) (kk : Byte) (s : State) : exec (.seImm x kk) s =
    dispatch (.seImm x kk) s (s.skipIf (s.reg x == kk)) := rfl

theorem exec_sneImm (x : Reg) (kk : Byte) (s : State) : exec (.sneImm x kk) s =
    dispatch (.sneImm x kk) s (s.skipIf (s.reg x != kk)) := rfl

theorem exec_seReg (x y : Reg) (s : State) : exec (.seReg x y) s =
    dispatch (.seReg x y) s (s.skipIf (s.reg x == s.reg y)) := rfl

theorem exec_sneReg (x y : Reg) (s : State) : exec (.sneReg x y) s =
    dispatch (.sneReg x y) s (s.skipIf (s.reg x != s.reg y)) := rfl

theorem exec_jpV0 (nnn : Addr12) (s : State) : exec (.jpV0 nnn) s =
    dispatch (.jpV0 nnn) s (.ok (s.setPc (nnn.setWidth 16 + (s.jumpOffset nnn).setWidth 16))) := rfl

theorem exec_exit (s : State) : exec .exit s =
    dispatch .exit s (.ok (s.setRun .exited)) := rfl

/-! ### Machine/Alu.lean -/

theorem exec_ldImm (x : Reg) (kk : Byte) (s : State) : exec (.ldImm x kk) s =
    dispatch (.ldImm x kk) s (.ok (s.setReg x kk)) := rfl

theorem exec_addImm (x : Reg) (kk : Byte) (s : State) : exec (.addImm x kk) s =
    dispatch (.addImm x kk) s (.ok (s.setReg x (sumOf (s.reg x) kk))) := rfl

theorem exec_ldReg (x y : Reg) (s : State) : exec (.ldReg x y) s =
    dispatch (.ldReg x y) s (.ok (s.setReg x (s.reg y))) := rfl

theorem exec_or (x y : Reg) (s : State) : exec (.or x y) s =
    dispatch (.or x y) s (.ok (s.setLogic x (s.reg x ||| s.reg y))) := rfl

theorem exec_and (x y : Reg) (s : State) : exec (.and x y) s =
    dispatch (.and x y) s (.ok (s.setLogic x (s.reg x &&& s.reg y))) := rfl

theorem exec_xor (x y : Reg) (s : State) : exec (.xor x y) s =
    dispatch (.xor x y) s (.ok (s.setLogic x (s.reg x ^^^ s.reg y))) := rfl

theorem exec_add (x y : Reg) (s : State) : exec (.add x y) s =
    dispatch (.add x y) s (.ok (s.setResultFlag x (sumOf (s.reg x) (s.reg y)) (carryOf (s.reg x) (s.reg y)))) := rfl

theorem exec_sub (x y : Reg) (s : State) : exec (.sub x y) s =
    dispatch (.sub x y) s (.ok (s.setResultFlag x (diffOf (s.reg x) (s.reg y)) (noBorrowOf (s.reg x) (s.reg y)))) := rfl

theorem exec_shr (x y : Reg) (s : State) : exec (.shr x y) s =
    dispatch (.shr x y) s (.ok (s.setResultFlag x (shiftedRight (s.shiftSource x y)).1 (shiftedRight (s.shiftSource x y)).2)) := rfl

theorem exec_subn (x y : Reg) (s : State) : exec (.subn x y) s =
    dispatch (.subn x y) s (.ok (s.setResultFlag x (diffOf (s.reg y) (s.reg x)) (noBorrowOf (s.reg y) (s.reg x)))) := rfl

theorem exec_shl (x y : Reg) (s : State) : exec (.shl x y) s =
    dispatch (.shl x y) s (.ok (s.setResultFlag x (shiftedLeft (s.shiftSource x y)).1 (shiftedLeft (s.shiftSource x y)).2)) := rfl

theorem exec_rnd (x : Reg) (kk : Byte) (s : State) : exec (.rnd x kk) s =
    dispatch (.rnd x kk) s (.ok ((s.setReg x (Config.freeByte s.draws &&& kk)).drawn)) := rfl

/-! ### Machine/Index.lean -/

theorem exec_ldI (nnn : Addr12) (s : State) : exec (.ldI nnn) s =
    dispatch (.ldI nnn) s (.ok (s.setI nnn.toNat)) := rfl

theorem exec_ldILong (nnnn : Word) (s : State) : exec (.ldILong nnnn) s =
    dispatch (.ldILong nnnn) s (.ok ((s.setPc (s.pc + 2)).setI nnnn.toNat)) := rfl

theorem exec_addI (x : Reg) (s : State) : exec (.addI x) s =
    dispatch (.addI x) s (.ok (s.setI (s.I.toNat + (s.reg x).toNat))) := rfl

theorem exec_ldF (x : Reg) (s : State) : exec (.ldF x) s =
    dispatch (.ldF x) s (s.pointAtGlyph x .standard) := rfl

theorem exec_ldHF (x : Reg) (s : State) : exec (.ldHF x) s =
    dispatch (.ldHF x) s (s.pointAtGlyph x .extended) := rfl

theorem exec_bcd (x : Reg) (s : State) : exec (.bcd x) s =
    dispatch (.bcd x) s (s.storeAtI (bcdDigits (s.reg x))) := rfl

theorem exec_storeRegs (x : Reg) (s : State) : exec (.storeRegs x) s =
    dispatch (.storeRegs x) s (match s.storeAtI (s.regList (regRange 0 x)) with
    | .error f => .error f
    | .ok t => .ok (t.bumpI x)) := rfl

theorem exec_loadRegs (x : Reg) (s : State) : exec (.loadRegs x) s =
    dispatch (.loadRegs x) s (match s.loadFromI (regRange 0 x) with
    | .error f => .error f
    | .ok t => .ok (t.bumpI x)) := rfl

theorem exec_storeRange (x y : Reg) (s : State) : exec (.storeRange x y) s =
    dispatch (.storeRange x y) s (s.storeAtI (s.regList (regRange x y))) := rfl

theorem exec_loadRange (x y : Reg) (s : State) : exec (.loadRange x y) s =
    dispatch (.loadRange x y) s (s.loadFromI (regRange x y)) := rfl

theorem exec_storeRpl (x : Reg) (s : State) : exec (.storeRpl x) s =
    dispatch (.storeRpl x) s (match rplCountCheck s.mode x with
    | .error f => .error f
    | .ok _ =>
      match rplWriteAll s.rpl 0 (s.regList (regRange 0 x)) with
      | .error f => .error f
      | .ok r => .ok (s.setRpl r)) := rfl

theorem exec_loadRpl (x : Reg) (s : State) : exec (.loadRpl x) s =
    dispatch (.loadRpl x) s (match rplCountCheck s.mode x with
    | .error f => .error f
    | .ok _ =>
      match rplReadAll s.rpl 0 (x.val + 1) with
      | .error f => .error f
      | .ok bytes => .ok (s.setRegs ((regRange 0 x).zip bytes))) := rfl

/-! ### Machine/Display.lean -/

theorem exec_drw (x y : Reg) (n : Nibble) (s : State) : exec (.drw x y n) s =
    dispatch (.drw x y n) s (s.drawSelected x y n) := rfl

theorem exec_cls (s : State) : exec .cls s =
    dispatch .cls s (.ok (s.mapSelected fun _ => Plane.blank)) := rfl

theorem exec_scd (n : Nibble) (s : State) : exec (.scd n) s =
    dispatch (.scd n) s (.ok (s.mapSelected (scrollDown s.width s.height n.toNat))) := rfl

theorem exec_scu (n : Nibble) (s : State) : exec (.scu n) s =
    dispatch (.scu n) s (.ok (s.mapSelected (scrollUp s.width s.height n.toNat))) := rfl

theorem exec_scr (s : State) : exec .scr s =
    dispatch .scr s (.ok (s.mapSelected (scrollRight s.width s.height))) := rfl

theorem exec_scl (s : State) : exec .scl s =
    dispatch .scl s (.ok (s.mapSelected (scrollLeft s.width s.height))) := rfl

theorem exec_low (s : State) : exec .low s =
    dispatch .low s (.ok ((s.setHires false).setPlanes Plane.blank Plane.blank)) := rfl

theorem exec_high (s : State) : exec .high s =
    dispatch .high s (.ok ((s.setHires true).setPlanes Plane.blank Plane.blank)) := rfl

theorem exec_plane (mask : Nibble) (s : State) : exec (.plane mask) s =
    dispatch (.plane mask) s (s.selectPlanes mask) := rfl

/-! ### Machine/Io.lean -/

theorem exec_getDelay (x : Reg) (s : State) : exec (.getDelay x) s =
    dispatch (.getDelay x) s (.ok (s.setReg x s.dt)) := rfl

theorem exec_setDelay (x : Reg) (s : State) : exec (.setDelay x) s =
    dispatch (.setDelay x) s (.ok (s.setDt (s.reg x))) := rfl

theorem exec_setSound (x : Reg) (s : State) : exec (.setSound x) s =
    dispatch (.setSound x) s (.ok (s.setSt (s.reg x))) := rfl

theorem exec_skp (x : Reg) (s : State) : exec (.skp x) s =
    dispatch (.skp x) s (match s.keyOf (s.reg x) with
    | .error f => .error f
    | .ok down => s.skipIf down) := rfl

theorem exec_sknp (x : Reg) (s : State) : exec (.sknp x) s =
    dispatch (.sknp x) s (match s.keyOf (s.reg x) with
    | .error f => .error f
    | .ok down => s.skipIf (!down)) := rfl

theorem exec_waitKey (x : Reg) (s : State) : exec (.waitKey x) s =
    dispatch (.waitKey x) s (.ok (s.takeKey x)) := rfl

theorem exec_audio (s : State) : exec .audio s =
    dispatch .audio s (match memReadBytes s.mem (s.ea 0) 16 with
    | .error f => .error f
    | .ok bytes => .ok (s.setPattern (patternOf bytes))) := rfl

theorem exec_pitch (x : Reg) (s : State) : exec (.pitch x) s =
    dispatch (.pitch x) s (.ok (s.setPitch ((s.reg x).setWidth 16))) := rfl

end Sys2Proof.Machine
end

