-- ==== Sys2Proof/Laws/Memory.lean ====
section
/-!
SUPPORT. The laws of main memory: reading after setting, the canonical form and that every operation keeps it, and one
closed form for each primitive of 20_memory.md.
-/
namespace Sys2Proof.Machine

/-! ## Canonical form -/

theorem Memory.wf_iff {m : Memory} : m.wf = true ↔
    m.Pairwise (fun c d => c.1 < d.1) ∧ ∀ c ∈ m, c.1 ≤ Config.lastAddr ∧ c.2 ≠ Memory.unlisted c.1 := by
  simp [Memory.wf, List.pairwise_map]

theorem Memory.wf_nil : Memory.wf [] = true := by decide

theorem Memory.wf_cons {a : Nat} {v : Byte} {m : Memory} : Memory.wf ((a, v) :: m) = true ↔
    (∀ c ∈ m, a < c.1) ∧ (a ≤ Config.lastAddr ∧ v ≠ Memory.unlisted a) ∧ m.wf = true := by
  simp only [Memory.wf_iff, List.pairwise_cons, List.forall_mem_cons]
  tauto

theorem Memory.get_of_all_above {m : Memory} {a : Nat} (h : ∀ c ∈ m, a < c.1) : m.get a = Memory.unlisted a := by
  induction m with
  | nil => rfl
  | cons c m ih =>
    have hc : a < c.1 := h c (by simp)
    rw [Memory.get, if_neg (by omega), ih fun d hd => h d (by simp [hd])]

theorem Memory.get_put {m : Memory} {a : Nat} (h : ∀ c ∈ m, a < c.1) (v : Byte) (b : Nat) :
    (Memory.put a v m).get b = if b = a then v else m.get b := by
  unfold Memory.put
  split
  · split
    · subst b; rw [Memory.get_of_all_above h]; simp_all
    · rfl
  · simp only [Memory.get, eq_comm]

/-- Read after write, at the written address and at every other. -/
theorem Memory.get_set {m : Memory} (h : m.wf = true) (a : Nat) (v : Byte) (b : Nat) :
    (m.set a v).get b = if b = a then v else m.get b := by
  induction m with
  | nil => exact Memory.get_put (by simp) v b
  | cons c m ih =>
    obtain ⟨above, -, hm⟩ := Memory.wf_cons.1 h
    unfold Memory.set
    split
    · refine Memory.get_put (fun d hd => ?_) v b
      rcases List.mem_cons.1 hd with rfl | hd
      · assumption
      · exact lt_trans ‹_› (above d hd)
    · split
      · rename_i hac
        rw [Memory.get_put (hac ▸ above), Memory.get]
        split <;> [rfl; rw [if_neg (by omega)]]
      · simp only [Memory.get, ih hm]
        split <;> [rw [if_neg (by omega)]; rfl]

theorem Memory.mem_put {m : Memory} {a : Nat} {v : Byte} {d : Host.Cell} (h : d ∈ Memory.put a v m) : d.1 = a ∨ d ∈ m := by
  unfold Memory.put at h
  split at h
  · exact .inr h
  · rcases List.mem_cons.1 h with rfl | h
    · exact .inl rfl
    · exact .inr h

theorem Memory.mem_set {m : Memory} {a : Nat} {v : Byte} {d : Host.Cell} (h : d ∈ m.set a v) : d.1 = a ∨ d ∈ m := by
  induction m with
  | nil => exact Memory.mem_put h
  | cons c m ih =>
    unfold Memory.set at h
    split at h
    · exact Memory.mem_put h
    · split at h
      · exact (Memory.mem_put h).imp_right (List.mem_cons_of_mem _)
      · rcases List.mem_cons.1 h with rfl | h
        · exact .inr (by simp)
        · exact (ih h).imp_right (List.mem_cons_of_mem _)

theorem Memory.put_wf {m : Memory} {a : Nat} {v : Byte} (above : ∀ c ∈ m, a < c.1) (h : m.wf = true)
    (ha : a ≤ Config.lastAddr) : (Memory.put a v m).wf = true := by
  unfold Memory.put
  split
  · exact h
  · exact Memory.wf_cons.2 ⟨above, ⟨ha, ‹_›⟩, h⟩

/-- A write keeps the canonical form. -/
theorem Memory.set_wf {m : Memory} (h : m.wf = true) {a : Nat} (ha : a ≤ Config.lastAddr) (v : Byte) :
    (m.set a v).wf = true := by
  induction m with
  | nil => exact Memory.put_wf (by simp) h ha
  | cons c m ih =>
    obtain ⟨above, hc, hm⟩ := Memory.wf_cons.1 h
    unfold Memory.set
    split
    · refine Memory.put_wf (fun d hd => ?_) h ha
      rcases List.mem_cons.1 hd with rfl | hd
      · assumption
      · exact lt_trans ‹_› (above d hd)
    · split
      · rename_i hac
        exact Memory.put_wf (hac ▸ above) hm ha
      · refine Memory.wf_cons.2 ⟨fun d hd => ?_, hc, ih hm⟩
        rcases Memory.mem_set hd with rfl | hd
        · omega
        · exact above d hd

/-- Canonical memories that read the same everywhere are the same list. -/
theorem Memory.eq_of_get_eq {m n : Memory} (hm : m.wf = true) (hn : n.wf = true) (h : ∀ a, m.get a = n.get a) : m = n := by
  induction m generalizing n with
  | nil =>
    cases n with
    | nil => rfl
    | cons d n =>
      obtain ⟨-, hd, -⟩ := Memory.wf_cons.1 hn
      exact absurd (by simpa [Memory.get] using (h d.1).symm) hd.2
  | cons c m ih =>
    obtain ⟨am, hc, hm⟩ := Memory.wf_cons.1 hm
    cases n with
    | nil => exact absurd (by simpa [Memory.get] using h c.1) hc.2
    | cons d n =>
      obtain ⟨an, hd, hn'⟩ := Memory.wf_cons.1 hn
      have hcd : c.1 = d.1 := by
        rcases lt_trichotomy c.1 d.1 with lt | eq | gt
        · have := h c.1
          rw [Memory.get, if_pos rfl, Memory.get, if_neg (by omega),
            Memory.get_of_all_above fun e he => lt_trans lt (an e he)] at this
          exact absurd this hc.2
        · exact eq
        · have := h d.1
          rw [Memory.get, if_neg (by omega), Memory.get_of_all_above fun e he => lt_trans gt (am e he),
            Memory.get, if_pos rfl] at this
          exact absurd this.symm hd.2
      have hv : c.2 = d.2 := by simpa [Memory.get, hcd] using h c.1
      obtain rfl : c = d := Prod.ext hcd hv
      congr 1
      refine ih hm hn' fun a => ?_
      by_cases ha : c.1 = a
      · subst ha
        rw [Memory.get_of_all_above am, Memory.get_of_all_above an]
      · simpa [Memory.get, ha] using h a

theorem Memory.poke_wf {m : Memory} (h : m.wf = true) (a : Nat) (v : Byte) : (m.poke a v).wf = true := by
  unfold Memory.poke
  split
  · exact Memory.set_wf h ‹_› v
  · exact h

theorem Memory.get_poke {m : Memory} (h : m.wf = true) (a : Nat) (v : Byte) (b : Nat) :
    (m.poke a v).get b = if b = a ∧ a ≤ Config.lastAddr then v else m.get b := by
  unfold Memory.poke
  split <;> simp [*, Memory.get_set]

theorem Memory.pokeAll_wf {m : Memory} (h : m.wf = true) (a : Nat) (bs : List Byte) : (m.pokeAll a bs).wf = true := by
  induction bs generalizing m a with
  | nil => exact h
  | cons b bs ih => exact ih (Memory.poke_wf h a b) (a + 1)

theorem Memory.ofCells_wf (cells : Memory) : (Memory.ofCells cells).wf = true := by
  have (m : Memory) (h : m.wf = true) : (cells.foldl (fun m c => m.poke c.1 c.2) m).wf = true := by
    induction cells generalizing m with
    | nil => exact h
    | cons c cs ih => exact ih _ (Memory.poke_wf h c.1 c.2)
  exact this [] Memory.wf_nil

/-- Bytes that equal what their addresses read as unlisted leave empty memory empty. -/
theorem Memory.pokeAll_unlisted (a : Nat) (bs : List Byte) (h : ∀ k (hk : k < bs.length), bs[k] = Memory.unlisted (a + k)) :
    Memory.pokeAll [] a bs = [] := by
  induction bs generalizing a with
  | nil => rfl
  | cons b bs ih =>
    have hb : b = Memory.unlisted a := h 0 (by simp)
    have hp : Memory.poke [] a b = [] := by simp [Memory.poke, Memory.set, Memory.put, hb]
    rw [Memory.pokeAll, hp]
    refine ih (a + 1) fun k hk => ?_
    have := h (k + 1) (by simp; omega)
    simpa [Nat.add_assoc, Nat.add_comm 1 k] using this

/-- What a loaded byte string reads as (10_state.md R48): the string where it lies, the old content elsewhere. -/
theorem Memory.get_pokeAll {m : Memory} (h : m.wf = true) (a : Nat) (bs : List Byte) (b : Nat) :
    (m.pokeAll a bs).get b =
      if a ≤ b ∧ b < a + bs.length ∧ b ≤ Config.lastAddr then bs.getD (b - a) 0 else m.get b := by
  induction bs generalizing m a with
  | nil => rw [Memory.pokeAll, if_neg (by simp; omega)]
  | cons c bs ih =>
    rw [Memory.pokeAll, ih (Memory.poke_wf h a c), Memory.get_poke h]
    simp only [List.length_cons]
    by_cases hlast : b ≤ Config.lastAddr
    · rcases lt_trichotomy b a with lt | rfl | gt
      · rw [if_neg (by omega), if_neg (by omega), if_neg (by omega)]
      · rw [if_neg (by omega), if_pos ⟨rfl, hlast⟩, if_pos (by omega)]
        simp
      · obtain ⟨j, rfl⟩ : ∃ j, b = a + (j + 1) := ⟨b - a - 1, by omega⟩
        by_cases hin : j < bs.length
        · rw [if_pos (by omega), if_pos (by omega)]
          have e1 : a + (j + 1) - (a + 1) = j := by omega
          have e2 : a + (j + 1) - a = j + 1 := by omega
          rw [e1, e2, List.getD_cons_succ]
        · rw [if_neg (by omega), if_neg (by omega), if_neg (by omega)]
    · rw [if_neg (by omega), if_neg (by omega), if_neg (by omega)]

/-! ## MemRead, 20_memory.md R61 -/

theorem memRead_ok {m : Memory} {a : Nat} (h : a ≤ 0xFFF) : memRead m a = .ok (m.get a) := if_pos h

theorem memRead_error {m : Memory} {a : Nat} (h : 0xFFF < a) : memRead m a = .error (.memRead a) := if_neg (by
  simp only [Config.lastAddr]; omega)

/-- n reads from `a`: all of them, or the fault of the first address above 0xFFF. -/
theorem memReadBytes_eq (m : Memory) (a n : Nat) : memReadBytes m a n =
    if n = 0 ∨ a + n ≤ 0x1000 then .ok ((List.range n).map fun k => m.get (a + k))
    else .error (.memRead (max a 0x1000)) := by
  induction n generalizing a with
  | zero => simp [memReadBytes]
  | succ n ih =>
    rw [memReadBytes, ih]
    by_cases ha : a ≤ 0xFFF
    · rw [memRead_ok ha]
      by_cases hn : n = 0 ∨ a + 1 + n ≤ 0x1000
      · rw [if_pos hn, if_pos (by omega)]
        have shift (k : Nat) : a + 1 + k = a + (k + 1) := by omega
        simp [List.range_succ_eq_map, Function.comp_def, shift]
      · rw [if_neg hn, if_neg (by omega)]
        simp only [Except.error.injEq, CoreFault.memRead.injEq]
        omega
    · rw [memRead_error (by omega)]
      simp only []
      rw [if_neg (by omega), Nat.max_eq_left (by omega)]

/-- A two-byte read, big-endian, or the fault of the lower address first. -/
theorem memReadWord_eq (m : Memory) (a : Nat) : memReadWord m a =
    if a ≤ 0xFFE then .ok (wordOf (m.get a) (m.get (a + 1))) else .error (.memRead (max a 0x1000)) := by
  unfold memReadWord
  by_cases h : a ≤ 0xFFE
  · rw [if_pos h, memRead_ok (by omega), memRead_ok (by omega)]
  · rw [if_neg h]
    by_cases ha : a ≤ 0xFFF
    · rw [memRead_ok ha, memRead_error (by omega)]
      simp only [Except.error.injEq, CoreFault.memRead.injEq]
      omega
    · rw [memRead_error (by omega)]
      simp only [Except.error.injEq, CoreFault.memRead.injEq]
      omega

/-! ## MemWrite, 20_memory.md R62 -/

theorem memWrite_ok {m : Memory} {a : Nat} (lo : 0x200 ≤ a) (hi : a ≤ 0xFFF) (v : Byte) :
    memWrite m a v = .ok (m.set a v) := if_neg (by simp only [Config.progBase, Config.lastAddr]; omega)

theorem memWrite_error {m : Memory} {a : Nat} (h : a < 0x200 ∨ 0xFFF < a) (v : Byte) :
    memWrite m a v = .error (.memWrite a) := if_pos h

/-- What a multi-byte store that completes has done: where it lay, what every byte reads as after it, the canonical form. -/
theorem memWriteBytes_spec {m m' : Memory} {a : Nat} {bs : List Byte} (h : memWriteBytes m a bs = .ok m')
    (wf : m.wf = true) :
    (bs = [] ∨ 0x200 ≤ a ∧ a + bs.length ≤ 0x1000) ∧ m'.wf = true ∧
      ∀ b, m'.get b = if a ≤ b ∧ b < a + bs.length then bs.getD (b - a) 0 else m.get b := by
  induction bs generalizing m a with
  | nil =>
    obtain rfl : m = m' := by simpa [memWriteBytes] using h
    exact ⟨.inl rfl, wf, fun b => by rw [if_neg (by simp)]⟩
  | cons c bs ih =>
    rw [memWriteBytes] at h
    by_cases bad : a < 0x200 ∨ 0xFFF < a
    · simp [memWrite_error bad] at h
    · rw [memWrite_ok (by omega) (by omega)] at h
      have wf' : (m.set a c).wf = true := Memory.set_wf wf (by simp only [Config.lastAddr]; omega) c
      obtain ⟨range, wf'', get⟩ := ih h wf'
      refine ⟨.inr ?_, wf'', fun b => ?_⟩
      · rcases range with rfl | ⟨-, hi⟩
        · simp only [List.length_cons, List.length_nil]; omega
        · simp only [List.length_cons]; omega
      · rw [get, Memory.get_set wf]
        simp only [List.length_cons]
        rcases lt_trichotomy b a with lt | rfl | gt
        · rw [if_neg (by omega), if_neg (by omega), if_neg (by omega)]
        · rw [if_neg (by omega), if_pos rfl, if_pos (by omega)]
          simp
        · obtain ⟨j, rfl⟩ : ∃ j, b = a + (j + 1) := ⟨b - a - 1, by omega⟩
          by_cases hin : j < bs.length
          · rw [if_pos (by omega), if_pos (by omega)]
            have e1 : a + (j + 1) - (a + 1) = j := by omega
            have e2 : a + (j + 1) - a = j + 1 := by omega
            rw [e1, e2, List.getD_cons_succ]
          · rw [if_neg (by omega), if_neg (by omega), if_neg (by omega)]

/-- A multi-byte store inside 0x200..0xFFF completes. -/
theorem memWriteBytes_completes (m : Memory) {a : Nat} {bs : List Byte} (lo : 0x200 ≤ a) (hi : a + bs.length ≤ 0x1000) :
    ∃ m', memWriteBytes m a bs = .ok m' := by
  induction bs generalizing m a with
  | nil => exact ⟨m, rfl⟩
  | cons c bs ih =>
    simp only [List.length_cons] at hi
    rw [memWriteBytes, memWrite_ok lo (by omega)]
    exact ih _ (by omega) (by omega)

/-- A multi-byte store that does not fit faults at the first bad address: its start, or 0x1000. -/
theorem memWriteBytes_faults (m : Memory) {a : Nat} {bs : List Byte} (ne : bs ≠ [])
    (bad : a < 0x200 ∨ 0x1000 < a + bs.length) :
    memWriteBytes m a bs = .error (.memWrite (if a < 0x200 then a else max a 0x1000)) := by
  induction bs generalizing m a with
  | nil => exact absurd rfl ne
  | cons c bs ih =>
    rw [memWriteBytes]
    by_cases here : a < 0x200 ∨ 0xFFF < a
    · rw [memWrite_error here]
      simp only [Except.error.injEq, CoreFault.memWrite.injEq]
      split <;> omega
    · rw [memWrite_ok (by omega) (by omega)]
      simp only [List.length_cons] at bad
      have hne : bs ≠ [] := by rintro rfl; simp at bad; omega
      simp only []
      rw [ih _ hne (by omega)]
      simp only [Except.error.injEq, CoreFault.memWrite.injEq]
      split <;> split <;> omega

end Sys2Proof.Machine
end

