-- ==== Sys2Proof/Laws/State.lean ====
section
/-!
SUPPORT. Every field of State after every writer of Machine/Ops.lean: no later proof unfolds a record update.
-/
namespace Sys2Proof.Machine

/-! ### setReg -/
section
variable (s : State) (x : Reg) (b : Byte)

@[simp] theorem State.setReg_mode : (s.setReg x b).mode = s.mode := rfl
@[simp] theorem State.setReg_quirks : (s.setReg x b).quirks = s.quirks := rfl
@[simp] theorem State.setReg_ipf : (s.setReg x b).ipf = s.ipf := rfl
@[simp] theorem State.setReg_v : (s.setReg x b).v = s.v.set x b := rfl
@[simp] theorem State.setReg_I : (s.setReg x b).I = s.I := rfl
@[simp] theorem State.setReg_pc : (s.setReg x b).pc = s.pc := rfl
@[simp] theorem State.setReg_stack : (s.setReg x b).stack = s.stack := rfl
@[simp] theorem State.setReg_sp : (s.setReg x b).sp = s.sp := rfl
@[simp] theorem State.setReg_dt : (s.setReg x b).dt = s.dt := rfl
@[simp] theorem State.setReg_st : (s.setReg x b).st = s.st := rfl
@[simp] theorem State.setReg_mem : (s.setReg x b).mem = s.mem := rfl
@[simp] theorem State.setReg_rpl : (s.setReg x b).rpl = s.rpl := rfl
@[simp] theorem State.setReg_p1 : (s.setReg x b).p1 = s.p1 := rfl
@[simp] theorem State.setReg_p2 : (s.setReg x b).p2 = s.p2 := rfl
@[simp] theorem State.setReg_hires : (s.setReg x b).hires = s.hires := rfl
@[simp] theorem State.setReg_sel : (s.setReg x b).sel = s.sel := rfl
@[simp] theorem State.setReg_pattern : (s.setReg x b).pattern = s.pattern := rfl
@[simp] theorem State.setReg_pitch : (s.setReg x b).pitch = s.pitch := rfl
@[simp] theorem State.setReg_keys : (s.setReg x b).keys = s.keys := rfl
@[simp] theorem State.setReg_run : (s.setReg x b).run = s.run := rfl
@[simp] theorem State.setReg_frec : (s.setReg x b).frec = s.frec := rfl
@[simp] theorem State.setReg_frameDone : (s.setReg x b).frameDone = s.frameDone := rfl
@[simp] theorem State.setReg_keyInputs : (s.setReg x b).keyInputs = s.keyInputs := rfl
@[simp] theorem State.setReg_frames : (s.setReg x b).frames = s.frames := rfl
@[simp] theorem State.setReg_draws : (s.setReg x b).draws = s.draws := rfl
@[simp] theorem State.setReg_width : (s.setReg x b).width = s.width := rfl
@[simp] theorem State.setReg_height : (s.setReg x b).height = s.height := rfl
@[simp] theorem State.setReg_ea (κ : Nat) : (s.setReg x b).ea κ = s.ea κ := rfl
end

/-! ### setI -/
section
variable (s : State) (n : Nat)

@[simp] theorem State.setI_mode : (s.setI n).mode = s.mode := rfl
@[simp] theorem State.setI_quirks : (s.setI n).quirks = s.quirks := rfl
@[simp] theorem State.setI_ipf : (s.setI n).ipf = s.ipf := rfl
@[simp] theorem State.setI_v : (s.setI n).v = s.v := rfl
@[simp] theorem State.setI_I : (s.setI n).I = BitVec.ofNat 16 (n % 0x1000) := rfl
@[simp] theorem State.setI_pc : (s.setI n).pc = s.pc := rfl
@[simp] theorem State.setI_stack : (s.setI n).stack = s.stack := rfl
@[simp] theorem State.setI_sp : (s.setI n).sp = s.sp := rfl
@[simp] theorem State.setI_dt : (s.setI n).dt = s.dt := rfl
@[simp] theorem State.setI_st : (s.setI n).st = s.st := rfl
@[simp] theorem State.setI_mem : (s.setI n).mem = s.mem := rfl
@[simp] theorem State.setI_rpl : (s.setI n).rpl = s.rpl := rfl
@[simp] theorem State.setI_p1 : (s.setI n).p1 = s.p1 := rfl
@[simp] theorem State.setI_p2 : (s.setI n).p2 = s.p2 := rfl
@[simp] theorem State.setI_hires : (s.setI n).hires = s.hires := rfl
@[simp] theorem State.setI_sel : (s.setI n).sel = s.sel := rfl
@[simp] theorem State.setI_pattern : (s.setI n).pattern = s.pattern := rfl
@[simp] theorem State.setI_pitch : (s.setI n).pitch = s.pitch := rfl
@[simp] theorem State.setI_keys : (s.setI n).keys = s.keys := rfl
@[simp] theorem State.setI_run : (s.setI n).run = s.run := rfl
@[simp] theorem State.setI_frec : (s.setI n).frec = s.frec := rfl
@[simp] theorem State.setI_frameDone : (s.setI n).frameDone = s.frameDone := rfl
@[simp] theorem State.setI_keyInputs : (s.setI n).keyInputs = s.keyInputs := rfl
@[simp] theorem State.setI_frames : (s.setI n).frames = s.frames := rfl
@[simp] theorem State.setI_draws : (s.setI n).draws = s.draws := rfl
@[simp] theorem State.setI_reg (ρ : Reg) : (s.setI n).reg ρ = s.reg ρ := rfl
@[simp] theorem State.setI_width : (s.setI n).width = s.width := rfl
@[simp] theorem State.setI_height : (s.setI n).height = s.height := rfl
end

/-! ### setPc -/
section
variable (s : State) (a : Word)

@[simp] theorem State.setPc_mode : (s.setPc a).mode = s.mode := rfl
@[simp] theorem State.setPc_quirks : (s.setPc a).quirks = s.quirks := rfl
@[simp] theorem State.setPc_ipf : (s.setPc a).ipf = s.ipf := rfl
@[simp] theorem State.setPc_v : (s.setPc a).v = s.v := rfl
@[simp] theorem State.setPc_I : (s.setPc a).I = s.I := rfl
@[simp] theorem State.setPc_pc : (s.setPc a).pc = a := rfl
@[simp] theorem State.setPc_stack : (s.setPc a).stack = s.stack := rfl
@[simp] theorem State.setPc_sp : (s.setPc a).sp = s.sp := rfl
@[simp] theorem State.setPc_dt : (s.setPc a).dt = s.dt := rfl
@[simp] theorem State.setPc_st : (s.setPc a).st = s.st := rfl
@[simp] theorem State.setPc_mem : (s.setPc a).mem = s.mem := rfl
@[simp] theorem State.setPc_rpl : (s.setPc a).rpl = s.rpl := rfl
@[simp] theorem State.setPc_p1 : (s.setPc a).p1 = s.p1 := rfl
@[simp] theorem State.setPc_p2 : (s.setPc a).p2 = s.p2 := rfl
@[simp] theorem State.setPc_hires : (s.setPc a).hires = s.hires := rfl
@[simp] theorem State.setPc_sel : (s.setPc a).sel = s.sel := rfl
@[simp] theorem State.setPc_pattern : (s.setPc a).pattern = s.pattern := rfl
@[simp] theorem State.setPc_pitch : (s.setPc a).pitch = s.pitch := rfl
@[simp] theorem State.setPc_keys : (s.setPc a).keys = s.keys := rfl
@[simp] theorem State.setPc_run : (s.setPc a).run = s.run := rfl
@[simp] theorem State.setPc_frec : (s.setPc a).frec = s.frec := rfl
@[simp] theorem State.setPc_frameDone : (s.setPc a).frameDone = s.frameDone := rfl
@[simp] theorem State.setPc_keyInputs : (s.setPc a).keyInputs = s.keyInputs := rfl
@[simp] theorem State.setPc_frames : (s.setPc a).frames = s.frames := rfl
@[simp] theorem State.setPc_draws : (s.setPc a).draws = s.draws := rfl
@[simp] theorem State.setPc_reg (ρ : Reg) : (s.setPc a).reg ρ = s.reg ρ := rfl
@[simp] theorem State.setPc_width : (s.setPc a).width = s.width := rfl
@[simp] theorem State.setPc_height : (s.setPc a).height = s.height := rfl
@[simp] theorem State.setPc_ea (κ : Nat) : (s.setPc a).ea κ = s.ea κ := rfl
end

/-! ### setMem -/
section
variable (s : State) (m : Memory)

@[simp] theorem State.setMem_mode : (s.setMem m).mode = s.mode := rfl
@[simp] theorem State.setMem_quirks : (s.setMem m).quirks = s.quirks := rfl
@[simp] theorem State.setMem_ipf : (s.setMem m).ipf = s.ipf := rfl
@[simp] theorem State.setMem_v : (s.setMem m).v = s.v := rfl
@[simp] theorem State.setMem_I : (s.setMem m).I = s.I := rfl
@[simp] theorem State.setMem_pc : (s.setMem m).pc = s.pc := rfl
@[simp] theorem State.setMem_stack : (s.setMem m).stack = s.stack := rfl
@[simp] theorem State.setMem_sp : (s.setMem m).sp = s.sp := rfl
@[simp] theorem State.setMem_dt : (s.setMem m).dt = s.dt := rfl
@[simp] theorem State.setMem_st : (s.setMem m).st = s.st := rfl
@[simp] theorem State.setMem_mem : (s.setMem m).mem = m := rfl
@[simp] theorem State.setMem_rpl : (s.setMem m).rpl = s.rpl := rfl
@[simp] theorem State.setMem_p1 : (s.setMem m).p1 = s.p1 := rfl
@[simp] theorem State.setMem_p2 : (s.setMem m).p2 = s.p2 := rfl
@[simp] theorem State.setMem_hires : (s.setMem m).hires = s.hires := rfl
@[simp] theorem State.setMem_sel : (s.setMem m).sel = s.sel := rfl
@[simp] theorem State.setMem_pattern : (s.setMem m).pattern = s.pattern := rfl
@[simp] theorem State.setMem_pitch : (s.setMem m).pitch = s.pitch := rfl
@[simp] theorem State.setMem_keys : (s.setMem m).keys = s.keys := rfl
@[simp] theorem State.setMem_run : (s.setMem m).run = s.run := rfl
@[simp] theorem State.setMem_frec : (s.setMem m).frec = s.frec := rfl
@[simp] theorem State.setMem_frameDone : (s.setMem m).frameDone = s.frameDone := rfl
@[simp] theorem State.setMem_keyInputs : (s.setMem m).keyInputs = s.keyInputs := rfl
@[simp] theorem State.setMem_frames : (s.setMem m).frames = s.frames := rfl
@[simp] theorem State.setMem_draws : (s.setMem m).draws = s.draws := rfl
@[simp] theorem State.setMem_reg (ρ : Reg) : (s.setMem m).reg ρ = s.reg ρ := rfl
@[simp] theorem State.setMem_width : (s.setMem m).width = s.width := rfl
@[simp] theorem State.setMem_height : (s.setMem m).height = s.height := rfl
@[simp] theorem State.setMem_ea (κ : Nat) : (s.setMem m).ea κ = s.ea κ := rfl
end

/-! ### setRpl -/
section
variable (s : State) (r : Vector Byte 8)

@[simp] theorem State.setRpl_mode : (s.setRpl r).mode = s.mode := rfl
@[simp] theorem State.setRpl_quirks : (s.setRpl r).quirks = s.quirks := rfl
@[simp] theorem State.setRpl_ipf : (s.setRpl r).ipf = s.ipf := rfl
@[simp] theorem State.setRpl_v : (s.setRpl r).v = s.v := rfl
@[simp] theorem State.setRpl_I : (s.setRpl r).I = s.I := rfl
@[simp] theorem State.setRpl_pc : (s.setRpl r).pc = s.pc := rfl
@[simp] theorem State.setRpl_stack : (s.setRpl r).stack = s.stack := rfl
@[simp] theorem State.setRpl_sp : (s.setRpl r).sp = s.sp := rfl
@[simp] theorem State.setRpl_dt : (s.setRpl r).dt = s.dt := rfl
@[simp] theorem State.setRpl_st : (s.setRpl r).st = s.st := rfl
@[simp] theorem State.setRpl_mem : (s.setRpl r).mem = s.mem := rfl
@[simp] theorem State.setRpl_rpl : (s.setRpl r).rpl = r := rfl
@[simp] theorem State.setRpl_p1 : (s.setRpl r).p1 = s.p1 := rfl
@[simp] theorem State.setRpl_p2 : (s.setRpl r).p2 = s.p2 := rfl
@[simp] theorem State.setRpl_hires : (s.setRpl r).hires = s.hires := rfl
@[simp] theorem State.setRpl_sel : (s.setRpl r).sel = s.sel := rfl
@[simp] theorem State.setRpl_pattern : (s.setRpl r).pattern = s.pattern := rfl
@[simp] theorem State.setRpl_pitch : (s.setRpl r).pitch = s.pitch := rfl
@[simp] theorem State.setRpl_keys : (s.setRpl r).keys = s.keys := rfl
@[simp] theorem State.setRpl_run : (s.setRpl r).run = s.run := rfl
@[simp] theorem State.setRpl_frec : (s.setRpl r).frec = s.frec := rfl
@[simp] theorem State.setRpl_frameDone : (s.setRpl r).frameDone = s.frameDone := rfl
@[simp] theorem State.setRpl_keyInputs : (s.setRpl r).keyInputs = s.keyInputs := rfl
@[simp] theorem State.setRpl_frames : (s.setRpl r).frames = s.frames := rfl
@[simp] theorem State.setRpl_draws : (s.setRpl r).draws = s.draws := rfl
@[simp] theorem State.setRpl_reg (ρ : Reg) : (s.setRpl r).reg ρ = s.reg ρ := rfl
@[simp] theorem State.setRpl_width : (s.setRpl r).width = s.width := rfl
@[simp] theorem State.setRpl_height : (s.setRpl r).height = s.height := rfl
@[simp] theorem State.setRpl_ea (κ : Nat) : (s.setRpl r).ea κ = s.ea κ := rfl
end

/-! ### setPlanes -/
section
variable (s : State) (p q : Plane)

@[simp] theorem State.setPlanes_mode : (s.setPlanes p q).mode = s.mode := rfl
@[simp] theorem State.setPlanes_quirks : (s.setPlanes p q).quirks = s.quirks := rfl
@[simp] theorem State.setPlanes_ipf : (s.setPlanes p q).ipf = s.ipf := rfl
@[simp] theorem State.setPlanes_v : (s.setPlanes p q).v = s.v := rfl
@[simp] theorem State.setPlanes_I : (s.setPlanes p q).I = s.I := rfl
@[simp] theorem State.setPlanes_pc : (s.setPlanes p q).pc = s.pc := rfl
@[simp] theorem State.setPlanes_stack : (s.setPlanes p q).stack = s.stack := rfl
@[simp] theorem State.setPlanes_sp : (s.setPlanes p q).sp = s.sp := rfl
@[simp] theorem State.setPlanes_dt : (s.setPlanes p q).dt = s.dt := rfl
@[simp] theorem State.setPlanes_st : (s.setPlanes p q).st = s.st := rfl
@[simp] theorem State.setPlanes_mem : (s.setPlanes p q).mem = s.mem := rfl
@[simp] theorem State.setPlanes_rpl : (s.setPlanes p q).rpl = s.rpl := rfl
@[simp] theorem State.setPlanes_p1 : (s.setPlanes p q).p1 = p := rfl
@[simp] theorem State.setPlanes_p2 : (s.setPlanes p q).p2 = q := rfl
@[simp] theorem State.setPlanes_hires : (s.setPlanes p q).hires = s.hires := rfl
@[simp] theorem State.setPlanes_sel : (s.setPlanes p q).sel = s.sel := rfl
@[simp] theorem State.setPlanes_pattern : (s.setPlanes p q).pattern = s.pattern := rfl
@[simp] theorem State.setPlanes_pitch : (s.setPlanes p q).pitch = s.pitch := rfl
@[simp] theorem State.setPlanes_keys : (s.setPlanes p q).keys = s.keys := rfl
@[simp] theorem State.setPlanes_run : (s.setPlanes p q).run = s.run := rfl
@[simp] theorem State.setPlanes_frec : (s.setPlanes p q).frec = s.frec := rfl
@[simp] theorem State.setPlanes_frameDone : (s.setPlanes p q).frameDone = s.frameDone := rfl
@[simp] theorem State.setPlanes_keyInputs : (s.setPlanes p q).keyInputs = s.keyInputs := rfl
@[simp] theorem State.setPlanes_frames : (s.setPlanes p q).frames = s.frames := rfl
@[simp] theorem State.setPlanes_draws : (s.setPlanes p q).draws = s.draws := rfl
@[simp] theorem State.setPlanes_reg (ρ : Reg) : (s.setPlanes p q).reg ρ = s.reg ρ := rfl
@[simp] theorem State.setPlanes_width : (s.setPlanes p q).width = s.width := rfl
@[simp] theorem State.setPlanes_height : (s.setPlanes p q).height = s.height := rfl
@[simp] theorem State.setPlanes_ea (κ : Nat) : (s.setPlanes p q).ea κ = s.ea κ := rfl
end

/-! ### setHires -/
section
variable (s : State) (b : Bool)

@[simp] theorem State.setHires_mode : (s.setHires b).mode = s.mode := rfl
@[simp] theorem State.setHires_quirks : (s.setHires b).quirks = s.quirks := rfl
@[simp] theorem State.setHires_ipf : (s.setHires b).ipf = s.ipf := rfl
@[simp] theorem State.setHires_v : (s.setHires b).v = s.v := rfl
@[simp] theorem State.setHires_I : (s.setHires b).I = s.I := rfl
@[simp] theorem State.setHires_pc : (s.setHires b).pc = s.pc := rfl
@[simp] theorem State.setHires_stack : (s.setHires b).stack = s.stack := rfl
@[simp] theorem State.setHires_sp : (s.setHires b).sp = s.sp := rfl
@[simp] theorem State.setHires_dt : (s.setHires b).dt = s.dt := rfl
@[simp] theorem State.setHires_st : (s.setHires b).st = s.st := rfl
@[simp] theorem State.setHires_mem : (s.setHires b).mem = s.mem := rfl
@[simp] theorem State.setHires_rpl : (s.setHires b).rpl = s.rpl := rfl
@[simp] theorem State.setHires_p1 : (s.setHires b).p1 = s.p1 := rfl
@[simp] theorem State.setHires_p2 : (s.setHires b).p2 = s.p2 := rfl
@[simp] theorem State.setHires_hires : (s.setHires b).hires = b := rfl
@[simp] theorem State.setHires_sel : (s.setHires b).sel = s.sel := rfl
@[simp] theorem State.setHires_pattern : (s.setHires b).pattern = s.pattern := rfl
@[simp] theorem State.setHires_pitch : (s.setHires b).pitch = s.pitch := rfl
@[simp] theorem State.setHires_keys : (s.setHires b).keys = s.keys := rfl
@[simp] theorem State.setHires_run : (s.setHires b).run = s.run := rfl
@[simp] theorem State.setHires_frec : (s.setHires b).frec = s.frec := rfl
@[simp] theorem State.setHires_frameDone : (s.setHires b).frameDone = s.frameDone := rfl
@[simp] theorem State.setHires_keyInputs : (s.setHires b).keyInputs = s.keyInputs := rfl
@[simp] theorem State.setHires_frames : (s.setHires b).frames = s.frames := rfl
@[simp] theorem State.setHires_draws : (s.setHires b).draws = s.draws := rfl
@[simp] theorem State.setHires_reg (ρ : Reg) : (s.setHires b).reg ρ = s.reg ρ := rfl
@[simp] theorem State.setHires_ea (κ : Nat) : (s.setHires b).ea κ = s.ea κ := rfl
end

/-! ### setSel -/
section
variable (s : State) (e : PlaneSel)

@[simp] theorem State.setSel_mode : (s.setSel e).mode = s.mode := rfl
@[simp] theorem State.setSel_quirks : (s.setSel e).quirks = s.quirks := rfl
@[simp] theorem State.setSel_ipf : (s.setSel e).ipf = s.ipf := rfl
@[simp] theorem State.setSel_v : (s.setSel e).v = s.v := rfl
@[simp] theorem State.setSel_I : (s.setSel e).I = s.I := rfl
@[simp] theorem State.setSel_pc : (s.setSel e).pc = s.pc := rfl
@[simp] theorem State.setSel_stack : (s.setSel e).stack = s.stack := rfl
@[simp] theorem State.setSel_sp : (s.setSel e).sp = s.sp := rfl
@[simp] theorem State.setSel_dt : (s.setSel e).dt = s.dt := rfl
@[simp] theorem State.setSel_st : (s.setSel e).st = s.st := rfl
@[simp] theorem State.setSel_mem : (s.setSel e).mem = s.mem := rfl
@[simp] theorem State.setSel_rpl : (s.setSel e).rpl = s.rpl := rfl
@[simp] theorem State.setSel_p1 : (s.setSel e).p1 = s.p1 := rfl
@[simp] theorem State.setSel_p2 : (s.setSel e).p2 = s.p2 := rfl
@[simp] theorem State.setSel_hires : (s.setSel e).hires = s.hires := rfl
@[simp] theorem State.setSel_sel : (s.setSel e).sel = e := rfl
@[simp] theorem State.setSel_pattern : (s.setSel e).pattern = s.pattern := rfl
@[simp] theorem State.setSel_pitch : (s.setSel e).pitch = s.pitch := rfl
@[simp] theorem State.setSel_keys : (s.setSel e).keys = s.keys := rfl
@[simp] theorem State.setSel_run : (s.setSel e).run = s.run := rfl
@[simp] theorem State.setSel_frec : (s.setSel e).frec = s.frec := rfl
@[simp] theorem State.setSel_frameDone : (s.setSel e).frameDone = s.frameDone := rfl
@[simp] theorem State.setSel_keyInputs : (s.setSel e).keyInputs = s.keyInputs := rfl
@[simp] theorem State.setSel_frames : (s.setSel e).frames = s.frames := rfl
@[simp] theorem State.setSel_draws : (s.setSel e).draws = s.draws := rfl
@[simp] theorem State.setSel_reg (ρ : Reg) : (s.setSel e).reg ρ = s.reg ρ := rfl
@[simp] theorem State.setSel_width : (s.setSel e).width = s.width := rfl
@[simp] theorem State.setSel_height : (s.setSel e).height = s.height := rfl
@[simp] theorem State.setSel_ea (κ : Nat) : (s.setSel e).ea κ = s.ea κ := rfl
end

/-! ### setDt -/
section
variable (s : State) (b : Byte)

@[simp] theorem State.setDt_mode : (s.setDt b).mode = s.mode := rfl
@[simp] theorem State.setDt_quirks : (s.setDt b).quirks = s.quirks := rfl
@[simp] theorem State.setDt_ipf : (s.setDt b).ipf = s.ipf := rfl
@[simp] theorem State.setDt_v : (s.setDt b).v = s.v := rfl
@[simp] theorem State.setDt_I : (s.setDt b).I = s.I := rfl
@[simp] theorem State.setDt_pc : (s.setDt b).pc = s.pc := rfl
@[simp] theorem State.setDt_stack : (s.setDt b).stack = s.stack := rfl
@[simp] theorem State.setDt_sp : (s.setDt b).sp = s.sp := rfl
@[simp] theorem State.setDt_dt : (s.setDt b).dt = b := rfl
@[simp] theorem State.setDt_st : (s.setDt b).st = s.st := rfl
@[simp] theorem State.setDt_mem : (s.setDt b).mem = s.mem := rfl
@[simp] theorem State.setDt_rpl : (s.setDt b).rpl = s.rpl := rfl
@[simp] theorem State.setDt_p1 : (s.setDt b).p1 = s.p1 := rfl
@[simp] theorem State.setDt_p2 : (s.setDt b).p2 = s.p2 := rfl
@[simp] theorem State.setDt_hires : (s.setDt b).hires = s.hires := rfl
@[simp] theorem State.setDt_sel : (s.setDt b).sel = s.sel := rfl
@[simp] theorem State.setDt_pattern : (s.setDt b).pattern = s.pattern := rfl
@[simp] theorem State.setDt_pitch : (s.setDt b).pitch = s.pitch := rfl
@[simp] theorem State.setDt_keys : (s.setDt b).keys = s.keys := rfl
@[simp] theorem State.setDt_run : (s.setDt b).run = s.run := rfl
@[simp] theorem State.setDt_frec : (s.setDt b).frec = s.frec := rfl
@[simp] theorem State.setDt_frameDone : (s.setDt b).frameDone = s.frameDone := rfl
@[simp] theorem State.setDt_keyInputs : (s.setDt b).keyInputs = s.keyInputs := rfl
@[simp] theorem State.setDt_frames : (s.setDt b).frames = s.frames := rfl
@[simp] theorem State.setDt_draws : (s.setDt b).draws = s.draws := rfl
@[simp] theorem State.setDt_reg (ρ : Reg) : (s.setDt b).reg ρ = s.reg ρ := rfl
@[simp] theorem State.setDt_width : (s.setDt b).width = s.width := rfl
@[simp] theorem State.setDt_height : (s.setDt b).height = s.height := rfl
@[simp] theorem State.setDt_ea (κ : Nat) : (s.setDt b).ea κ = s.ea κ := rfl
end

/-! ### setSt -/
section
variable (s : State) (b : Byte)

@[simp] theorem State.setSt_mode : (s.setSt b).mode = s.mode := rfl
@[simp] theorem State.setSt_quirks : (s.setSt b).quirks = s.quirks := rfl
@[simp] theorem State.setSt_ipf : (s.setSt b).ipf = s.ipf := rfl
@[simp] theorem State.setSt_v : (s.setSt b).v = s.v := rfl
@[simp] theorem State.setSt_I : (s.setSt b).I = s.I := rfl
@[simp] theorem State.setSt_pc : (s.setSt b).pc = s.pc := rfl
@[simp] theorem State.setSt_stack : (s.setSt b).stack = s.stack := rfl
@[simp] theorem State.setSt_sp : (s.setSt b).sp = s.sp := rfl
@[simp] theorem State.setSt_dt : (s.setSt b).dt = s.dt := rfl
@[simp] theorem State.setSt_st : (s.setSt b).st = b := rfl
@[simp] theorem State.setSt_mem : (s.setSt b).mem = s.mem := rfl
@[simp] theorem State.setSt_rpl : (s.setSt b).rpl = s.rpl := rfl
@[simp] theorem State.setSt_p1 : (s.setSt b).p1 = s.p1 := rfl
@[simp] theorem State.setSt_p2 : (s.setSt b).p2 = s.p2 := rfl
@[simp] theorem State.setSt_hires : (s.setSt b).hires = s.hires := rfl
@[simp] theorem State.setSt_sel : (s.setSt b).sel = s.sel := rfl
@[simp] theorem State.setSt_pattern : (s.setSt b).pattern = s.pattern := rfl
@[simp] theorem State.setSt_pitch : (s.setSt b).pitch = s.pitch := rfl
@[simp] theorem State.setSt_keys : (s.setSt b).keys = s.keys := rfl
@[simp] theorem State.setSt_run : (s.setSt b).run = s.run := rfl
@[simp] theorem State.setSt_frec : (s.setSt b).frec = s.frec := rfl
@[simp] theorem State.setSt_frameDone : (s.setSt b).frameDone = s.frameDone := rfl
@[simp] theorem State.setSt_keyInputs : (s.setSt b).keyInputs = s.keyInputs := rfl
@[simp] theorem State.setSt_frames : (s.setSt b).frames = s.frames := rfl
@[simp] theorem State.setSt_draws : (s.setSt b).draws = s.draws := rfl
@[simp] theorem State.setSt_reg (ρ : Reg) : (s.setSt b).reg ρ = s.reg ρ := rfl
@[simp] theorem State.setSt_width : (s.setSt b).width = s.width := rfl
@[simp] theorem State.setSt_height : (s.setSt b).height = s.height := rfl
@[simp] theorem State.setSt_ea (κ : Nat) : (s.setSt b).ea κ = s.ea κ := rfl
end

/-! ### setPattern -/
section
variable (s : State) (p : Vector Byte 16)

@[simp] theorem State.setPattern_mode : (s.setPattern p).mode = s.mode := rfl
@[simp] theorem State.setPattern_quirks : (s.setPattern p).quirks = s.quirks := rfl
@[simp] theorem State.setPattern_ipf : (s.setPattern p).ipf = s.ipf := rfl
@[simp] theorem State.setPattern_v : (s.setPattern p).v = s.v := rfl
@[simp] theorem State.setPattern_I : (s.setPattern p).I = s.I := rfl
@[simp] theorem State.setPattern_pc : (s.setPattern p).pc = s.pc := rfl
@[simp] theorem State.setPattern_stack : (s.setPattern p).stack = s.stack := rfl
@[simp] theorem State.setPattern_sp : (s.setPattern p).sp = s.sp := rfl
@[simp] theorem State.setPattern_dt : (s.setPattern p).dt = s.dt := rfl
@[simp] theorem State.setPattern_st : (s.setPattern p).st = s.st := rfl
@[simp] theorem State.setPattern_mem : (s.setPattern p).mem = s.mem := rfl
@[simp] theorem State.setPattern_rpl : (s.setPattern p).rpl = s.rpl := rfl
@[simp] theorem State.setPattern_p1 : (s.setPattern p).p1 = s.p1 := rfl
@[simp] theorem State.setPattern_p2 : (s.setPattern p).p2 = s.p2 := rfl
@[simp] theorem State.setPattern_hires : (s.setPattern p).hires = s.hires := rfl
@[simp] theorem State.setPattern_sel : (s.setPattern p).sel = s.sel := rfl
@[simp] theorem State.setPattern_pattern : (s.setPattern p).pattern = p := rfl
@[simp] theorem State.setPattern_pitch : (s.setPattern p).pitch = s.pitch := rfl
@[simp] theorem State.setPattern_keys : (s.setPattern p).keys = s.keys := rfl
@[simp] theorem State.setPattern_run : (s.setPattern p).run = s.run := rfl
@[simp] theorem State.setPattern_frec : (s.setPattern p).frec = s.frec := rfl
@[simp] theorem State.setPattern_frameDone : (s.setPattern p).frameDone = s.frameDone := rfl
@[simp] theorem State.setPattern_keyInputs : (s.setPattern p).keyInputs = s.keyInputs := rfl
@[simp] theorem State.setPattern_frames : (s.setPattern p).frames = s.frames := rfl
@[simp] theorem State.setPattern_draws : (s.setPattern p).draws = s.draws := rfl
@[simp] theorem State.setPattern_reg (ρ : Reg) : (s.setPattern p).reg ρ = s.reg ρ := rfl
@[simp] theorem State.setPattern_width : (s.setPattern p).width = s.width := rfl
@[simp] theorem State.setPattern_height : (s.setPattern p).height = s.height := rfl
@[simp] theorem State.setPattern_ea (κ : Nat) : (s.setPattern p).ea κ = s.ea κ := rfl
end

/-! ### setPitch -/
section
variable (s : State) (w : Word)

@[simp] theorem State.setPitch_mode : (s.setPitch w).mode = s.mode := rfl
@[simp] theorem State.setPitch_quirks : (s.setPitch w).quirks = s.quirks := rfl
@[simp] theorem State.setPitch_ipf : (s.setPitch w).ipf = s.ipf := rfl
@[simp] theorem State.setPitch_v : (s.setPitch w).v = s.v := rfl
@[simp] theorem State.setPitch_I : (s.setPitch w).I = s.I := rfl
@[simp] theorem State.setPitch_pc : (s.setPitch w).pc = s.pc := rfl
@[simp] theorem State.setPitch_stack : (s.setPitch w).stack = s.stack := rfl
@[simp] theorem State.setPitch_sp : (s.setPitch w).sp = s.sp := rfl
@[simp] theorem State.setPitch_dt : (s.setPitch w).dt = s.dt := rfl
@[simp] theorem State.setPitch_st : (s.setPitch w).st = s.st := rfl
@[simp] theorem State.setPitch_mem : (s.setPitch w).mem = s.mem := rfl
@[simp] theorem State.setPitch_rpl : (s.setPitch w).rpl = s.rpl := rfl
@[simp] theorem State.setPitch_p1 : (s.setPitch w).p1 = s.p1 := rfl
@[simp] theorem State.setPitch_p2 : (s.setPitch w).p2 = s.p2 := rfl
@[simp] theorem State.setPitch_hires : (s.setPitch w).hires = s.hires := rfl
@[simp] theorem State.setPitch_sel : (s.setPitch w).sel = s.sel := rfl
@[simp] theorem State.setPitch_pattern : (s.setPitch w).pattern = s.pattern := rfl
@[simp] theorem State.setPitch_pitch : (s.setPitch w).pitch = w := rfl
@[simp] theorem State.setPitch_keys : (s.setPitch w).keys = s.keys := rfl
@[simp] theorem State.setPitch_run : (s.setPitch w).run = s.run := rfl
@[simp] theorem State.setPitch_frec : (s.setPitch w).frec = s.frec := rfl
@[simp] theorem State.setPitch_frameDone : (s.setPitch w).frameDone = s.frameDone := rfl
@[simp] theorem State.setPitch_keyInputs : (s.setPitch w).keyInputs = s.keyInputs := rfl
@[simp] theorem State.setPitch_frames : (s.setPitch w).frames = s.frames := rfl
@[simp] theorem State.setPitch_draws : (s.setPitch w).draws = s.draws := rfl
@[simp] theorem State.setPitch_reg (ρ : Reg) : (s.setPitch w).reg ρ = s.reg ρ := rfl
@[simp] theorem State.setPitch_width : (s.setPitch w).width = s.width := rfl
@[simp] theorem State.setPitch_height : (s.setPitch w).height = s.height := rfl
@[simp] theorem State.setPitch_ea (κ : Nat) : (s.setPitch w).ea κ = s.ea κ := rfl
end

/-! ### setRun -/
section
variable (s : State) (r : RunStatus)

@[simp] theorem State.setRun_mode : (s.setRun r).mode = s.mode := rfl
@[simp] theorem State.setRun_quirks : (s.setRun r).quirks = s.quirks := rfl
@[simp] theorem State.setRun_ipf : (s.setRun r).ipf = s.ipf := rfl
@[simp] theorem State.setRun_v : (s.setRun r).v = s.v := rfl
@[simp] theorem State.setRun_I : (s.setRun r).I = s.I := rfl
@[simp] theorem State.setRun_pc : (s.setRun r).pc = s.pc := rfl
@[simp] theorem State.setRun_stack : (s.setRun r).stack = s.stack := rfl
@[simp] theorem State.setRun_sp : (s.setRun r).sp = s.sp := rfl
@[simp] theorem State.setRun_dt : (s.setRun r).dt = s.dt := rfl
@[simp] theorem State.setRun_st : (s.setRun r).st = s.st := rfl
@[simp] theorem State.setRun_mem : (s.setRun r).mem = s.mem := rfl
@[simp] theorem State.setRun_rpl : (s.setRun r).rpl = s.rpl := rfl
@[simp] theorem State.setRun_p1 : (s.setRun r).p1 = s.p1 := rfl
@[simp] theorem State.setRun_p2 : (s.setRun r).p2 = s.p2 := rfl
@[simp] theorem State.setRun_hires : (s.setRun r).hires = s.hires := rfl
@[simp] theorem State.setRun_sel : (s.setRun r).sel = s.sel := rfl
@[simp] theorem State.setRun_pattern : (s.setRun r).pattern = s.pattern := rfl
@[simp] theorem State.setRun_pitch : (s.setRun r).pitch = s.pitch := rfl
@[simp] theorem State.setRun_keys : (s.setRun r).keys = s.keys := rfl
@[simp] theorem State.setRun_run : (s.setRun r).run = r := rfl
@[simp] theorem State.setRun_frec : (s.setRun r).frec = s.frec := rfl
@[simp] theorem State.setRun_frameDone : (s.setRun r).frameDone = s.frameDone := rfl
@[simp] theorem State.setRun_keyInputs : (s.setRun r).keyInputs = s.keyInputs := rfl
@[simp] theorem State.setRun_frames : (s.setRun r).frames = s.frames := rfl
@[simp] theorem State.setRun_draws : (s.setRun r).draws = s.draws := rfl
@[simp] theorem State.setRun_reg (ρ : Reg) : (s.setRun r).reg ρ = s.reg ρ := rfl
@[simp] theorem State.setRun_width : (s.setRun r).width = s.width := rfl
@[simp] theorem State.setRun_height : (s.setRun r).height = s.height := rfl
@[simp] theorem State.setRun_ea (κ : Nat) : (s.setRun r).ea κ = s.ea κ := rfl
end

/-! ### setStack -/
section
variable (s : State) (k : Vector Word 16) (p : Fin 17)

@[simp] theorem State.setStack_mode : (s.setStack k p).mode = s.mode := rfl
@[simp] theorem State.setStack_quirks : (s.setStack k p).quirks = s.quirks := rfl
@[simp] theorem State.setStack_ipf : (s.setStack k p).ipf = s.ipf := rfl
@[simp] theorem State.setStack_v : (s.setStack k p).v = s.v := rfl
@[simp] theorem State.setStack_I : (s.setStack k p).I = s.I := rfl
@[simp] theorem State.setStack_pc : (s.setStack k p).pc = s.pc := rfl
@[simp] theorem State.setStack_stack : (s.setStack k p).stack = k := rfl
@[simp] theorem State.setStack_sp : (s.setStack k p).sp = p := rfl
@[simp] theorem State.setStack_dt : (s.setStack k p).dt = s.dt := rfl
@[simp] theorem State.setStack_st : (s.setStack k p).st = s.st := rfl
@[simp] theorem State.setStack_mem : (s.setStack k p).mem = s.mem := rfl
@[simp] theorem State.setStack_rpl : (s.setStack k p).rpl = s.rpl := rfl
@[simp] theorem State.setStack_p1 : (s.setStack k p).p1 = s.p1 := rfl
@[simp] theorem State.setStack_p2 : (s.setStack k p).p2 = s.p2 := rfl
@[simp] theorem State.setStack_hires : (s.setStack k p).hires = s.hires := rfl
@[simp] theorem State.setStack_sel : (s.setStack k p).sel = s.sel := rfl
@[simp] theorem State.setStack_pattern : (s.setStack k p).pattern = s.pattern := rfl
@[simp] theorem State.setStack_pitch : (s.setStack k p).pitch = s.pitch := rfl
@[simp] theorem State.setStack_keys : (s.setStack k p).keys = s.keys := rfl
@[simp] theorem State.setStack_run : (s.setStack k p).run = s.run := rfl
@[simp] theorem State.setStack_frec : (s.setStack k p).frec = s.frec := rfl
@[simp] theorem State.setStack_frameDone : (s.setStack k p).frameDone = s.frameDone := rfl
@[simp] theorem State.setStack_keyInputs : (s.setStack k p).keyInputs = s.keyInputs := rfl
@[simp] theorem State.setStack_frames : (s.setStack k p).frames = s.frames := rfl
@[simp] theorem State.setStack_draws : (s.setStack k p).draws = s.draws := rfl
@[simp] theorem State.setStack_reg (ρ : Reg) : (s.setStack k p).reg ρ = s.reg ρ := rfl
@[simp] theorem State.setStack_width : (s.setStack k p).width = s.width := rfl
@[simp] theorem State.setStack_height : (s.setStack k p).height = s.height := rfl
@[simp] theorem State.setStack_ea (κ : Nat) : (s.setStack k p).ea κ = s.ea κ := rfl
end

/-! ### drawn -/
section
variable (s : State)

@[simp] theorem State.drawn_mode : s.drawn.mode = s.mode := rfl
@[simp] theorem State.drawn_quirks : s.drawn.quirks = s.quirks := rfl
@[simp] theorem State.drawn_ipf : s.drawn.ipf = s.ipf := rfl
@[simp] theorem State.drawn_v : s.drawn.v = s.v := rfl
@[simp] theorem State.drawn_I : s.drawn.I = s.I := rfl
@[simp] theorem State.drawn_pc : s.drawn.pc = s.pc := rfl
@[simp] theorem State.drawn_stack : s.drawn.stack = s.stack := rfl
@[simp] theorem State.drawn_sp : s.drawn.sp = s.sp := rfl
@[simp] theorem State.drawn_dt : s.drawn.dt = s.dt := rfl
@[simp] theorem State.drawn_st : s.drawn.st = s.st := rfl
@[simp] theorem State.drawn_mem : s.drawn.mem = s.mem := rfl
@[simp] theorem State.drawn_rpl : s.drawn.rpl = s.rpl := rfl
@[simp] theorem State.drawn_p1 : s.drawn.p1 = s.p1 := rfl
@[simp] theorem State.drawn_p2 : s.drawn.p2 = s.p2 := rfl
@[simp] theorem State.drawn_hires : s.drawn.hires = s.hires := rfl
@[simp] theorem State.drawn_sel : s.drawn.sel = s.sel := rfl
@[simp] theorem State.drawn_pattern : s.drawn.pattern = s.pattern := rfl
@[simp] theorem State.drawn_pitch : s.drawn.pitch = s.pitch := rfl
@[simp] theorem State.drawn_keys : s.drawn.keys = s.keys := rfl
@[simp] theorem State.drawn_run : s.drawn.run = s.run := rfl
@[simp] theorem State.drawn_frec : s.drawn.frec = s.frec := rfl
@[simp] theorem State.drawn_frameDone : s.drawn.frameDone = s.frameDone := rfl
@[simp] theorem State.drawn_keyInputs : s.drawn.keyInputs = s.keyInputs := rfl
@[simp] theorem State.drawn_frames : s.drawn.frames = s.frames := rfl
@[simp] theorem State.drawn_draws : s.drawn.draws = s.draws + 1 := rfl
@[simp] theorem State.drawn_reg (ρ : Reg) : s.drawn.reg ρ = s.reg ρ := rfl
@[simp] theorem State.drawn_width : s.drawn.width = s.width := rfl
@[simp] theorem State.drawn_height : s.drawn.height = s.height := rfl
@[simp] theorem State.drawn_ea (κ : Nat) : s.drawn.ea κ = s.ea κ := rfl
end

/-! ### Registers -/

@[simp] theorem State.reg_setReg (s : State) (x r : Reg) (b : Byte) :
    (s.setReg x b).reg r = if r = x then b else s.reg r := by
  simp [State.reg, State.setReg, Vector.getElem_set, Fin.ext_iff, eq_comm]

theorem State.reg_setReg_self (s : State) (x : Reg) (b : Byte) : (s.setReg x b).reg x = b := by simp

theorem State.reg_setReg_ne (s : State) {x r : Reg} (b : Byte) (h : r ≠ x) : (s.setReg x b).reg r = s.reg r := by simp [h]

/-- A value assigned to I is masked (10_state.md R22). -/
theorem State.toNat_setI (s : State) (n : Nat) : (s.setI n).I.toNat = n % 0x1000 := by
  simp only [State.setI_I, BitVec.toNat_ofNat]
  omega

/-- A state is its registers and the rest: two states that agree on every register and differ nowhere else are equal. -/
theorem vector_ext_reg {a b : Vector Byte 16} (h : ∀ r : Reg, a[r] = b[r]) : a = b :=
  Vector.ext fun k hk => h ⟨k, hk⟩

end Sys2Proof.Machine
end

