-- ==== Sys2Proof/Laws/Ops.lean ====
section
/-!
SUPPORT. What each shared operation can do, said once: dispatch, taking a fault, the call stack, the skip, register lists.
-/
namespace Sys2Proof.Machine

/-! ## Taking a fault -/

section
variable (f : CoreFault) (addr raw : Word) (i : Instr) (s : State)

@[simp] theorem takeFault_run : (takeFault f addr raw s).run = .faulted := rfl
@[simp] theorem takeFault_frec : (takeFault f addr raw s).frec = some ⟨f, addr, raw⟩ := rfl
@[simp] theorem takeFault_frameDone : (takeFault f addr raw s).frameDone = 0 := rfl
@[simp] theorem takeFault_keyInputs : (takeFault f addr raw s).keyInputs = s.keyInputs := rfl
@[simp] theorem takeFault_frames : (takeFault f addr raw s).frames = s.frames := rfl
@[simp] theorem takeFault_draws : (takeFault f addr raw s).draws = s.draws + 1 := rfl
@[simp] theorem takeFault_mem_wf : (takeFault f addr raw s).mem.wf = true := Memory.ofCells_wf _
@[simp] theorem raise_run : (raise f i s).run = .faulted := rfl
@[simp] theorem raise_frec : (raise f i s).frec = some ⟨f, s.pc - 2, i.firstWord⟩ := rfl
@[simp] theorem raise_mem_wf : (raise f i s).mem.wf = true := Memory.ofCells_wf _

end

theorem faults_takeFault (f : CoreFault) (addr raw : Word) (s : State) :
    Faults (.next (takeFault f addr raw s)) f addr raw := ⟨_, rfl, rfl, rfl⟩

theorem faults_raise (f : CoreFault) (i : Instr) (s : State) :
    Faults (.next (raise f i s)) f (s.pc - 2) i.firstWord := ⟨_, rfl, rfl, rfl⟩

/-! ## Dispatch -/

section
variable {i : Instr} {s t : State} {f : CoreFault} {p : Except CoreFault State}

theorem dispatch_ok (h : i.existsIn s.mode = true) : dispatch i s (.ok t) = .next t := by simp [dispatch, h]

theorem dispatch_error (h : i.existsIn s.mode = true) : dispatch i s (.error f) = .next (raise f i s) := by
  simp [dispatch, h]

theorem dispatch_absent (h : i.existsIn s.mode = false) (p : Except CoreFault State) :
    dispatch i s p = .next (raise (.unknownInstruction i.firstWord) i s) := by simp [dispatch, h]

/-- Every instruction has a next state: what its pseudocode leaves, or a fault taken. -/
theorem dispatch_cases (i : Instr) (s : State) (p : Except CoreFault State) :
    (i.existsIn s.mode = true ∧ ∃ t, p = .ok t ∧ dispatch i s p = .next t) ∨
      (∃ f, dispatch i s p = .next (raise f i s)) := by
  cases h : i.existsIn s.mode
  · exact .inr ⟨_, dispatch_absent h p⟩
  · cases p with
    | ok t => exact .inl ⟨rfl, t, rfl, dispatch_ok h⟩
    | error f => exact .inr ⟨f, dispatch_error h⟩

/-- A next state that is not FAULTED is what the pseudocode leaves. -/
theorem of_dispatch_next (h : dispatch i s p = .next t) (good : t.run ≠ .faulted) :
    i.existsIn s.mode = true ∧ p = .ok t := by
  rcases dispatch_cases i s p with ⟨hm, u, rfl, hu⟩ | ⟨f, hf⟩
  · rw [hu] at h
    cases h
    exact ⟨hm, rfl⟩
  · rw [hf] at h
    cases h
    exact absurd rfl good

end

/-- Every instruction is one dispatch. -/
theorem exec_eq_dispatch (i : Instr) (s : State) : ∃ p, exec i s = dispatch i s p := by
  cases i <;> (unfold exec; first
    | exact ⟨_, rfl⟩)

/-- Every instruction answers a next state: the meanings have no stop of their own. -/
theorem exec_next (i : Instr) (s : State) : ∃ t, exec i s = .next t := by
  obtain ⟨p, hp⟩ := exec_eq_dispatch i s
  rcases dispatch_cases i s p with ⟨-, t, -, h⟩ | ⟨f, h⟩ <;> exact ⟨_, hp.trans h⟩

/-! ## Call stack, 10_state.md R26, R27 -/

theorem State.push_ok {s : State} (h : s.sp.val < 16) (a : Word) :
    s.push a = .ok (s.setStack (s.stack.set s.sp.val a) ⟨s.sp.val + 1, by omega⟩) := dif_pos h

theorem State.push_full {s : State} (h : s.sp.val = 16) (a : Word) : s.push a = .error .stackOverflow :=
  dif_neg (by omega)

theorem State.pop_ok {s : State} (h : s.sp.val ≠ 0) :
    s.pop = .ok (s.stack[s.sp.val - 1], s.setStack s.stack ⟨s.sp.val - 1, by omega⟩) := if_neg h

theorem State.pop_empty {s : State} (h : s.sp.val = 0) : s.pop = .error .stackUnderflow := if_pos h

/-! ## Skip, 40 R122 -/

/-- A skip that completes only moves pc, by 4 over a long instruction in XOCHIP mode and by 2 otherwise. -/
theorem State.skip_cases {s t : State} (h : s.skip = .ok t) :
    t = s.setPc (s.pc + 2) ∨
      (t = s.setPc (s.pc + 4) ∧ s.mode = .xochip ∧ memReadWord s.mem s.pc.toNat = .ok 0xF000) := by
  unfold State.skip at h
  split at h
  · rename_i hx
    split at h
    · cases h
    · rename_i w hw
      cases h
      by_cases hl : isLong s.mode w = true
      · right
        obtain rfl : w = 0xF000 := by simpa [isLong, hx] using hl
        exact ⟨by rw [if_pos hl], hx, hw⟩
      · left; simp [hl]
  · cases h
    exact .inl rfl

theorem State.skip_plain {s : State} (h : s.mode ≠ .xochip) : s.skip = .ok (s.setPc (s.pc + 2)) := if_neg h

theorem State.skip_xochip {s : State} (h : s.mode = .xochip) (fit : s.pc.toNat ≤ 0xFFE) :
    s.skip = .ok (s.setPc (if wordOf (s.mem.get s.pc.toNat) (s.mem.get (s.pc.toNat + 1)) = 0xF000
      then s.pc + 4 else s.pc + 2)) := by
  simp [State.skip, h, memReadWord_eq, fit, isLong]

theorem State.skip_faults {s : State} (h : s.mode = .xochip) (off : 0xFFE < s.pc.toNat) :
    s.skip = .error (.memRead (max s.pc.toNat 0x1000)) := by
  simp [State.skip, h, memReadWord_eq, Nat.not_le.2 off]

/-- A conditional skip that completes only moves pc, by at most 4. -/
theorem State.skipIf_cases {s t : State} {c : Bool} (h : s.skipIf c = .ok t) :
    t = s ∨ t = s.setPc (s.pc + 2) ∨ t = s.setPc (s.pc + 4) := by
  cases c with
  | false =>
    cases h
    exact .inl rfl
  | true =>
    rcases State.skip_cases h with h | ⟨h, -, -⟩
    · exact .inr (.inl h)
    · exact .inr (.inr h)

/-! ## Register lists -/

/-- Register writes change the registers only. -/
theorem State.setRegs_frame (s : State) (l : List (Reg × Byte)) : s.setRegs l = { s with v := (s.setRegs l).v } := by
  induction l generalizing s with
  | nil => rfl
  | cons p l ih => exact (ih (s.setReg p.1 p.2)).trans rfl

theorem State.reg_setRegs_of_notMem {s : State} {l : List (Reg × Byte)} {r : Reg} (h : r ∉ l.map Prod.fst) :
    (s.setRegs l).reg r = s.reg r := by
  induction l generalizing s with
  | nil => rfl
  | cons p l ih =>
    simp only [List.map_cons, List.mem_cons, not_or] at h
    rw [State.setRegs, ih h.2, State.reg_setReg_ne _ _ h.1]

/-- Each register of a list without repeats receives its own byte. -/
theorem State.reg_setRegs_zip {s : State} {rs : List Reg} {bytes : List Byte} (nodup : rs.Nodup)
    (len : bytes.length = rs.length) {k : Nat} (hk : k < rs.length) :
    (s.setRegs (rs.zip bytes)).reg rs[k] = bytes[k] := by
  induction rs generalizing s bytes k with
  | nil => simp at hk
  | cons r rs ih =>
    cases bytes with
    | nil => simp at len
    | cons b bytes =>
      obtain ⟨hr, hn⟩ := List.nodup_cons.1 nodup
      have hl : bytes.length = rs.length := by simpa using len
      rw [List.zip_cons_cons, State.setRegs]
      cases k with
      | zero =>
        have : r ∉ (rs.zip bytes).map Prod.fst := by rwa [List.map_fst_zip (by omega)]
        simp [State.reg_setRegs_of_notMem this]
      | succ k => exact ih hn hl (by simpa using hk)

theorem State.reg_setRegs_zip_of_notMem {s : State} {rs : List Reg} {bytes : List Byte} (len : bytes.length = rs.length)
    {r : Reg} (h : r ∉ rs) : (s.setRegs (rs.zip bytes)).reg r = s.reg r :=
  State.reg_setRegs_of_notMem (by rwa [List.map_fst_zip (by omega)])

/-! ## Register ranges, 42 R188 -/

/-- The number of registers from X to Y, both included. -/
theorem regRange_length (x y : Reg) :
    (regRange x y).length = (if x ≤ y then y.val - x.val else x.val - y.val) + 1 := by simp [regRange]

/-- The k-th register of the range, counted from X. -/
theorem regRange_val (x y : Reg) {k : Nat} (hk : k < (regRange x y).length) :
    (regRange x y)[k].val = if x ≤ y then x.val + k else x.val - k := by
  have hlen := regRange_length x y
  simp only [regRange, List.getElem_map, List.getElem_range, Fin.ofNat]
  have := x.isLt
  have := y.isLt
  split
  · rename_i h
    rw [if_pos h] at hlen
    have := Fin.le_def.1 h
    omega
  · omega

theorem regRange_nodup (x y : Reg) : (regRange x y).Nodup := by
  rw [List.nodup_iff_injective_get]
  intro j k h
  have hj := regRange_val x y j.isLt
  have hk := regRange_val x y k.isLt
  have hlen := regRange_length x y
  have same : (regRange x y)[j.val].val = (regRange x y)[k.val].val := congrArg Fin.val h
  have := x.isLt
  have := j.isLt
  have := k.isLt
  ext
  by_cases hxy : x ≤ y
  · simp only [if_pos hxy] at hj hk hlen
    omega
  · simp only [if_neg hxy] at hj hk hlen
    omega

/-- The registers of a range. -/
theorem mem_regRange (x y r : Reg) : r ∈ regRange x y ↔ min x y ≤ r ∧ r ≤ max x y := by
  have hx := x.isLt
  have hy := y.isLt
  have hr := r.isLt
  simp only [regRange, List.mem_map, List.mem_range, Fin.ext_iff, Fin.ofNat, Fin.le_def]
  by_cases h : x.val ≤ y.val
  · rw [min_eq_left (Fin.le_def.2 h), max_eq_right (Fin.le_def.2 h)]
    simp only [if_pos h]
    constructor
    · rintro ⟨k, hk, e⟩
      omega
    · rintro ⟨a, b⟩
      exact ⟨r.val - x.val, by omega, by omega⟩
  · have h' : y ≤ x := Fin.le_def.2 (by omega)
    rw [min_eq_right h', max_eq_left h']
    simp only [if_neg h]
    constructor
    · rintro ⟨k, hk, e⟩
      omega
    · rintro ⟨a, b⟩
      exact ⟨x.val - r.val, by omega, by omega⟩

theorem regRange_zero_length (x : Reg) : (regRange 0 x).length = x.val + 1 := by
  rw [regRange_length, if_pos (Fin.zero_le x)]; simp

theorem regRange_zero_val (x : Reg) {k : Nat} (hk : k < (regRange 0 x).length) : (regRange 0 x)[k].val = k := by
  rw [regRange_val, if_pos (Fin.zero_le x)]; simp

end Sys2Proof.Machine
end

