-- ==== Sys2Proof/Laws/Step.lean ====
section
/-!
SUPPORT. What the head of a step, an instruction step, the end of a frame and a step can do, each said once.
-/
namespace Sys2Proof.Machine

/-! ## The end of a frame, 60 R281 -/

section
variable (s : State)

/-- The host's callback changes nothing but K and its own list. -/
theorem takeKeyInput_frame :
    takeKeyInput s = { s with keys := (takeKeyInput s).keys, keyInputs := (takeKeyInput s).keyInputs } := by
  unfold takeKeyInput
  split <;> rfl

/-- The end of a frame changes the timers, K and the counts only. -/
theorem endFrame_frame : endFrame s =
    { s with dt := tickTimer s.dt, st := tickTimer s.st, keys := (endFrame s).keys, keyInputs := (endFrame s).keyInputs,
             frameDone := 0, frames := s.frames + 1 } :=
  takeKeyInput_frame _

@[simp] theorem endFrame_run : (endFrame s).run = s.run := by rw [endFrame_frame]
@[simp] theorem endFrame_mem : (endFrame s).mem = s.mem := by rw [endFrame_frame]
@[simp] theorem endFrame_mode : (endFrame s).mode = s.mode := by rw [endFrame_frame]
@[simp] theorem endFrame_ipf : (endFrame s).ipf = s.ipf := by rw [endFrame_frame]
@[simp] theorem endFrame_quirks : (endFrame s).quirks = s.quirks := by rw [endFrame_frame]
@[simp] theorem endFrame_frec : (endFrame s).frec = s.frec := by rw [endFrame_frame]
@[simp] theorem endFrame_frameDone : (endFrame s).frameDone = 0 := by rw [endFrame_frame]
@[simp] theorem endFrame_dt : (endFrame s).dt = tickTimer s.dt := by rw [endFrame_frame]
@[simp] theorem endFrame_st : (endFrame s).st = tickTimer s.st := by rw [endFrame_frame]

end

theorem tickTimer_toNat (t : Byte) : (tickTimer t).toNat = t.toNat - 1 := by
  unfold tickTimer
  split
  · simp_all
  · rename_i h
    have : t.toNat ≠ 0 := fun e => h (BitVec.eq_of_toNat_eq (by simpa using e))
    have := t.isLt
    rw [BitVec.toNat_sub]
    change (2 ^ 8 - 1 + t.toNat) % 2 ^ 8 = t.toNat - 1
    omega

/-! ## The head of a step, 40 R120, R121 -/

/-- What the decoder accepts exists in the mode. -/
theorem existsIn_of_decode {m : Mode} {bytes rest : List Byte} {i : Instr} (h : decode m bytes = .ok (i, rest)) :
    i.existsIn m = true := by
  unfold decode at h
  split at h
  · split at h
    · rename_i hl
      split at h
      · cases h
        obtain ⟨rfl, -⟩ : m = .xochip ∧ _ := by simpa [isLong] using hl
        rfl
      · cases h
    · split at h
      · rename_i j hj
        cases h
        unfold decodeInMode at hj
        split at hj
        · split at hj
          · cases hj; assumption
          · cases hj
        · cases hj
      · cases h
  · cases h

theorem decodeFetched_cases (s : State) (w : Word) (bytes : List Byte) :
    (∃ i rest, decode s.mode bytes = .ok (i, rest) ∧ decodeFetched s w bytes = .run i (s.setPc (s.pc + 2))) ∨
      decodeFetched s w bytes = .stopped (takeFault (.unknownInstruction w) s.pc w s) := by
  unfold decodeFetched
  split
  · exact .inl ⟨_, _, ‹_›, rfl⟩
  · exact .inr rfl

/-- The head of a step finds an instruction of the mode, with pc moved past its first word, which lies inside memory; or it
takes a fault. -/
theorem fetch_cases (s : State) :
    (∃ i, fetch s = .run i (s.setPc (s.pc + 2)) ∧ i.existsIn s.mode = true ∧ s.pc.toNat ≤ 0xFFE) ∨
      (∃ f raw, fetch s = .stopped (takeFault f s.pc raw s)) := by
  unfold fetch
  split
  · exact .inr ⟨_, _, rfl⟩
  · rename_i w hw
    have pcLe : s.pc.toNat ≤ 0xFFE := by
      rw [memReadWord_eq] at hw
      split at hw
      · assumption
      · cases hw
    have key (bytes : List Byte) :
        (∃ i, decodeFetched s w bytes = .run i (s.setPc (s.pc + 2)) ∧ i.existsIn s.mode = true ∧ s.pc.toNat ≤ 0xFFE) ∨
          (∃ f raw, decodeFetched s w bytes = .stopped (takeFault f s.pc raw s)) := by
      rcases decodeFetched_cases s w bytes with ⟨i, rest, hd, hf⟩ | hf
      · exact .inl ⟨i, hf, existsIn_of_decode hd, pcLe⟩
      · exact .inr ⟨_, _, hf⟩
    split
    · split
      · exact .inr ⟨_, _, rfl⟩
      · exact key _
    · exact key _

/-! ## Steps -/

/-- An instruction step that leaves RUN other than FAULTED executed an instruction of the mode, fetched from inside memory. -/
theorem instrStep_cases {s t : State} (h : instrStep s = .next t) (good : t.run ≠ .faulted) :
    ∃ i, exec i (s.setPc (s.pc + 2)) = .next t ∧ i.existsIn s.mode = true ∧ s.pc.toNat ≤ 0xFFE := by
  unfold instrStep at h
  rcases fetch_cases s with ⟨i, hf, hm, hpc⟩ | ⟨f, raw, hf⟩
  · rw [hf] at h
    exact ⟨i, h, hm, hpc⟩
  · rw [hf] at h
    cases h
    exact absurd rfl good

/-- Every instruction step has a next state. -/
theorem instrStep_next (s : State) : ∃ t, instrStep s = .next t := by
  unfold instrStep
  cases fetch s with
  | run i t => exact exec_next i t
  | stopped t => exact ⟨t, rfl⟩

theorem afterInstr_next (u : State) : afterInstr (.next u) = .next (frameTail u) := rfl

/-- A step from a RUNNING state is the end of an empty frame (IPF = 0) or an instruction step and what the frame loop makes of
it; no other state has a step. -/
theorem step_cases {s t : State} (h : step s = .next t) :
    s.run = .running ∧
      ((s.ipf = 0 ∧ t = endFrame s) ∨ (s.ipf ≠ 0 ∧ ∃ u, instrStep s = .next u ∧ t = frameTail u)) := by
  unfold step at h
  split at h
  · refine ⟨‹_›, ?_⟩
    split at h
    · cases h
      exact .inl ⟨‹_›, rfl⟩
    · obtain ⟨u, hu⟩ := instrStep_next s
      rw [hu, afterInstr_next] at h
      cases h
      exact .inr ⟨‹_›, u, hu, rfl⟩
  · cases h
  · cases h

theorem step_running {s : State} (run : s.run = .running) (ipf : s.ipf ≠ 0) :
    step s = afterInstr (instrStep s) := by
  simp [step, run, ipf]

@[simp] theorem frameTail_run (u : State) : (frameTail u).run = u.run := by
  unfold frameTail
  split
  · rfl
  · split
    · rfl
    · exact endFrame_run u

@[simp] theorem frameTail_mem (u : State) : (frameTail u).mem = u.mem := by
  unfold frameTail
  split
  · rfl
  · split
    · rfl
    · exact endFrame_mem u

/-! ## The host's requests, 60 R283 -/

section
variable {s : State}

theorem hostView_between (run : s.run = .running) (h : s.frameDone = 0) : hostView s = .ok (viewOf s) := by
  simp [hostView, run, h]

theorem hostView_inFrame (run : s.run = .running) (h : s.frameDone ≠ 0) : hostView s = .error .readInFrame := by
  simp [hostView, run, h]

theorem hostView_ended (run : s.run ≠ .running) : hostView s = .error .readAfterEnd := if_pos run

/-- The host is shown a state only between frames of a run that goes on. -/
theorem hostView_ok {v : HostView} (h : hostView s = .ok v) : s.run = .running ∧ s.frameDone = 0 ∧ v = viewOf s := by
  unfold hostView at h
  split at h
  · cases h
  · split at h
    · cases h
      exact ⟨not_not.mp ‹_›, ‹_›, rfl⟩
    · cases h

theorem hostStatus_inFrame (run : s.run = .running) (h : s.frameDone ≠ 0) : hostStatus s = .error .readInFrame :=
  if_pos ⟨run, h⟩

theorem hostStatus_outside (h : s.run = .running → s.frameDone = 0) : hostStatus s = .ok (statusOf s) :=
  if_neg fun ⟨run, busy⟩ => busy (h run)

theorem setKey_between (down : Bool) (k : Fin 16) (h : s.frameDone = 0) :
    setKey down k s = .next { s with keys := s.keys.set k down } := if_pos h

theorem setKey_inFrame (down : Bool) (k : Fin 16) (h : s.frameDone ≠ 0) :
    setKey down k s = .refused .keyChangeInFrame := if_neg h

theorem stepFrame_inFrame (run : s.run = .running) (h : s.frameDone ≠ 0) :
    stepFrame s = .refused .stepFrameInFrame := by
  simp [stepFrame, run, h]

theorem stepFrame_stopped (run : s.run ≠ .running) : stepFrame s = .next s := by
  unfold stepFrame
  split
  · exact absurd ‹_› run
  · rfl
  · rfl

end

end Sys2Proof.Machine
end

