-- ==== Sys2Proof/Laws/Encoding.lean ====
section
/-!
SUPPORT. From a mask and a pattern to the decoded instruction: the fields that a mask of ones fixes, and `EncodedBy` for each of
the masks of 30_encoding.md R96.
-/
namespace Sys2Proof

/-! ## Fields under a mask -/

theorem fieldOP_and (w v : Word) : fieldOP (w &&& v) = fieldOP w &&& fieldOP v := BitVec.extractLsb'_and

theorem fieldX_and (w v : Word) : fieldX (w &&& v) = fieldX w &&& fieldX v := BitVec.extractLsb'_and

theorem fieldY_and (w v : Word) : fieldY (w &&& v) = fieldY w &&& fieldY v := BitVec.extractLsb'_and

theorem fieldN_and (w v : Word) : fieldN (w &&& v) = fieldN w &&& fieldN v := BitVec.extractLsb'_and

theorem fieldKK_and (w v : Word) : fieldKK (w &&& v) = fieldKK w &&& fieldKK v := BitVec.extractLsb'_and

section
variable {w mask pattern : Word} (h : w &&& mask = pattern)
include h

theorem fieldOP_of_mask (ones : fieldOP mask = 0xF) : fieldOP w = fieldOP pattern := by
  rw [← h, fieldOP_and, ones]
  exact BitVec.and_allOnes.symm

theorem fieldX_of_mask (ones : fieldX mask = 0xF) : fieldX w = fieldX pattern := by
  rw [← h, fieldX_and, ones]
  exact BitVec.and_allOnes.symm

theorem fieldY_of_mask (ones : fieldY mask = 0xF) : fieldY w = fieldY pattern := by
  rw [← h, fieldY_and, ones]
  exact BitVec.and_allOnes.symm

theorem fieldN_of_mask (ones : fieldN mask = 0xF) : fieldN w = fieldN pattern := by
  rw [← h, fieldN_and, ones]
  exact BitVec.and_allOnes.symm

theorem fieldKK_of_mask (ones : fieldKK mask = 0xFF) : fieldKK w = fieldKK pattern := by
  rw [← h, fieldKK_and, ones]
  exact BitVec.and_allOnes.symm

end

theorem ne_F000_of_fieldOP {w : Word} {op : Nibble} (h : fieldOP w = op) (ne : op ≠ 0xF) : w ≠ 0xF000 := by
  rintro rfl
  exact ne (h.symm.trans rfl)

theorem ne_F000_of_fieldKK {w : Word} {kk : Byte} (h : fieldKK w = kk) (ne : kk ≠ 0) : w ≠ 0xF000 := by
  rintro rfl
  exact ne (h.symm.trans rfl)

/-! ## A word is its fields, R91 -/

/-- Adjacent fields side by side are one field. -/
theorem extract_append_extract (w : Word) (a b k : Nat) :
    (w.extractLsb' (k + b) a ++ w.extractLsb' k b : BitVec (a + b)) = w.extractLsb' k (a + b) := by
  refine BitVec.eq_of_getLsbD_eq fun j hj => ?_
  rw [BitVec.getLsbD_append, BitVec.getLsbD_extractLsb', BitVec.getLsbD_extractLsb', BitVec.getLsbD_extractLsb']
  by_cases h : j < b
  · simp [h, hj]
  · have e : k + b + (j - b) = k + j := by omega
    simp [h, hj, e, show j - b < a by omega]

theorem packNNN_fields (w : Word) : packNNN (fieldOP w) (fieldNNN w) = w :=
  (extract_append_extract w 4 12 0).trans BitVec.extractLsb'_eq_self

theorem packXKK_fields (w : Word) : packXKK (fieldOP w) (regOf (fieldX w)) (fieldKK w) = w := by
  change ((w.extractLsb' 12 4 ++ w.extractLsb' 8 4 : BitVec (4 + 4)) ++ w.extractLsb' 0 8 : BitVec (8 + 8)) = w
  rw [extract_append_extract w 4 4 8]
  exact (extract_append_extract w 8 8 0).trans BitVec.extractLsb'_eq_self

theorem packNibbles_fields (w : Word) : packNibbles (fieldOP w) (fieldX w) (fieldY w) (fieldN w) = w := by
  change ((w.extractLsb' 12 4 ++ w.extractLsb' 8 4 : BitVec (4 + 4)) ++ w.extractLsb' 4 4 ++ w.extractLsb' 0 4 :
    BitVec (8 + 4 + 4)) = w
  rw [extract_append_extract w 4 4 8, extract_append_extract w 8 4 4]
  exact (extract_append_extract w 12 4 0).trans BitVec.extractLsb'_eq_self

theorem fieldKK_eq (w : Word) : fieldKK w = fieldY w ++ fieldN w := (extract_append_extract w 4 4 0).symm

theorem fieldNNN_eq (w : Word) : fieldNNN w = fieldX w ++ fieldY w ++ fieldN w := by
  change _ = ((w.extractLsb' 8 4 ++ w.extractLsb' 4 4 : BitVec (4 + 4)) ++ w.extractLsb' 0 4 : BitVec (8 + 4))
  rw [extract_append_extract w 4 4 4]
  exact (extract_append_extract w 8 4 0).symm

theorem fieldY_eq (w : Word) : fieldY w = (fieldKK w).extractLsb' 4 4 := by
  rw [fieldKK_eq]
  exact BitVec.extractLsb'_append_eq_left.symm

theorem fieldN_eq (w : Word) : fieldN w = (fieldKK w).extractLsb' 0 4 := by
  rw [fieldKK_eq]
  exact BitVec.extractLsb'_append_eq_right.symm

/-! ## What decodes to an instruction has its word -/

section
variable {w : Word} {i : Instr}

theorem firstWord_of_decodeOp0 (h : decodeOp0 w = some i) (op : fieldOP w = 0) :
    i.firstWord = w ∧ i.operandBytes = [] := by
  have c := packNibbles_fields w
  unfold decodeOp0 at h
  split at h <;> cases h <;> (refine ⟨?_, rfl⟩; simp only [*] at c; exact c)

theorem firstWord_of_decodeOp5 (h : decodeOp5 w = some i) (op : fieldOP w = 5) :
    i.firstWord = w ∧ i.operandBytes = [] := by
  have c := packNibbles_fields w
  unfold decodeOp5 at h
  split at h <;> cases h <;> (refine ⟨?_, rfl⟩; simp only [*] at c; exact c)

theorem firstWord_of_decodeOp8 (h : decodeOp8 w = some i) (op : fieldOP w = 8) :
    i.firstWord = w ∧ i.operandBytes = [] := by
  have c := packNibbles_fields w
  unfold decodeOp8 at h
  split at h <;> cases h <;> (refine ⟨?_, rfl⟩; simp only [*] at c; exact c)

theorem firstWord_of_decodeOp9 (h : decodeOp9 w = some i) (op : fieldOP w = 9) :
    i.firstWord = w ∧ i.operandBytes = [] := by
  have c := packNibbles_fields w
  unfold decodeOp9 at h
  split at h
  · cases h
    refine ⟨?_, rfl⟩
    simp only [*] at c
    exact c
  · cases h

theorem firstWord_of_decodeOpE (h : decodeOpE w = some i) (op : fieldOP w = 0xE) :
    i.firstWord = w ∧ i.operandBytes = [] := by
  have c := packXKK_fields w
  unfold decodeOpE at h
  split at h <;> cases h <;> (refine ⟨?_, rfl⟩; simp only [*] at c; exact c)

theorem firstWord_of_decodeOpF (h : decodeOpF w = some i) (op : fieldOP w = 0xF) :
    i.firstWord = w ∧ i.operandBytes = [] := by
  have c := packXKK_fields w
  unfold decodeOpF at h
  split at h
  case h_1 hk =>
    cases h
    have e := packNibbles_fields w
    rw [op, fieldY_eq, fieldN_eq, hk] at e
    exact ⟨e, rfl⟩
  case h_2 hk =>
    split at h <;> cases h
    rename_i hx
    rw [op, hk, hx] at c
    exact ⟨c, rfl⟩
  all_goals cases h <;> (refine ⟨?_, rfl⟩; simp only [*] at c; exact c)

end

/-- No bit of a one-word instruction is dropped by the decoder. -/
theorem firstWord_of_decodeShort {w : Word} {i : Instr} (h : decodeShort w = some i) :
    i.firstWord = w ∧ i.operandBytes = [] := by
  unfold decodeShort at h
  simp only at h
  split at h
  case h_1 e => exact firstWord_of_decodeOp0 h e
  case h_6 e => exact firstWord_of_decodeOp5 h e
  case h_9 e => exact firstWord_of_decodeOp8 h e
  case h_10 e => exact firstWord_of_decodeOp9 h e
  case h_15 e => exact firstWord_of_decodeOpE h e
  case h_16 =>
    refine firstWord_of_decodeOpF h ?_
    generalize fieldOP w = op at *
    revert op
    decide
  case h_14 e =>
    cases h
    have c := packNibbles_fields w
    rw [e] at c
    exact ⟨c, rfl⟩
  all_goals
    rename_i e
    cases h
    refine ⟨?_, rfl⟩
    first
      | (have c := packXKK_fields w; rw [e] at c; exact c)
      | (have c := packNNN_fields w; rw [e] at c; exact c)

/-- The word of an instruction lies in its row of the opcode map. -/
theorem Instr.row_spec : (i : Instr) → i.firstWord &&& i.row.mask = i.row.pattern ∧ i.row ∈ opcodeMap
  | .scd _ => Laws.Encoding.scd _
  | .scu _ => Laws.Encoding.scu _
  | .cls => Laws.Encoding.cls
  | .ret => Laws.Encoding.ret
  | .scr => Laws.Encoding.scr
  | .scl => Laws.Encoding.scl
  | .exit => Laws.Encoding.exit
  | .low => Laws.Encoding.low
  | .high => Laws.Encoding.high
  | .jp _ => Laws.Encoding.jp _
  | .call _ => Laws.Encoding.call _
  | .seImm _ _ => Laws.Encoding.seImm _ _
  | .sneImm _ _ => Laws.Encoding.sneImm _ _
  | .seReg _ _ => Laws.Encoding.seReg _ _
  | .storeRange _ _ => Laws.Encoding.storeRange _ _
  | .loadRange _ _ => Laws.Encoding.loadRange _ _
  | .ldImm _ _ => Laws.Encoding.ldImm _ _
  | .addImm _ _ => Laws.Encoding.addImm _ _
  | .ldReg _ _ => Laws.Encoding.ldReg _ _
  | .or _ _ => Laws.Encoding.or _ _
  | .and _ _ => Laws.Encoding.and _ _
  | .xor _ _ => Laws.Encoding.xor _ _
  | .add _ _ => Laws.Encoding.add _ _
  | .sub _ _ => Laws.Encoding.sub _ _
  | .shr _ _ => Laws.Encoding.shr _ _
  | .subn _ _ => Laws.Encoding.subn _ _
  | .shl _ _ => Laws.Encoding.shl _ _
  | .sneReg _ _ => Laws.Encoding.sneReg _ _
  | .ldI _ => Laws.Encoding.ldI _
  | .jpV0 _ => Laws.Encoding.jpV0 _
  | .rnd _ _ => Laws.Encoding.rnd _ _
  | .drw _ _ _ => Laws.Encoding.drw _ _ _
  | .skp _ => Laws.Encoding.skp _
  | .sknp _ => Laws.Encoding.sknp _
  | .ldILong _ => Laws.Encoding.ldILong _
  | .plane _ => Laws.Encoding.plane _
  | .audio => Laws.Encoding.audio
  | .getDelay _ => Laws.Encoding.getDelay _
  | .waitKey _ => Laws.Encoding.waitKey _
  | .setDelay _ => Laws.Encoding.setDelay _
  | .setSound _ => Laws.Encoding.setSound _
  | .addI _ => Laws.Encoding.addI _
  | .ldF _ => Laws.Encoding.ldF _
  | .ldHF _ => Laws.Encoding.ldHF _
  | .bcd _ => Laws.Encoding.bcd _
  | .pitch _ => Laws.Encoding.pitch _
  | .storeRegs _ => Laws.Encoding.storeRegs _
  | .loadRegs _ => Laws.Encoding.loadRegs _
  | .storeRpl _ => Laws.Encoding.storeRpl _
  | .loadRpl _ => Laws.Encoding.loadRpl _

theorem Instr.existsIn_iff (i : Instr) (m : Mode) : i.existsIn m = true ↔ m ∈ i.row.modes := by simp [Instr.existsIn]

/-- A word that is no long instruction is decoded alone; what follows it is left. -/
theorem decode_short (m : Mode) (w : Word) (rest : List Byte) (notLong : isLong m w = false) :
    decode m (bytesOf w ++ rest) = match decodeInMode m w with
      | .ok i => .ok (i, rest)
      | .error e => .error e := by
  cases h : decodeInMode m w <;> simp [bytesOf, decode, wordOf_bytes, notLong, h]

theorem decode_long (w second : Word) (rest : List Byte) (long : w = 0xF000) :
    decode .xochip (bytesOf w ++ (bytesOf second ++ rest)) = .ok (.ldILong second, rest) := by
  subst long
  simp [bytesOf, decode, isLong]

end Sys2Proof

namespace Sys2Proof.Machine

/-! ## EncodedBy, one lemma for each mask -/

section
variable {pattern : Word} {modes : List Mode} {read : Word → Instr}

theorem encodedBy_of_decodeShort {mask : Word} (short : ∀ w, w &&& mask = pattern → decodeShort w = some (read w))
    (notLong : ∀ w, w &&& mask = pattern → w ≠ 0xF000) (gate : ∀ w m, (read w).existsIn m = decide (m ∈ modes)) :
    EncodedBy mask pattern modes read := by
  intro m w h
  have ne := notLong w h
  have nl : isLong m w = false := by
    simp only [isLong, Bool.and_eq_false_iff, beq_eq_false_iff_ne]
    exact .inr ne
  have d := decode_short m w [] nl
  rw [List.append_nil] at d
  simp only [decodeInMode, short w h, gate] at d
  by_cases hm : m ∈ modes
  · simpa [hm, Decodes] using d
  · simpa [hm, Unknown] using d

/-- Formats NNN and XKK, and `Dxyn`. -/
theorem encodedBy_op (op : Nibble) (hop : fieldOP pattern = op) (ne : op ≠ 0xF)
    (short : ∀ w, fieldOP w = op → decodeShort w = some (read w))
    (gate : ∀ w m, (read w).existsIn m = decide (m ∈ modes)) : EncodedBy 0xF000 pattern modes read :=
  encodedBy_of_decodeShort (fun w h => short w ((fieldOP_of_mask h rfl).trans hop))
    (fun _ h => ne_F000_of_fieldOP ((fieldOP_of_mask h rfl).trans hop) ne) gate

/-- Format XYN. -/
theorem encodedBy_opN (op n : Nibble) (hop : fieldOP pattern = op) (hn : fieldN pattern = n) (ne : op ≠ 0xF)
    (short : ∀ w, fieldOP w = op → fieldN w = n → decodeShort w = some (read w))
    (gate : ∀ w m, (read w).existsIn m = decide (m ∈ modes)) : EncodedBy 0xF00F pattern modes read :=
  encodedBy_of_decodeShort
    (fun w h => short w ((fieldOP_of_mask h rfl).trans hop) ((fieldN_of_mask h rfl).trans hn))
    (fun _ h => ne_F000_of_fieldOP ((fieldOP_of_mask h rfl).trans hop) ne) gate

/-- Format XSS. -/
theorem encodedBy_opKK (op : Nibble) (kk : Byte) (hop : fieldOP pattern = op) (hkk : fieldKK pattern = kk) (ne : kk ≠ 0)
    (short : ∀ w, fieldOP w = op → fieldKK w = kk → decodeShort w = some (read w))
    (gate : ∀ w m, (read w).existsIn m = decide (m ∈ modes)) : EncodedBy 0xF0FF pattern modes read :=
  encodedBy_of_decodeShort
    (fun w h => short w ((fieldOP_of_mask h rfl).trans hop) ((fieldKK_of_mask h rfl).trans hkk))
    (fun _ h => ne_F000_of_fieldKK ((fieldKK_of_mask h rfl).trans hkk) ne) gate

/-- Format N4. -/
theorem encodedBy_opXY (op x y : Nibble) (hop : fieldOP pattern = op) (hx : fieldX pattern = x) (hy : fieldY pattern = y)
    (ne : op ≠ 0xF) (short : ∀ w, fieldOP w = op → fieldX w = x → fieldY w = y → decodeShort w = some (read w))
    (gate : ∀ w m, (read w).existsIn m = decide (m ∈ modes)) : EncodedBy 0xFFF0 pattern modes read :=
  encodedBy_of_decodeShort
    (fun w h => short w ((fieldOP_of_mask h rfl).trans hop) ((fieldX_of_mask h rfl).trans hx)
      ((fieldY_of_mask h rfl).trans hy))
    (fun _ h => ne_F000_of_fieldOP ((fieldOP_of_mask h rfl).trans hop) ne) gate

/-- Format FIXED. -/
theorem encodedBy_all {i : Instr} (ne : pattern ≠ 0xF000) (short : decodeShort pattern = some i)
    (gate : ∀ m, i.existsIn m = decide (m ∈ modes)) : EncodedBy 0xFFFF pattern modes (fun _ => i) := by
  have key (w : Word) (h : w &&& 0xFFFF = pattern) : w = pattern := by
    rw [← h]
    exact BitVec.and_allOnes.symm
  exact encodedBy_of_decodeShort (fun w h => by rw [key w h, short]) (fun w h => by rwa [key w h]) (fun _ => gate)

end

end Sys2Proof.Machine
end

