-- ==== Sys2Proof/Laws/Plane.lean ====
section
/-!
SUPPORT. The display at the level of pixels: flipping one, replacing the active area, scrolling, and what drawing leaves alone.
-/
namespace Sys2Proof.Machine

/-! ## Sizes -/

theorem State.width_pos (s : State) : 0 < s.width := by unfold State.width; split <;> decide
theorem State.height_pos (s : State) : 0 < s.height := by unfold State.height; split <;> decide
theorem State.width_le (s : State) : s.width ≤ 128 := by unfold State.width; split <;> decide
theorem State.height_le (s : State) : s.height ≤ 64 := by unfold State.height; split <;> decide
theorem State.sixteen_le_width (s : State) : 16 ≤ s.width := by unfold State.width; split <;> decide
theorem State.sixteen_le_height (s : State) : 16 ≤ s.height := by unfold State.height; split <;> decide

/-! ## Pixels -/

theorem Plane.row_of_le {p : Plane} {y : Nat} (h : 64 ≤ y) : p.row y = 0 := dif_neg (by omega)

theorem Plane.pixel_of_le_y {p : Plane} {x y : Nat} (h : 64 ≤ y) : p.pixel x y = false := by
  simp [Plane.pixel, Plane.row_of_le h]

theorem Plane.pixel_of_le_x {p : Plane} {x y : Nat} (h : 128 ≤ x) : p.pixel x y = false :=
  BitVec.getLsbD_of_ge _ _ h

@[simp] theorem Plane.row_blank (y : Nat) : Plane.blank.row y = 0 := by
  unfold Plane.row Plane.blank
  split <;> simp

@[simp] theorem Plane.pixel_blank (x y : Nat) : Plane.blank.pixel x y = false := by simp [Plane.pixel]

/-- Planes with the same pixels are the same plane. -/
theorem Plane.eq_of_pixel_eq {p q : Plane} (h : ∀ x y, x < 128 → y < 64 → p.pixel x y = q.pixel x y) : p = q := by
  refine Vector.ext fun y hy => BitVec.eq_of_getLsbD_eq fun x hx => ?_
  simpa [Plane.pixel, Plane.row, hy] using h x y hx hy

/-- Flipping a pixel changes that pixel and no other. -/
theorem Plane.pixel_flip (p : Plane) (x y x' y' : Nat) :
    (p.flip x y).pixel x' y' = if x' = x ∧ y' = y ∧ x < 128 ∧ y < 64 then !p.pixel x' y' else p.pixel x' y' := by
  unfold Plane.flip Plane.pixel Plane.row
  by_cases hy : y < 64
  · by_cases hy' : y' < 64
    · by_cases e : y' = y
      · subst e
        by_cases ex : x' = x
        · subst ex
          by_cases hx : x' < 128 <;> simp [hy', hx, BitVec.getLsbD_xor, BitVec.getLsbD_twoPow]
        · simp [hy', ex, Ne.symm ex, BitVec.getLsbD_xor, BitVec.getLsbD_twoPow]
      · simp [hy, hy', e, Ne.symm e]
    · have : y' ≠ y := by omega
      simp [hy', this]
  · simp [hy]

/-! ## The active area -/

theorem getLsbD_rowMask {w : Nat} (h : w ≤ 128) (x : Nat) : (rowMask w).getLsbD x = decide (x < w) := by
  simp only [rowMask, BitVec.getLsbD_ofNat, Nat.testBit_two_pow_sub_one]
  by_cases hx : x < w
  · simp [hx, lt_of_lt_of_le hx h]
  · simp [hx]

theorem Plane.pixel_mapActive {w h : Nat} (hw : w ≤ 128) (hh : h ≤ 64) (new : Nat → BitVec 128) (p : Plane) (x y : Nat) :
    (p.mapActive w h new).pixel x y = if x < w ∧ y < h then (new y).getLsbD x else p.pixel x y := by
  by_cases hy : y < 64
  · by_cases hin : y < h
    · by_cases hx : x < w
      · have : x < 128 := by omega
        simp [Plane.pixel, Plane.row, Plane.mapActive, hy, hin, getLsbD_rowMask hw, hx]
      · by_cases hx' : x < 128
        · have m : (rowMask w)[x] = false := by
            rw [← BitVec.getLsbD_eq_getElem, getLsbD_rowMask hw, decide_eq_false hx]
          simp [Plane.pixel, Plane.row, Plane.mapActive, hy, hin, hx, hx', m]
        · rw [Plane.pixel_of_le_x (by omega), Plane.pixel_of_le_x (by omega), if_neg (by omega)]
    · simp [Plane.pixel, Plane.row, Plane.mapActive, hy, hin]
  · rw [Plane.pixel_of_le_y (by omega), Plane.pixel_of_le_y (by omega), if_neg (by omega)]

/-- Replacing the active area keeps what lies outside it. -/
theorem Plane.quietOutside_mapActive {w h : Nat} (hw : w ≤ 128) (hh : h ≤ 64) (new : Nat → BitVec 128) {p : Plane}
    (q : p.quietOutside w h) : (p.mapActive w h new).quietOutside w h := fun x y out => by
  rw [Plane.pixel_mapActive hw hh, if_neg (by omega)]
  exact q x y out

theorem Plane.quietOutside_blank (w h : Nat) : Plane.blank.quietOutside w h := fun _ _ _ => Plane.pixel_blank _ _

/-! ## Drawing: what stays -/

theorem drawRow_pixel_of_outside {clip : Bool} {w y px : Nat} {bits : List Bool} (fit : px + bits.length ≤ 2 * w)
    {x' y' : Nat} (out : w ≤ x' ∨ y' ≠ y) (acc : Plane × Bool) :
    (drawRow clip w y px bits acc).1.pixel x' y' = acc.1.pixel x' y' := by
  induction bits generalizing px acc with
  | nil => rfl
  | cons b bits ih =>
    obtain ⟨p, hit⟩ := acc
    simp only [List.length_cons] at fit
    rw [drawRow]
    split
    · rfl
    · rw [ih (by omega)]
      cases b
      · rfl
      · refine (Plane.pixel_flip p _ y x' y').trans (if_neg ?_)
        split <;> omega

theorem drawRows_pixel_of_outside {clip : Bool} {w h x0 py : Nat} {rows : List (List Bool)}
    (fitY : py + rows.length ≤ 2 * h) (fitX : ∀ row ∈ rows, x0 + row.length ≤ 2 * w) {x' y' : Nat}
    (out : w ≤ x' ∨ h ≤ y') (acc : Plane × Bool) :
    (drawRows clip w h x0 py rows acc).1.pixel x' y' = acc.1.pixel x' y' := by
  induction rows generalizing py acc with
  | nil => rfl
  | cons row rows ih =>
    simp only [List.length_cons] at fitY
    rw [drawRows]
    split
    · rfl
    · rw [ih (by omega) (fun r hr => fitX r (by simp [hr])), drawRow_pixel_of_outside (fitX row (by simp))]
      split <;> omega

/-- Drawing never touches a pixel outside the active area (10_state.md R34). -/
theorem drawSprite_pixel_of_outside {clip : Bool} {w h : Nat} {x y : Byte} {rows : List (List Bool)} (hw : 0 < w)
    (hh : 0 < h) (fewRows : rows.length ≤ h) (narrow : ∀ row ∈ rows, row.length ≤ w) {x' y' : Nat}
    (out : w ≤ x' ∨ h ≤ y') (p : Plane) : (drawSprite clip w h x y rows p).1.pixel x' y' = p.pixel x' y' := by
  have := Nat.mod_lt x.toNat hw
  have := Nat.mod_lt y.toNat hh
  exact drawRows_pixel_of_outside (by omega) (fun row hr => by have := narrow row hr; omega) out _

/-! ## Sprite rows -/

theorem spriteRows8_length (bytes : List Byte) : (spriteRows8 bytes).length = bytes.length := by simp [spriteRows8]

theorem length_of_mem_spriteRows8 {bytes : List Byte} {row : List Bool} (h : row ∈ spriteRows8 bytes) : row.length = 8 := by
  obtain ⟨b, -, rfl⟩ := List.mem_map.1 h
  rfl

theorem spriteRows16_length (bytes : List Byte) : (spriteRows16 bytes).length = bytes.length / 2 := by
  induction bytes using spriteRows16.induct with
  | case1 l r rest ih =>
    simp only [spriteRows16, List.length_cons, ih]
    omega
  | case2 bytes h =>
    match bytes, h with
    | [], _ => rfl
    | [b], _ => simp [spriteRows16]
    | l :: r :: rest, h => exact absurd rfl (h l r rest)

theorem length_of_mem_spriteRows16 {bytes : List Byte} {row : List Bool} (h : row ∈ spriteRows16 bytes) :
    row.length = 16 := by
  induction bytes using spriteRows16.induct with
  | case1 l r rest ih =>
    rcases List.mem_cons.1 (by simpa [spriteRows16] using h) with rfl | h
    · rfl
    · exact ih h
  | case2 bytes hb =>
    match bytes, hb with
    | [], _ => simp [spriteRows16] at h
    | [b], _ => simp [spriteRows16] at h
    | l :: r :: rest, hb => exact absurd rfl (hb l r rest)

/-- A sprite has at most 16 rows of at most 16 pixels. -/
theorem State.spriteAt_bounds {s : State} {n : Nibble} {a : Nat} {rows : List (List Bool)}
    (h : s.spriteAt n a = .ok rows) : rows.length ≤ 16 ∧ ∀ row ∈ rows, row.length ≤ 16 := by
  have hn := n.isLt
  unfold State.spriteAt at h
  rw [memReadBytes_eq] at h
  split at h
  · cases h
  · rename_i bytes hb
    have hlen : bytes.length = s.spriteSize n := by
      split at hb
      · cases hb; simp
      · cases hb
    cases h
    by_cases big : s.isBigSprite n = true
    · simp only [State.spriteSize, big, if_true] at hlen ⊢
      refine ⟨by simp [spriteRows16_length, hlen], fun row hr => (length_of_mem_spriteRows16 hr).le⟩
    · simp only [State.spriteSize, big] at hlen ⊢
      refine ⟨?_, fun row hr => ?_⟩
      · simp only [Bool.false_eq_true, if_false] at hlen ⊢
        rw [spriteRows8_length, hlen]; omega
      · have := length_of_mem_spriteRows8 (by simpa using hr)
        omega

/-- `Dxyn` never touches a pixel outside the active area. -/
theorem State.drawPlane_quietOutside {s : State} {x y : Reg} {n : Nibble} {a : Nat} {p : Plane} {r : Plane × Bool}
    (h : s.drawPlane x y n a p = .ok r) (q : p.quietOutside s.width s.height) : r.1.quietOutside s.width s.height := by
  unfold State.drawPlane at h
  split at h
  · cases h
  · rename_i rows hrows
    cases h
    obtain ⟨few, narrow⟩ := State.spriteAt_bounds hrows
    intro x' y' out
    have := s.sixteen_le_width
    have := s.sixteen_le_height
    rw [drawSprite_pixel_of_outside s.width_pos s.height_pos (by omega) (fun row hr => by have := narrow row hr; omega) out]
    exact q x' y' out

end Sys2Proof.Machine
end

