-- ==== Sys2Proof/Laws/Frames.lean ====
section
/-!
SUPPORT. The frame of each shared operation, once: what it can change when it completes.
-/
namespace Sys2Proof.Machine

section
variable {s t : State}

theorem State.skipIf_frame {c : Bool} (h : s.skipIf c = .ok t) : ∃ a, t = s.setPc a := by
  rcases State.skipIf_cases h with rfl | rfl | rfl <;> exact ⟨_, rfl⟩

theorem State.pop_frame {a : Word} (h : s.pop = .ok (a, t)) : ∃ sp, t = s.setStack s.stack sp := by
  unfold State.pop at h
  split at h <;> cases h
  exact ⟨_, rfl⟩

theorem State.push_frame {a : Word} (h : s.push a = .ok t) : ∃ stack sp, t = s.setStack stack sp := by
  unfold State.push at h
  split at h <;> cases h
  exact ⟨_, _, rfl⟩

theorem State.storeAtI_frame {bytes : List Byte} (h : s.storeAtI bytes = .ok t) :
    ∃ m, memWriteBytes s.mem (s.ea 0) bytes = .ok m ∧ t = s.setMem m := by
  unfold State.storeAtI at h
  split at h <;> cases h
  exact ⟨_, ‹_›, rfl⟩

theorem State.loadFromI_frame {rs : List Reg} (h : s.loadFromI rs = .ok t) :
    ∃ bytes, memReadBytes s.mem (s.ea 0) rs.length = .ok bytes ∧ t = s.setRegs (rs.zip bytes) := by
  unfold State.loadFromI at h
  split at h <;> cases h
  exact ⟨_, ‹_›, rfl⟩

theorem State.pointAtGlyph_frame {x : Reg} {size : FontSize} (h : s.pointAtGlyph x size = .ok t) :
    ∃ a, fontAddress s.mode (s.reg x) size = .ok a ∧ t = s.setI a := by
  unfold State.pointAtGlyph at h
  split at h <;> cases h
  exact ⟨_, ‹_›, rfl⟩

theorem State.selectPlanes_frame {mask : Nibble} (h : s.selectPlanes mask = .ok t) : ∃ sel, t = s.setSel sel := by
  unfold State.selectPlanes at h
  split at h <;> cases h <;> exact ⟨_, rfl⟩

theorem State.setRegs_exists (s : State) (l : List (Reg × Byte)) : ∃ v, s.setRegs l = { s with v := v } :=
  ⟨_, State.setRegs_frame s l⟩

theorem State.takeKey_frame (s : State) (x : Reg) :
    s.takeKey x = s.setPc (s.pc - 2) ∨ (∃ b, s.takeKey x = s.setReg x b) ∨ ∃ b, s.takeKey x = (s.setReg x b).drawn := by
  unfold State.takeKey
  split
  · exact .inl rfl
  · exact .inr (.inl ⟨_, rfl⟩)
  · exact .inr (.inr ⟨_, rfl⟩)

theorem State.bumpI_frame (s : State) (x : Reg) : s.bumpI x = s ∨ ∃ n, s.quirks.memIncrementsI = true ∧ s.bumpI x = s.setI n := by
  unfold State.bumpI
  split
  · exact .inr ⟨_, ‹_›, rfl⟩
  · exact .inl rfl

theorem State.setLogic_frame (s : State) (x : Reg) (b : Byte) :
    s.setLogic x b = s.setReg x b ∨ (s.quirks.logicResetsVF = true ∧ s.setLogic x b = (s.setReg x b).setReg VF 0) := by
  unfold State.setLogic
  split
  · exact .inr ⟨‹_›, rfl⟩
  · exact .inl rfl

/-- A drawing that completes changes VF and the selected planes, and nothing outside their active area. -/
theorem State.drawSelected_frame {x y : Reg} {n : Nibble} (h : s.drawSelected x y n = .ok t) :
    ∃ p q b, t = (s.setPlanes p q).setReg VF b ∧ (s.sel = .second → p = s.p1) ∧ (s.sel = .first → q = s.p2) ∧
      (s.p1.quietOutside s.width s.height → p.quietOutside s.width s.height) ∧
      (s.p2.quietOutside s.width s.height → q.quietOutside s.width s.height) := by
  unfold State.drawSelected at h
  split at h
  · split at h <;> cases h
    rename_i hp
    exact ⟨_, _, _, rfl, by simp [*], fun _ => rfl, State.drawPlane_quietOutside hp, id⟩
  · split at h <;> cases h
    rename_i hp
    exact ⟨_, _, _, rfl, fun _ => rfl, by simp [*], id, State.drawPlane_quietOutside hp⟩
  · split at h
    · cases h
    · rename_i hp
      split at h <;> cases h
      rename_i hq
      exact ⟨_, _, _, rfl, by simp [*], by simp [*], State.drawPlane_quietOutside hp, State.drawPlane_quietOutside hq⟩

end

/-! ## The faults of each shared operation, 60_exceptions.md R271 -/

theorem State.skipIf_error {s : State} {c : Bool} {f : CoreFault} (h : s.skipIf c = .error f) :
    ∃ a, f = .memRead a ∧ 0xFFF < a ∧ s.mode = .xochip := by
  cases c
  · cases h
  · have h : s.skip = .error f := h
    by_cases m : s.mode = .xochip
    · by_cases pc : s.pc.toNat ≤ 0xFFE
      · rw [State.skip_xochip m pc] at h; cases h
      · rw [State.skip_faults m (by omega)] at h; cases h; exact ⟨_, rfl, by omega, m⟩
    · rw [State.skip_plain m] at h; cases h

theorem memReadBytes_error {m : Memory} {a n : Nat} {f : CoreFault} (h : memReadBytes m a n = .error f) :
    ∃ a, f = .memRead a ∧ 0xFFF < a := by
  rw [memReadBytes_eq] at h
  split at h <;> cases h
  exact ⟨_, rfl, by omega⟩

theorem memWriteBytes_error {m : Memory} {a : Nat} {bs : List Byte} {f : CoreFault} (h : memWriteBytes m a bs = .error f) :
    ∃ a, f = .memWrite a ∧ (a < 0x200 ∨ 0xFFF < a) := by
  by_cases e : bs = []
  · subst e; cases h
  · by_cases bad : a < 0x200 ∨ 0x1000 < a + bs.length
    · rw [memWriteBytes_faults m e bad] at h; cases h
      refine ⟨_, rfl, ?_⟩; split <;> omega
    · obtain ⟨m', hm⟩ := memWriteBytes_completes m (a := a) (bs := bs) (by omega) (by omega)
      rw [hm] at h; cases h

theorem State.storeAtI_error {s : State} {bytes : List Byte} {f : CoreFault} (h : s.storeAtI bytes = .error f) :
    ∃ a, f = .memWrite a ∧ (a < 0x200 ∨ 0xFFF < a) := by
  unfold State.storeAtI at h
  split at h <;> cases h
  exact memWriteBytes_error ‹_›

theorem State.loadFromI_error {s : State} {rs : List Reg} {f : CoreFault} (h : s.loadFromI rs = .error f) :
    ∃ a, f = .memRead a ∧ 0xFFF < a := by
  unfold State.loadFromI at h
  split at h <;> cases h
  exact memReadBytes_error ‹_›

theorem State.drawPlane_error {s : State} {x y : Reg} {n : Nibble} {a : Nat} {p : Plane} {f : CoreFault}
    (h : s.drawPlane x y n a p = .error f) :
    ∃ a, f = .memRead a ∧ 0xFFF < a := by
  unfold State.drawPlane State.spriteAt at h
  split at h <;> cases h
  rename_i h
  split at h <;> cases h
  exact memReadBytes_error ‹_›

theorem State.drawSelected_error {s : State} {x y : Reg} {n : Nibble} {f : CoreFault}
    (h : s.drawSelected x y n = .error f) :
    ∃ a, f = .memRead a ∧ 0xFFF < a := by
  unfold State.drawSelected at h
  split at h
  · split at h <;> cases h
    exact State.drawPlane_error ‹_›
  · split at h <;> cases h
    exact State.drawPlane_error ‹_›
  · split at h
    · cases h; exact State.drawPlane_error ‹_›
    · split at h <;> cases h
      exact State.drawPlane_error ‹_›

theorem State.keyOf_error {s : State} {k : Byte} {f : CoreFault} (h : s.keyOf k = .error f) :
    f = .keyIndex k ∧ 0xF < k.toNat := by
  unfold State.keyOf at h
  split at h <;> cases h
  exact ⟨rfl, by omega⟩

theorem rplCountCheck_error {m : Mode} {x : Reg} {f : CoreFault} (h : rplCountCheck m x = .error f) :
    f = .rplCount x ∧ m = .schip ∧ 7 < x.val := by
  unfold rplCountCheck at h
  split at h <;> cases h
  exact ⟨rfl, ‹_›⟩

theorem rplCountCheck_ok {m : Mode} {x : Reg} {u : Unit} (h : rplCountCheck m x = .ok u) :
    ¬ (m = .schip ∧ 7 < x.val) := by
  unfold rplCountCheck at h
  split at h
  · cases h
  · assumption

theorem rplWriteAll_error {r : Vector Byte 8} {k : Nat} {bs : List Byte} {f : CoreFault} (hk : k ≤ 8)
    (h : rplWriteAll r k bs = .error f) :
    f = .rplIndex 8 ∧ 8 < k + bs.length := by
  induction bs generalizing r k with
  | nil => cases h
  | cons b bs ih =>
    rw [rplWriteAll] at h
    by_cases e : k < 8
    · simp only [rplWrite, e, dite_true] at h
      obtain ⟨a, b⟩ := ih (by omega) h
      exact ⟨a, by simp; omega⟩
    · simp only [rplWrite, e, dite_false] at h
      cases h
      obtain rfl : k = 8 := by omega
      exact ⟨rfl, by simp⟩

theorem rplReadAll_error {r : Vector Byte 8} {k n : Nat} {f : CoreFault} (hk : k ≤ 8) (h : rplReadAll r k n = .error f) :
    f = .rplIndex 8 ∧ 8 < k + n := by
  induction n generalizing k f with
  | zero => cases h
  | succ n ih =>
    rw [rplReadAll] at h
    by_cases e : k < 8
    · simp only [rplRead, e, dite_true] at h
      split at h <;> cases h
      rename_i h
      obtain ⟨a, b⟩ := ih (k := k+1) (by omega) h
      exact ⟨a, by omega⟩
    · simp only [rplRead, e, dite_false] at h
      cases h
      obtain rfl : k = 8 := by omega
      exact ⟨rfl, by omega⟩

end Sys2Proof.Machine
end

