-- ==== Sys2Proof/Laws/Complete.lean ====
section
/-!
SUPPORT. From an instruction's equation to the forms in which statements say that it completes, faults, skips or sets registers;
and what the head of a step does with a word that decodes.
-/
namespace Sys2Proof.Machine

/-! ## Which modes have an instruction -/

theorem Instr.existsIn_of_all (i : Instr) (h : i.row.modes = allModes) (m : Mode) : i.existsIn m = true := by
  simp only [Instr.existsIn, h]; cases m <;> rfl

theorem Instr.existsIn_of_schip (i : Instr) (h : i.row.modes = schipModes) {m : Mode} (hm : m ≠ .chip8) :
    i.existsIn m = true := by
  simp only [Instr.existsIn, h]; cases m <;> first | rfl | exact absurd rfl hm

theorem Instr.existsIn_of_xochip (i : Instr) (h : i.row.modes = xochipModes) {m : Mode} (hm : m = .xochip) :
    i.existsIn m = true := by
  subst hm; simp only [Instr.existsIn, h]; rfl

/-! ## Outcomes -/

section
variable {i : Instr} {s t : State} {f : CoreFault}

theorem exec_completes (hm : i.existsIn s.mode = true) (h : exec i s = dispatch i s (.ok t)) : exec i s = .next t :=
  h.trans (dispatch_ok hm)

theorem exec_faults (hm : i.existsIn s.mode = true) (h : exec i s = dispatch i s (.error f)) :
    Faults (exec i s) f (s.pc - 2) i.firstWord := by
  rw [h, dispatch_error hm]; exact faults_raise _ _ _

theorem setsRegisters_of {new : Reg → Nat} (hm : i.existsIn s.mode = true) (h : exec i s = dispatch i s (.ok t))
    (hr : ∀ r, (t.reg r).toNat = new r) (frame : t = { s with v := t.v }) : SetsRegisters i s new :=
  ⟨t, exec_completes hm h, hr, frame⟩

theorem skipsWhen_of {c : Prop} {b : Bool} (hm : i.existsIn s.mode = true) (hb : b = true ↔ c)
    (e : exec i s = dispatch i s (s.skipIf b)) : SkipsWhen c i s := by
  refine ⟨fun h => ?_, fun h m => ?_, fun h m pc => ?_, fun h m pc => ?_⟩
  · have : b = false := by cases b <;> simp_all
    subst this; exact exec_completes hm e
  all_goals rw [hb.2 h] at e
  · rw [e]; change dispatch i s s.skip = _; rw [State.skip_plain m, dispatch_ok hm]; rfl
  · rw [e]; change dispatch i s s.skip = _; rw [State.skip_xochip m pc, dispatch_ok hm]; rfl
  · refine exec_faults hm (e.trans ?_)
    change dispatch i s s.skip = _; rw [State.skip_faults m pc]

end

/-! ## Results with a flag, 41 R153, R163 -/

theorem State.reg_setLogic (s : State) (x : Reg) (b : Byte) (r : Reg) : ((s.setLogic x b).reg r).toNat =
    if r = 15 ∧ s.quirks.logicResetsVF = true then 0 else if r = x then b.toNat else (s.reg r).toNat := by
  unfold State.setLogic
  cases hq : s.quirks.logicResetsVF
  · simp; split <;> rfl
  · by_cases h : r = 15
    · simp [VF, h]
    · simp [VF, h]; split <;> rfl

theorem State.setLogic_registers (s : State) (x : Reg) (b : Byte) :
    s.setLogic x b = { s with v := (s.setLogic x b).v } := by
  rcases s.setLogic_frame x b with h | ⟨-, h⟩ <;> rw [h] <;> rfl

/-- VF is written last. -/
theorem State.reg_setResultFlag (s : State) (x : Reg) (b : Byte) (flag : Bool) (r : Reg) :
    ((s.setResultFlag x b flag).reg r).toNat =
      if r = 15 then (if flag then 1 else 0) else if r = x then b.toNat else (s.reg r).toNat := by
  unfold State.setResultFlag
  by_cases h : r = 15
  · simp [VF, flagByte, h]; split <;> rfl
  · simp [VF, flagByte, h]; split <;> rfl

theorem toNat_shiftedRight (b : Byte) :
    (shiftedRight b).1.toNat = b.toNat / 2 ∧ ((shiftedRight b).2 = true ↔ b.toNat % 2 = 1) := by
  simp [shiftedRight, Nat.shiftRight_eq_div_pow, BitVec.getLsbD, Nat.testBit_zero]

theorem toNat_shiftedLeft (b : Byte) :
    (shiftedLeft b).1.toNat = b.toNat * 2 % 256 ∧ ((shiftedLeft b).2 = true ↔ b.toNat / 128 = 1) := by
  have := b.isLt
  refine ⟨by simp [shiftedLeft, Nat.shiftLeft_eq], ?_⟩
  simp [shiftedLeft, BitVec.getLsbD, Nat.testBit_eq_decide_div_mod_eq]
  omega

/-! ## The head of a step -/

theorem memReadWord_wordAt (s : State) {a : Nat} (h : a ≤ 0xFFE) : memReadWord s.mem a = .ok (s.wordAt a) := by
  rw [memReadWord_eq, if_pos h]; rfl

theorem isLong_of_decodes {m : Mode} {w : Word} {i : Instr} (h : Decodes m w i) : isLong m w = false := by
  cases hl : isLong m w
  · rfl
  · simp [Decodes, decode, bytesOf, hl] at h

/-- A word that decodes at pc is fetched and run, with pc past it. -/
theorem fetch_of_decodes {s : State} {i : Instr} (pc : s.pc.toNat ≤ 0xFFE) (h : Decodes s.mode (s.wordAt s.pc.toNat) i) :
    fetch s = .run i (s.setPc (s.pc + 2)) := by
  rw [fetch, memReadWord_wordAt s pc]
  simp only [isLong_of_decodes h, Bool.false_eq_true, if_false, decodeFetched]
  rw [show decode s.mode (bytesOf (s.wordAt s.pc.toNat)) = _ from h]

/-- The long load is fetched with its second word, with pc past the first. -/
theorem fetch_of_long {s : State} (pc : s.pc.toNat ≤ 0xFFC) (hm : s.mode = .xochip) (h : s.wordAt s.pc.toNat = 0xF000) :
    fetch s = .run (.ldILong (s.wordAt (s.pc.toNat + 2))) (s.setPc (s.pc + 2)) := by
  rw [fetch, memReadWord_wordAt s (by omega)]
  have hl : isLong s.mode (s.wordAt s.pc.toNat) = true := by simp [isLong, hm, h]
  simp only [hl, if_true]
  rw [memReadWord_wordAt s (by omega)]
  simp only [decodeFetched, hm, h]
  have := decode_long 0xF000 (s.wordAt (s.pc.toNat + 2)) [] rfl
  rw [List.append_nil] at this
  rw [this]

theorem instrStep_of_decodes {s : State} {i : Instr} (pc : s.pc.toNat ≤ 0xFFE)
    (h : Decodes s.mode (s.wordAt s.pc.toNat) i) : instrStep s = exec i (s.setPc (s.pc + 2)) := by
  rw [instrStep, fetch_of_decodes pc h]

/-- A fetch that faults makes the step a taken fault. -/
theorem step_of_fetch_stopped {s : State} {f : CoreFault} {raw : Word} (run : s.run = .running) (ipf : s.ipf ≠ 0)
    (h : fetch s = .stopped (takeFault f s.pc raw s)) : Faults (step s) f s.pc raw := by
  rw [step_running run ipf, instrStep, h]
  exact ⟨_, rfl, by simp, by simp [frameTail, abandonFrame]⟩

end Sys2Proof.Machine
end

