-- ==== Sys2Proof/Laws/Draw.lean ====
section
/-!
SUPPORT. 43_display.md R211 and R212, piece by piece: the bits of a sprite's rows, and what drawing one row does.
-/
namespace Sys2Proof.Machine

/-! ## Sprite bits, R211 -/

theorem byteBits_eq (b : Byte) : byteBits b = (List.range 8).map fun c => b.getLsbD (7 - c) := rfl

/-- Two bytes, the first one left. -/
theorem wordBits_eq (l r : Byte) :
    byteBits l ++ byteBits r = (List.range 16).map fun c => (wordOf l r).getLsbD (15 - c) := by
  have h : ∀ k, (wordOf l r).getLsbD k = if k < 8 then r.getLsbD k else l.getLsbD (k - 8) := by
    intro k; rw [wordOf, BitVec.getLsbD_append]
  simp only [h]; rfl

/-- The rows of a 16-wide sprite are the words of its bytes. -/
theorem spriteRows16_map_range (f : Nat → Byte) (n : Nat) : spriteRows16 ((List.range (2 * n)).map f) =
    (List.range n).map fun r => (List.range 16).map fun c => (wordOf (f (2 * r)) (f (2 * r + 1))).getLsbD (15 - c) := by
  induction n generalizing f with
  | zero => rfl
  | succ n ih =>
    have e : (List.range (2 * (n + 1))).map f = f 0 :: f 1 :: (List.range (2 * n)).map (fun k => f (k + 2)) := by
      rw [show 2 * (n + 1) = (2 * n + 1) + 1 from by omega, List.range_succ_eq_map, List.range_succ_eq_map]; simp [Function.comp_def]
    rw [e, spriteRows16, ih, List.range_succ_eq_map (n := n), wordBits_eq]
    rw [List.map_cons, List.map_map]
    rfl

/-! ## One row, R212 -/

/-- A set bit of the row, the first of its bits at column `px`, is drawn at column `x'`. -/
def RowCovers (clip : Bool) (w px : Nat) (bits : List Bool) (x' : Nat) : Prop :=
  x' < w ∧ ∃ c, bits.getD c false = true ∧ if clip = true then x' = px + c else x' = (px + c) % w

theorem lt_length_of_getD {bits : List Bool} {c : Nat} (h : bits.getD c false = true) : c < bits.length := by
  by_contra n
  rw [List.getD_eq_default _ _ (by omega)] at h; cases h

theorem add_mod_ne {w px c : Nat} (h : px < w) (hc : c < w) (c0 : 0 < c) : (px + c) % w ≠ px := by
  by_cases e : px + c < w
  · rw [Nat.mod_eq_of_lt e]; omega
  · rw [Nat.mod_eq_sub_mod (by omega), Nat.mod_eq_of_lt (by omega)]; omega

theorem add_mod_ne_mod {w px c : Nat} (hw : 0 < w) (hc : c < w) (c0 : 0 < c) : (px + c) % w ≠ px % w := by
  rw [Nat.add_mod, Nat.mod_eq_of_lt hc]
  exact add_mod_ne (Nat.mod_lt _ hw) hc c0

theorem rowCovers_cons {clip : Bool} {w px : Nat} {b : Bool} {bs : List Bool} {x' : Nat} :
    RowCovers clip w px (b :: bs) x' ↔ (b = true ∧ x' < w ∧ (if clip = true then x' = px else x' = px % w)) ∨ RowCovers clip w (px + 1) bs x' := by
  constructor
  · rintro ⟨h, c, hc, e⟩
    cases c with
    | zero => exact .inl ⟨hc, h, e⟩
    | succ c =>
      refine .inr ⟨h, c, hc, ?_⟩
      rwa [show px + 1 + c = px + (c + 1) from by omega]
  · rintro (⟨hb, h, e⟩ | ⟨h, c, hc, e⟩)
    · exact ⟨h, 0, hb, e⟩
    · refine ⟨h, c + 1, hc, ?_⟩
      rwa [show px + 1 + c = px + (c + 1) from by omega] at e

/-- Drawing a row flips exactly the columns it covers, and reports a collision exactly when it covers a set pixel. -/
theorem drawRow_spec {clip : Bool} {w y : Nat} (hw : 0 < w) (hw' : w ≤ 128) (hy : y < 64) (bits : List Bool) : ∀ (px : Nat) (p : Plane) (hit : Bool),
    bits.length ≤ w → px + bits.length ≤ 2 * w → 
    (∀ x', RowCovers clip w px bits x' → (drawRow clip w y px bits (p, hit)).1.pixel x' y = !p.pixel x' y) ∧
    (∀ x', ¬ RowCovers clip w px bits x' → (drawRow clip w y px bits (p, hit)).1.pixel x' y = p.pixel x' y) ∧
    ((drawRow clip w y px bits (p, hit)).2 = true ↔ hit = true ∨ ∃ x', RowCovers clip w px bits x' ∧ p.pixel x' y = true) := by
  induction bits with
  | nil =>
    intro px p hit _ _
    have no : ∀ x', ¬ RowCovers clip w px [] x' := by rintro x' ⟨_, c, hc, _⟩; simp at hc
    refine ⟨fun x' h => absurd h (no x'), fun _ _ => rfl, ?_⟩
    simp [drawRow, no]
  | cons b bs ih =>
    intro px p hit len fit
    simp only [List.length_cons] at len fit
    by_cases stop : w ≤ px ∧ clip = true
    · have no : ∀ x', ¬ RowCovers clip w px (b :: bs) x' := by
        rintro x' ⟨h, c, hc, e⟩; rw [if_pos stop.2] at e; omega
      rw [drawRow, if_pos stop]
      refine ⟨fun x' h => absurd h (no x'), fun _ _ => rfl, ?_⟩
      simp [no]
    · rw [drawRow, if_neg stop]
      have hx : (if w ≤ px then px - w else px) < w := by split <;> omega
      have hxm : (if w ≤ px then px - w else px) = px % w := by
        split
        · rw [Nat.mod_eq_sub_mod (by omega), Nat.mod_eq_of_lt (by omega)]
        · rw [Nat.mod_eq_of_lt (by omega)]
      have tgt : ∀ x', (x' < w ∧ (if clip = true then x' = px else x' = px % w)) ↔ x' = if w ≤ px then px - w else px := by
        intro x'
        by_cases c : clip = true
        · simp only [c, if_true]
          rw [if_neg (by tauto)]
          constructor
          · tauto
          · rintro rfl; exact ⟨by (have : ¬ w ≤ x' := by tauto); omega, rfl⟩
        · rw [if_neg c, hxm]
          exact ⟨fun h => h.2, fun h => ⟨by rw [h]; exact Nat.mod_lt _ hw, h⟩⟩
      have disj : ∀ x', x' = (if w ≤ px then px - w else px) → ¬ RowCovers clip w (px + 1) bs x' := by
        rintro x' e ⟨h, c, hc, e'⟩
        have hl := lt_length_of_getD hc
        have t := ((tgt x').2 e).2
        by_cases cl : clip = true
        · rw [if_pos cl] at t e'; omega
        · rw [if_neg cl] at t e'
          rw [t, show px + 1 + c = px + (c + 1) from by omega] at e'
          exact add_mod_ne_mod hw (by omega) (by omega) e'.symm
      have cov : ∀ x', RowCovers clip w px (b :: bs) x' ↔ (b = true ∧ x' = if w ≤ px then px - w else px) ∨ RowCovers clip w (px + 1) bs x' := by
        intro x'; rw [rowCovers_cons, tgt]
      generalize hX : (if w ≤ px then px - w else px) = X at *
      obtain ⟨i1, i2, i3⟩ := ih (px + 1) (if b = true then p.flip X y else p) (if b = true then hit || p.pixel X y else hit) (by omega) (by omega)
      have acc : (if b = true then (p.flip X y, hit || p.pixel X y) else (p, hit)) = ((if b = true then p.flip X y else p), (if b = true then hit || p.pixel X y else hit)) := by
        split <;> rfl
      simp only []
      rw [acc]
      refine ⟨fun x' h => ?_, fun x' h => ?_, ?_⟩
      · rcases (cov x').1 h with ⟨hb, e⟩ | h'
        · rw [i2 x' (disj x' e), if_pos hb, Plane.pixel_flip, if_pos (by omega)]
        · rw [i1 x' h']
          split
          · rw [Plane.pixel_flip, if_neg (by rintro ⟨e, -⟩; exact disj x' e h')]
          · rfl
      · rw [cov] at h
        rw [i2 x' (fun c => h (.inr c))]
        split
        · rename_i hb; rw [Plane.pixel_flip, if_neg (by rintro ⟨e, -⟩; exact h (.inl ⟨hb, e⟩))]
        · rfl
      · rw [i3]
        have same : ∀ x', RowCovers clip w (px + 1) bs x' → (if b = true then p.flip X y else p).pixel x' y = p.pixel x' y := by
          intro x' h'
          split
          · rw [Plane.pixel_flip, if_neg (by rintro ⟨e, -⟩; exact disj x' e h')]
          · rfl
        constructor
        · rintro (h | ⟨x', h', e⟩)
          · split at h
            · rename_i hb
              rcases Bool.or_eq_true_iff.1 h with h | h
              · exact .inl h
              · exact .inr ⟨X, (cov X).2 (.inl ⟨hb, rfl⟩), h⟩
            · exact .inl h
          · rw [same x' h'] at e
            exact .inr ⟨x', (cov x').2 (.inr h'), e⟩
        · rintro (h | ⟨x', h', e⟩)
          · left; split <;> simp [h]
          · rcases (cov x').1 h' with ⟨hb, rfl⟩ | h'
            · left; simp [hb, e]
            · exact .inr ⟨x', h', (same x' h').trans e⟩

end Sys2Proof.Machine
end

