-- ==== Sys2Proof/Laws/Effect.lean ====
section
/-!
SUPPORT. What an instruction that completes has done, said once for each instruction: the inversion every whole-machine proof
starts from.
-/
namespace Sys2Proof.Machine

/-- `t` is what instruction `i` leaves of `s` when it completes. -/
def Effect (s t : State) : Instr → Prop
  | .scd n => t = s.mapSelected (scrollDown s.width s.height n.toNat)
  | .scu n => t = s.mapSelected (scrollUp s.width s.height n.toNat)
  | .cls => t = s.mapSelected fun _ => Plane.blank
  | .ret => ∃ a u, s.pop = .ok (a, u) ∧ t = u.setPc a
  | .scr => t = s.mapSelected (scrollRight s.width s.height)
  | .scl => t = s.mapSelected (scrollLeft s.width s.height)
  | .exit => t = s.setRun .exited
  | .low => t = (s.setHires false).setPlanes Plane.blank Plane.blank
  | .high => t = (s.setHires true).setPlanes Plane.blank Plane.blank
  | .jp nnn => t = s.setPc (nnn.setWidth 16)
  | .call nnn => ∃ u, s.push s.pc = .ok u ∧ t = u.setPc (nnn.setWidth 16)
  | .seImm x kk => s.skipIf (s.reg x == kk) = .ok t
  | .sneImm x kk => s.skipIf (s.reg x != kk) = .ok t
  | .seReg x y => s.skipIf (s.reg x == s.reg y) = .ok t
  | .storeRange x y => s.storeAtI (s.regList (regRange x y)) = .ok t
  | .loadRange x y => s.loadFromI (regRange x y) = .ok t
  | .ldImm x kk => t = s.setReg x kk
  | .addImm x kk => t = s.setReg x (sumOf (s.reg x) kk)
  | .ldReg x y => t = s.setReg x (s.reg y)
  | .or x y => t = s.setLogic x (s.reg x ||| s.reg y)
  | .and x y => t = s.setLogic x (s.reg x &&& s.reg y)
  | .xor x y => t = s.setLogic x (s.reg x ^^^ s.reg y)
  | .add x y => t = s.setResultFlag x (sumOf (s.reg x) (s.reg y)) (carryOf (s.reg x) (s.reg y))
  | .sub x y => t = s.setResultFlag x (diffOf (s.reg x) (s.reg y)) (noBorrowOf (s.reg x) (s.reg y))
  | .shr x y => t = s.setResultFlag x (shiftedRight (s.shiftSource x y)).1 (shiftedRight (s.shiftSource x y)).2
  | .subn x y => t = s.setResultFlag x (diffOf (s.reg y) (s.reg x)) (noBorrowOf (s.reg y) (s.reg x))
  | .shl x y => t = s.setResultFlag x (shiftedLeft (s.shiftSource x y)).1 (shiftedLeft (s.shiftSource x y)).2
  | .sneReg x y => s.skipIf (s.reg x != s.reg y) = .ok t
  | .ldI nnn => t = s.setI nnn.toNat
  | .jpV0 nnn => t = s.setPc (nnn.setWidth 16 + (s.jumpOffset nnn).setWidth 16)
  | .rnd x kk => t = (s.setReg x (Config.freeByte s.draws &&& kk)).drawn
  | .drw x y n => s.drawSelected x y n = .ok t
  | .skp x => ∃ down, s.keyOf (s.reg x) = .ok down ∧ s.skipIf down = .ok t
  | .sknp x => ∃ down, s.keyOf (s.reg x) = .ok down ∧ s.skipIf (!down) = .ok t
  | .ldILong nnnn => t = (s.setPc (s.pc + 2)).setI nnnn.toNat
  | .plane mask => s.selectPlanes mask = .ok t
  | .audio => ∃ bytes pattern, memReadBytes s.mem (s.ea 0) 16 = .ok bytes ∧ pattern = patternOf bytes ∧
      t = s.setPattern pattern
  | .getDelay x => t = s.setReg x s.dt
  | .waitKey x => t = s.takeKey x
  | .setDelay x => t = s.setDt (s.reg x)
  | .setSound x => t = s.setSt (s.reg x)
  | .addI x => t = s.setI (s.I.toNat + (s.reg x).toNat)
  | .ldF x => s.pointAtGlyph x .standard = .ok t
  | .ldHF x => s.pointAtGlyph x .extended = .ok t
  | .bcd x => s.storeAtI (bcdDigits (s.reg x)) = .ok t
  | .pitch x => t = s.setPitch ((s.reg x).setWidth 16)
  | .storeRegs x => ∃ u, s.storeAtI (s.regList (regRange 0 x)) = .ok u ∧ t = u.bumpI x
  | .loadRegs x => ∃ u, s.loadFromI (regRange 0 x) = .ok u ∧ t = u.bumpI x
  | .storeRpl x => ∃ r, rplWriteAll s.rpl 0 (s.regList (regRange 0 x)) = .ok r ∧ t = s.setRpl r
  | .loadRpl x => ∃ bytes, rplReadAll s.rpl 0 (x.val + 1) = .ok bytes ∧ t = s.setRegs ((regRange 0 x).zip bytes)

/-- An instruction either exists in the mode and has its effect, or takes a fault. -/
theorem exec_cases (i : Instr) (s : State) :
    (i.existsIn s.mode = true ∧ ∃ t, exec i s = .next t ∧ Effect s t i) ∨ ∃ f, exec i s = .next (raise f i s) := by
  obtain ⟨p, hp, effect⟩ : ∃ p, exec i s = dispatch i s p ∧ ∀ t, p = .ok t → Effect s t i := by
    cases i
    case ret =>
      refine ⟨_, exec_ret s, fun t h => ?_⟩
      split at h <;> cases h
      exact ⟨_, _, ‹_›, rfl⟩
    case call nnn =>
      refine ⟨_, exec_call nnn s, fun t h => ?_⟩
      split at h <;> cases h
      exact ⟨_, ‹_›, rfl⟩
    case skp x =>
      refine ⟨_, exec_skp x s, fun t h => ?_⟩
      split at h
      · cases h
      · exact ⟨_, ‹_›, h⟩
    case sknp x =>
      refine ⟨_, exec_sknp x s, fun t h => ?_⟩
      split at h
      · cases h
      · exact ⟨_, ‹_›, h⟩
    case audio =>
      refine ⟨_, exec_audio s, fun t h => ?_⟩
      split at h <;> cases h
      exact ⟨_, _, ‹_›, rfl, rfl⟩
    case storeRegs x =>
      refine ⟨_, exec_storeRegs x s, fun t h => ?_⟩
      split at h <;> cases h
      exact ⟨_, ‹_›, rfl⟩
    case loadRegs x =>
      refine ⟨_, exec_loadRegs x s, fun t h => ?_⟩
      split at h <;> cases h
      exact ⟨_, ‹_›, rfl⟩
    case storeRpl x =>
      refine ⟨_, exec_storeRpl x s, fun t h => ?_⟩
      split at h
      · cases h
      · split at h <;> cases h
        exact ⟨_, ‹_›, rfl⟩
    case loadRpl x =>
      refine ⟨_, exec_loadRpl x s, fun t h => ?_⟩
      split at h
      · cases h
      · split at h <;> cases h
        exact ⟨_, ‹_›, rfl⟩
    all_goals first
      | exact ⟨.ok _, rfl, fun t h => (Except.ok.inj h).symm⟩
      | exact ⟨_, rfl, fun t h => h⟩
  rcases dispatch_cases i s p with ⟨hm, t, ht, hd⟩ | ⟨f, hf⟩
  · exact .inl ⟨hm, t, hp.trans hd, effect t ht⟩
  · exact .inr ⟨f, hp.trans hf⟩

/-- An instruction that leaves RUN other than FAULTED exists in the mode and has had its effect. -/
theorem exec_effect {i : Instr} {s t : State} (h : exec i s = .next t) (good : t.run ≠ .faulted) :
    i.existsIn s.mode = true ∧ Effect s t i := by
  rcases exec_cases i s with ⟨hm, u, hu, e⟩ | ⟨f, hf⟩
  · rw [hu] at h
    cases h
    exact ⟨hm, e⟩
  · rw [hf] at h
    cases h
    exact absurd rfl good

/-- No effect makes RUN FAULTED. -/
theorem effect_run {i : Instr} {s t : State} (e : Effect s t i) : t.run = s.run ∨ t.run = .exited := by
  cases i <;> simp only [Effect] at e
  case or | and | xor =>
    subst e
    rcases s.setLogic_frame _ _ with h | ⟨q, h⟩ <;> rw [h] <;> simp
  case waitKey x =>
    subst e
    rcases s.takeKey_frame x with h | ⟨b, h⟩ | ⟨b, h⟩ <;> rw [h] <;> simp
  case drw =>
    obtain ⟨p, q, b, rfl, h1, h2, -⟩ := State.drawSelected_frame e
    simp
  case loadRange x y =>
    obtain ⟨bytes, hb, rfl⟩ := State.loadFromI_frame e
    rw [State.setRegs_frame]; simp
  case loadRegs x =>
    obtain ⟨u, hu, rfl⟩ := e
    obtain ⟨bytes, hb, rfl⟩ := State.loadFromI_frame hu
    rcases State.bumpI_frame (s.setRegs ((regRange 0 x).zip bytes)) x with h | ⟨n, hq, h⟩ <;> rw [h, State.setRegs_frame] <;> simp
  case loadRpl x =>
    obtain ⟨bytes, hb, rfl⟩ := e
    rw [State.setRegs_frame]; simp
  case ret => obtain ⟨a, u, hu, rfl⟩ := e; obtain ⟨sp, rfl⟩ := State.pop_frame hu; simp
  case call => obtain ⟨u, hu, rfl⟩ := e; obtain ⟨a, sp, rfl⟩ := State.push_frame hu; simp
  case seImm | sneImm | seReg | sneReg => obtain ⟨a, rfl⟩ := State.skipIf_frame e; simp
  case skp | sknp => obtain ⟨_, _, e⟩ := e; obtain ⟨a, rfl⟩ := State.skipIf_frame e; simp
  case storeRange | bcd => obtain ⟨m, hm, rfl⟩ := State.storeAtI_frame e; simp
  case storeRegs x =>
    obtain ⟨u, hu, rfl⟩ := e; obtain ⟨m, hm, rfl⟩ := State.storeAtI_frame hu
    rcases State.bumpI_frame (s.setMem m) x with h | ⟨n, hq, h⟩ <;> rw [h] <;> simp
  case plane => obtain ⟨sel, rfl⟩ := State.selectPlanes_frame e; simp
  case ldF | ldHF => obtain ⟨a, ha, rfl⟩ := State.pointAtGlyph_frame e; simp
  case audio => obtain ⟨a, p, ha, -, rfl⟩ := e; simp
  case storeRpl => obtain ⟨a, ha, rfl⟩ := e; simp
  all_goals subst e; simp [State.mapSelected, State.setResultFlag]

/-- An instruction step from a RUNNING state executes an instruction, or leaves what taking a fault leaves. -/
theorem instrStep_effect {s u : State} (h : instrStep s = .next u) (run : s.run ≠ .faulted) :
    (∃ i, fetch s = .run i (s.setPc (s.pc + 2)) ∧ i.existsIn s.mode = true ∧ s.pc.toNat ≤ 0xFFE ∧ u.run ≠ .faulted ∧
        Effect (s.setPc (s.pc + 2)) u i) ∨
      (∃ i f, fetch s = .run i (s.setPc (s.pc + 2)) ∧ u = raise f i (s.setPc (s.pc + 2))) ∨
      ∃ f raw, fetch s = .stopped u ∧ u = takeFault f s.pc raw s := by
  unfold instrStep at h
  rcases fetch_cases s with ⟨i, hf, hm, hpc⟩ | ⟨f, raw, hf⟩
  · have h : exec i (s.setPc (s.pc + 2)) = .next u := by rwa [hf] at h
    rcases exec_cases i (s.setPc (s.pc + 2)) with ⟨-, t, ht, e⟩ | ⟨f, he⟩
    · rw [ht] at h
      cases h
      refine .inl ⟨i, hf, hm, hpc, ?_, e⟩
      rcases effect_run e with r | r <;> rw [r]
      · exact run
      · decide
    · rw [he] at h
      cases h
      exact .inr (.inl ⟨i, f, hf, rfl⟩)
  · rw [hf] at h
    cases h
    exact .inr (.inr ⟨f, raw, hf, rfl⟩)

end Sys2Proof.Machine
end

