-- ==== Sys2Proof/Laws/Reset.lean ====
section
/-!
SUPPORT. What reset leaves: memory at every address, its canonical form, and that `State.reset` is the reset for the default
arguments.
-/
namespace Sys2Proof.Machine

theorem ResetArgs.memory_wf (a : ResetArgs) : a.memory.wf = true :=
  Memory.pokeAll_wf (Memory.pokeAll_wf (Memory.pokeAll_wf Memory.wf_nil _ _) _ _) _ _

/-- An image that fits is loaded; a longer one is refused (70 R312). -/
theorem State.resetWith_eq (a : ResetArgs) (fits : a.image.length ≤ 3584) :
    State.resetWith a = .next { State.reset with
      mode := a.mode
      quirks := a.quirks
      ipf := a.ipf
      mem := a.memory
      rpl := a.rplInit
      pitch := a.pitchReset } := if_neg (by simp only [Config.maxImage]; omega)

theorem State.resetWith_refused (a : ResetArgs) (long : 3584 < a.image.length) :
    State.resetWith a = .refused .imageTooLong := if_pos long

theorem fontSmallDefault_unlisted : ∀ k < 80, fontSmallDefault.getD k 0 = Memory.unlisted k := by decide +kernel

theorem fontLargeDefault_unlisted : ∀ k < 100, fontLargeDefault.getD k 0 = Memory.unlisted (80 + k) := by decide +kernel

/-- The default fonts are what unlisted addresses read as, so a reset with them lists nothing. -/
theorem ResetArgs.memory_default : ResetArgs.default.memory = [] := by
  have small : Memory.pokeAll [] fontSmallBase ResetArgs.default.fontSmall.toList = [] := by
    refine Memory.pokeAll_unlisted _ _ fun k hk => ?_
    have hk' : k < 80 := by simpa using hk
    simpa [ResetArgs.default, fontSmallBase] using fontSmallDefault_unlisted k hk'
  have large : Memory.pokeAll [] fontLargeBase ResetArgs.default.fontLarge.toList = [] := by
    refine Memory.pokeAll_unlisted _ _ fun k hk => ?_
    have hk' : k < 100 := by simpa using hk
    simpa [ResetArgs.default, fontLargeBase] using fontLargeDefault_unlisted k hk'
  have notChip8 : ResetArgs.default.mode ≠ .chip8 := by decide
  unfold ResetArgs.memory
  rw [if_neg notChip8, small]
  simp only [large]
  rfl

/-- `State.reset` is Reset with the default arguments. -/
theorem State.resetWith_default : State.resetWith ResetArgs.default = .next State.reset := by
  rw [State.resetWith_eq _ (by decide), ResetArgs.memory_default]
  rfl

end Sys2Proof.Machine
end

