-- ==== Sys2Proof/Laws/Transfer.lean ====
section
/-!
SUPPORT. What the transfer operations of 42_index_memory.md do, each said once: stores at I, loads from I, the move of I, the
persistent flag store.
-/
namespace Sys2Proof.Machine

/-! ## Register lists -/

@[simp] theorem State.length_regList (s : State) (rs : List Reg) : (s.regList rs).length = rs.length := by
  simp [State.regList]

theorem State.getD_regList (s : State) (rs : List Reg) {k : Nat} (h : k < rs.length) :
    (s.regList rs).getD k 0 = s.reg rs[k] := by simp [State.regList, h]

theorem State.getElem_regList (s : State) (rs : List Reg) {k : Nat} (h : k < (s.regList rs).length) :
    (s.regList rs)[k] = s.reg (rs[k]'(by simpa using h)) := by simp [State.regList]

theorem State.regList_regRange_ne_nil (s : State) (x y : Reg) : s.regList (regRange x y) ≠ [] := by
  intro h
  have := congrArg List.length h
  rw [State.length_regList, regRange_length] at this
  simp at this

/-- The range from 0 lists each register at its own index. -/
theorem regRange_zero_getElem {r x : Reg} (h : r.val < (regRange 0 x).length) : (regRange 0 x)[r.val] = r := by
  ext; rw [regRange_zero_val]

/-! ## Stores and loads at I -/

/-- A store at I that fits: the bytes stored, every other byte as before, nothing but memory changed. -/
theorem State.storeAtI_completes (s : State) {bs : List Byte} (wf : s.mem.wf = true) (lo : 0x200 ≤ s.I.toNat)
    (hi : s.I.toNat + bs.length ≤ 0x1000) :
    ∃ m, s.storeAtI bs = .ok (s.setMem m) ∧ m.wf = true ∧
      (∀ k (h : k < bs.length), m.get (s.I.toNat + k) = bs[k]) ∧
      ∀ a, a < s.I.toNat ∨ s.I.toNat + bs.length ≤ a → m.get a = s.mem.get a := by
  obtain ⟨m, hm⟩ := memWriteBytes_completes s.mem lo hi
  obtain ⟨-, wf', get⟩ := memWriteBytes_spec hm wf
  refine ⟨m, ?_, wf', fun k hk => ?_, fun a ha => ?_⟩
  · simp [State.storeAtI, State.ea, hm]
  · rw [get, if_pos (by omega)]; simp [hk]
  · rw [get, if_neg (by omega)]

/-- A store at I that does not fit: the fault of its first bad address. -/
theorem State.storeAtI_faults (s : State) {bs : List Byte} (ne : bs ≠ [])
    (h : s.I.toNat < 0x200 ∨ 0x1000 < s.I.toNat + bs.length) :
    s.storeAtI bs = .error (.memWrite (if s.I.toNat < 0x200 then s.I.toNat else max s.I.toNat 0x1000)) := by
  simp [State.storeAtI, State.ea, memWriteBytes_faults s.mem ne h]

/-- A load from I that fits. -/
theorem State.loadFromI_completes (s : State) {rs : List Reg} (h : s.I.toNat + rs.length ≤ 0x1000) :
    s.loadFromI rs = .ok (s.setRegs (rs.zip ((List.range rs.length).map fun k => s.mem.get (s.I.toNat + k)))) := by
  simp [State.loadFromI, memReadBytes_eq, h, State.ea]

/-- A load from I that does not fit: the fault of the first address above 0xFFF. -/
theorem State.loadFromI_faults (s : State) {rs : List Reg} (ne : rs.length ≠ 0) (h : 0x1000 < s.I.toNat + rs.length) :
    s.loadFromI rs = .error (.memRead (max s.I.toNat 0x1000)) := by
  have e : memReadBytes s.mem (s.ea 0) rs.length = .error (.memRead (max s.I.toNat 0x1000)) := by
    rw [memReadBytes_eq]; exact if_neg (by unfold State.ea; omega)
  rw [State.loadFromI, e]

/-- The quirk's move of I. -/
theorem State.bumpI_spec (s : State) (x : Reg) :
    (s.bumpI x).I.toNat =
        (if s.quirks.memIncrementsI = true then (s.I.toNat + x.val + 1) % 0x1000 else s.I.toNat) ∧
      s.bumpI x = { s with I := (s.bumpI x).I } := by
  unfold State.bumpI
  split
  · refine ⟨?_, rfl⟩; simp; omega
  · exact ⟨rfl, rfl⟩

/-! ## The persistent flag store, 20_memory.md R77 -/

theorem rplWriteAll_completes (rpl : Vector Byte 8) (bs : List Byte) (k : Nat) (h : k + bs.length ≤ 8) :
    ∃ r, rplWriteAll rpl k bs = .ok r ∧
      ∀ j : Fin 8, r[j] = if k ≤ j.val ∧ j.val < k + bs.length then bs.getD (j.val - k) 0 else rpl[j] := by
  induction bs generalizing rpl k with
  | nil => exact ⟨rpl, rfl, fun j => by rw [if_neg (by simp)]⟩
  | cons b bs ih =>
    simp only [List.length_cons] at h
    obtain ⟨r, hr, get⟩ := ih (rpl.set k b) (k + 1) (by omega)
    refine ⟨r, ?_, fun j => ?_⟩
    · rw [rplWriteAll, rplWrite, dif_pos (by omega)]; exact hr
    · rw [get]
      change (if _ then _ else (rpl.set k b)[j.val]) = _
      rw [Vector.getElem_set]
      rcases lt_trichotomy j.val k with lt | e | gt
      · rw [if_neg (by omega), if_neg (by omega), if_neg (by omega)]; rfl
      · rw [if_neg (by omega), if_pos e.symm, if_pos (by simp; omega), e]; simp
      · by_cases c : j.val < k + 1 + bs.length
        · rw [if_pos (by omega), if_pos (by simp; omega)]
          rw [show j.val - k = (j.val - (k+1)) + 1 from by omega, List.getD_cons_succ]
        · rw [if_neg (by omega), if_neg (by omega), if_neg (by simp; omega)]; rfl

/-- Going on past the last index faults at the index 8. -/
theorem rplWriteAll_faults (rpl : Vector Byte 8) (bs : List Byte) (k : Nat) (hk : k ≤ 8) (h : 8 < k + bs.length) :
    rplWriteAll rpl k bs = .error (.rplIndex 8) := by
  induction bs generalizing rpl k with
  | nil => simp at h; omega
  | cons b bs ih =>
    simp only [List.length_cons] at h
    by_cases c : k < 8
    · rw [rplWriteAll, rplWrite, dif_pos c]; exact ih _ _ (by omega) (by omega)
    · rw [rplWriteAll, rplWrite, dif_neg c]; simp; omega

theorem rplReadAll_completes (rpl : Vector Byte 8) (n k : Nat) (h : k + n ≤ 8) :
    ∃ bs, rplReadAll rpl k n = .ok bs ∧ bs.length = n ∧ ∀ j (_ : j < n) (h8 : k + j < 8), bs.getD j 0 = rpl[k + j] := by
  induction n generalizing k with
  | zero => exact ⟨[], rfl, rfl, fun j hj => by omega⟩
  | succ n ih =>
    obtain ⟨bs, hr, len, get⟩ := ih (k + 1) (by omega)
    refine ⟨rpl[k] :: bs, ?_, by simp [len], fun j hj h8 => ?_⟩
    · rw [rplReadAll, rplRead, dif_pos (by omega)]; simp only [hr]
    · cases j with
      | zero => rfl
      | succ j => rw [List.getD_cons_succ, get j (by omega) (by omega)]; simp only [Nat.add_assoc, Nat.add_comm 1]

theorem rplReadAll_faults (rpl : Vector Byte 8) (n k : Nat) (hk : k ≤ 8) (h : 8 < k + n) :
    rplReadAll rpl k n = .error (.rplIndex 8) := by
  induction n generalizing k with
  | zero => omega
  | succ n ih =>
    by_cases c : k < 8
    · rw [rplReadAll, rplRead, dif_pos c]; simp only [ih (k+1) (by omega) (by omega)]
    · rw [rplReadAll, rplRead, dif_neg c]; simp; omega

end Sys2Proof.Machine
end

