-- ==== Sys2Proof/Tests/Slice0.lean ====
section
/-!
SUPPORT. Tests. Expected values come from the spec: words from the patterns of 30_encoding.md R96, outcomes from the vectors
of 95_test_vectors.md, whose ids stand beside them. `witness_…` theorems show that the hypotheses of a statement can be met,
at the boundary of each clause.
-/
namespace Sys2Proof.Tests

open Sys2Proof Sys2Proof.Machine

set_option Elab.async false

/-! ## Helpers -/

/-- A state after reset in a mode, with bytes where the next fetch reads them. -/
def boot (m : Mode) (bytes : List Byte) : State := placeAtPc { State.reset with mode := m } bytes

/-- The state after one step (the state itself where there is none). -/
def after (s : State) : State :=
  match step s with
  | .next t => t
  | .fault _ => s
  | .refused _ => s

/-- The same state with pc at an address and the word to fetch there. -/
def bootAt (m : Mode) (pc : Word) (bytes : List Byte) : State := placeAtPc { State.reset with mode := m, pc := pc } bytes

/-- The decoder reads exactly this instruction. -/
def decodesTo (m : Mode) (bytes : List Byte) (i : Instr) : Bool :=
  match decode m bytes with
  | .ok (j, rest) => decide (j = i) && rest.isEmpty
  | .error _ => false

theorem decodes_of {m : Mode} {w : Word} {i : Instr} (h : decodesTo m (bytesOf w) i = true) : Decodes m w i := by
  unfold decodesTo at h
  unfold Decodes
  split at h
  · rename_i j rest hd
    obtain ⟨rfl, e⟩ : j = i ∧ rest = [] := by simpa using h
    rw [hd, e]
  · cases h

/-- A plane with these pixels, given as (x, y). -/
def pixels (l : List (Nat × Nat)) : Plane := l.foldl (fun p c => p.flip c.1 c.2) Plane.blank

/-- Two planes agree in these rows. -/
def sameRows (p q : Plane) (ys : List Nat) : Bool := ys.all fun y => p.row y == q.row y

/-- The key vector with these keys down. -/
def keysDown (l : List (Fin 16)) : Keys := l.foldl (fun (k : Keys) (j : Fin 16) => k.set j true) (Vector.replicate 16 false)

/-! ## WellFormed: an ill-formed term for each reason the check has (R95) -/

theorem test_wellFormed_refuses_schip_in_chip8 :
    ¬ Instr.WellFormed .chip8 .exit ∧ ¬ Instr.WellFormed .chip8 (.scd 3) ∧ ¬ Instr.WellFormed .chip8 (.storeRpl 0) := by
  decide

theorem test_wellFormed_refuses_xochip_below :
    ¬ Instr.WellFormed .schip (.scu 1) ∧ ¬ Instr.WellFormed .schip (.ldILong 0x300) ∧
      ¬ Instr.WellFormed .chip8 (.plane 1) ∧ Instr.WellFormed .xochip (.plane 1) := by decide

/-! ## Decoding: every constructor, from a word written out from its pattern -/

theorem test_decode_nibble_0 :
    decodesTo .xochip [0x00, 0xC7] (.scd 7) = true ∧
    decodesTo .xochip [0x00, 0xD9] (.scu 9) = true ∧
    decodesTo .xochip [0x00, 0xE0] .cls = true ∧
    decodesTo .xochip [0x00, 0xEE] .ret = true ∧
    decodesTo .xochip [0x00, 0xFB] .scr = true ∧
    decodesTo .xochip [0x00, 0xFC] .scl = true ∧
    decodesTo .xochip [0x00, 0xFD] .exit = true ∧
    decodesTo .xochip [0x00, 0xFE] .low = true ∧
    decodesTo .xochip [0x00, 0xFF] .high = true := by
  decide

theorem test_decode_nibbles_1_to_7 :
    decodesTo .xochip [0x1A, 0xBC] (.jp 0xABC) = true ∧
    decodesTo .xochip [0x2A, 0xBC] (.call 0xABC) = true ∧
    decodesTo .xochip [0x3A, 0x2C] (.seImm 10 0x2C) = true ∧
    decodesTo .xochip [0x4A, 0x2C] (.sneImm 10 0x2C) = true ∧
    decodesTo .xochip [0x51, 0x20] (.seReg 1 2) = true ∧
    decodesTo .xochip [0x51, 0xE2] (.storeRange 1 14) = true ∧
    decodesTo .xochip [0x51, 0xE3] (.loadRange 1 14) = true ∧
    decodesTo .xochip [0x6A, 0x2C] (.ldImm 10 0x2C) = true ∧
    decodesTo .xochip [0x7A, 0x2C] (.addImm 10 0x2C) = true := by
  decide

theorem test_decode_nibble_8 :
    decodesTo .xochip [0x81, 0x20] (.ldReg 1 2) = true ∧
    decodesTo .xochip [0x81, 0x21] (.or 1 2) = true ∧
    decodesTo .xochip [0x81, 0x22] (.and 1 2) = true ∧
    decodesTo .xochip [0x81, 0x23] (.xor 1 2) = true ∧
    decodesTo .xochip [0x81, 0x24] (.add 1 2) = true ∧
    decodesTo .xochip [0x81, 0x25] (.sub 1 2) = true ∧
    decodesTo .xochip [0x81, 0x26] (.shr 1 2) = true ∧
    decodesTo .xochip [0x81, 0x27] (.subn 1 2) = true ∧
    decodesTo .xochip [0x81, 0x2E] (.shl 1 2) = true := by
  decide

theorem test_decode_nibbles_9_to_E :
    decodesTo .xochip [0x91, 0x20] (.sneReg 1 2) = true ∧
    decodesTo .xochip [0xA3, 0x00] (.ldI 0x300) = true ∧
    decodesTo .xochip [0xB2, 0xF0] (.jpV0 0x2F0) = true ∧
    decodesTo .xochip [0xC1, 0x0F] (.rnd 1 0x0F) = true ∧
    decodesTo .xochip [0xD1, 0x2F] (.drw 1 2 15) = true ∧
    decodesTo .xochip [0xE1, 0x9E] (.skp 1) = true ∧
    decodesTo .xochip [0xE1, 0xA1] (.sknp 1) = true := by
  decide

theorem test_decode_nibble_F :
    decodesTo .xochip [0xF3, 0x01] (.plane 3) = true ∧
    decodesTo .xochip [0xF0, 0x02] .audio = true ∧
    decodesTo .xochip [0xF3, 0x07] (.getDelay 3) = true ∧
    decodesTo .xochip [0xF2, 0x0A] (.waitKey 2) = true ∧
    decodesTo .xochip [0xF4, 0x15] (.setDelay 4) = true ∧
    decodesTo .xochip [0xF2, 0x18] (.setSound 2) = true ∧
    decodesTo .xochip [0xF5, 0x1E] (.addI 5) = true ∧
    decodesTo .xochip [0xF3, 0x29] (.ldF 3) = true ∧
    decodesTo .xochip [0xF3, 0x30] (.ldHF 3) = true ∧
    decodesTo .xochip [0xF6, 0x33] (.bcd 6) = true ∧
    decodesTo .xochip [0xF4, 0x3A] (.pitch 4) = true ∧
    decodesTo .xochip [0xF2, 0x55] (.storeRegs 2) = true ∧
    decodesTo .xochip [0xF2, 0x65] (.loadRegs 2) = true ∧
    decodesTo .xochip [0xF1, 0x75] (.storeRpl 1) = true ∧
    decodesTo .xochip [0xF1, 0x85] (.loadRpl 1) = true := by
  decide

theorem test_decode_long : decodesTo .xochip [0xF0, 0x00, 0x0A, 0xBC] (.ldILong 0x0ABC) = true ∧
    decodeTableWord 32 0x0ABCF000 = some (.ldILong 0x0ABC) ∧ decodeTableWord 16 0xF000 = some (.ldILong 0) := by decide

/-- C9, C21 to C23, G26: words that are no instruction of the mode. -/
theorem test_decode_unknown :
    decodeTableWord 16 0x5121 = none ∧ decodeTableWord 16 0x8018 = none ∧ decodeTableWord 16 0x0000 = none ∧
    decodesTo .schip [0xF1, 0x01] (.plane 1) = false ∧ decodesTo .schip [0x00, 0xD1] (.scu 1) = false ∧
    decodesTo .chip8 [0x00, 0xFD] .exit = false := by decide

/-- S1a: the fields of 0xD12F. -/
theorem test_fields : fieldOP 0xD12F = 0xD ∧ fieldX 0xD12F = 0x1 ∧ fieldY 0xD12F = 0x2 ∧ fieldN 0xD12F = 0xF ∧
    fieldKK 0xD12F = 0x2F ∧ fieldNNN 0xD12F = 0x12F := by decide

/-- 30 R95: 34 + 9 + 7 = 50 instructions. -/
theorem test_opcodeMap_counts : opcodeMap.length = 50 ∧
    (opcodeMap.filter fun r => decide (Mode.chip8 ∈ r.modes)).length = 34 ∧
    (opcodeMap.filter fun r => decide (Mode.schip ∈ r.modes)).length = 43 := by decide

/-! ## One step of each instruction, from the vectors -/

/-- C1 -/
theorem test_jp : (after (boot .chip8 [0x12, 0x04])).pc = 0x0204 := by
  decide +kernel

/-- C3 -/
theorem test_call : let t := after (boot .chip8 [0x22, 0x06])
    t.pc = 0x0206 ∧ t.sp = 1 ∧ t.stack[0] = 0x0202 := by
  decide +kernel

/-- S6a: the seventeenth push -/
theorem test_call_overflow : (after { boot .chip8 [0x22, 0x00] with sp := 16 }).frec = some ⟨.stackOverflow, 0x0200, 0x2200⟩ := by
  decide +kernel

/-- C4 -/
theorem test_ret : let s := bootAt .chip8 0x0208 [0x00, 0xEE]
    let t := after (s.setStack (s.stack.set 0 0x0202) 1)
    t.pc = 0x0202 ∧ t.sp = 0 ∧ t.stack[0] = 0x0202 := by
  decide +kernel

/-- S6b -/
theorem test_ret_underflow : (after (boot .chip8 [0x00, 0xEE])).frec = some ⟨.stackUnderflow, 0x0200, 0x00EE⟩ := by
  decide +kernel

/-- C5, C6 -/
theorem test_seImm : (after (boot .chip8 [0x31, 0x00])).pc = 0x0204 ∧ (after ((boot .chip8 [0x31, 0x00]).setReg 1 1)).pc = 0x0202 := by
  decide +kernel

/-- C18 to C20: the peek of a skip at the end of memory -/
theorem test_seImm_peek : (after (bootAt .xochip 0x0FFE [0x31, 0x00])).frec = some ⟨.memRead 0x1000, 0x0FFE, 0x3100⟩ ∧
    (after (bootAt .schip 0x0FFE [0x31, 0x00])).pc = 0x1002 ∧ (after (bootAt .xochip 0x0FFE [0x31, 0x01])).pc = 0x1000 := by
  decide +kernel

/-- C7 -/
theorem test_sneImm : (after ((boot .chip8 [0x40, 0x01]).setReg 0 1)).pc = 0x0202 ∧ (after ((boot .chip8 [0x40, 0x02]).setReg 0 1)).pc = 0x0204 := by
  decide +kernel

/-- C8 -/
theorem test_seReg : (after (((boot .chip8 [0x51, 0x20]).setReg 1 3).setReg 2 3)).pc = 0x0204 := by
  decide +kernel

/-- C10; 40 R129 -/
theorem test_sneReg : (after ((boot .chip8 [0x9F, 0xF0]).setReg 15 3)).pc = 0x0202 ∧ (after ((boot .chip8 [0x92, 0x30]).setReg 3 8)).pc = 0x0204 := by
  decide +kernel

/-- P5: the skip over a four-byte instruction -/
theorem test_skip_long : (after (boot .xochip [0x30, 0x00, 0xF0, 0x00])).pc = 0x0206 ∧ (after (boot .schip [0x30, 0x00, 0xF0, 0x00])).pc = 0x0204 := by
  decide +kernel

/-- C11 -/
theorem test_jpV0 : let s := ((boot .chip8 [0xB3, 0x00]).setReg 0 0x10).setReg 3 0x20
    (after s).pc = 0x0310 ∧ (after { s with quirks := { s.quirks with jumpUsesVX := true } }).pc = 0x0320 := by
  decide +kernel

/-- C13, and its next step -/
theorem test_jpV0_unmasked : let t := after ((boot .chip8 [0xBF, 0xFF]).setReg 0 0xFF)
    t.pc = 0x10FE ∧ (after t).frec.map (fun r => (r.fault, r.addr)) = some (.memRead 0x10FE, 0x10FE) := by
  decide +kernel

/-- C17; C16 -/
theorem test_exit : let t := after (bootAt .schip 0x020C [0x00, 0xFD])
    (t.run = .exited ∧ t.pc = 0x020E) ∧
      (after (boot .chip8 [0x00, 0xFD])).frec = some ⟨.unknownInstruction 0x00FD, 0x0200, 0x00FD⟩ := by
  decide +kernel

/-- A1 -/
theorem test_ldImm : (after (boot .chip8 [0x6A, 0x2C])).reg 10 = 0x2C := by
  decide +kernel

/-- A2 -/
theorem test_addImm : let t := after ((boot .chip8 [0x70, 0xFF]).setReg 0 0xFF)
    t.reg 0 = 0xFE ∧ t.reg 15 = 0 := by
  decide +kernel

/-- A4 -/
theorem test_ldReg : (after ((boot .chip8 [0x81, 0x20]).setReg 2 0x33)).reg 1 = 0x33 := by
  decide +kernel

/-- A5, A6 -/
theorem test_or : let s := (((boot .chip8 [0x81, 0x21]).setReg 1 0x0F).setReg 2 0xF0).setReg 15 1
    let q := fun s : State => { s with quirks := { s.quirks with logicResetsVF := true } }
    (after s).reg 1 = 0xFF ∧ (after s).reg 15 = 1 ∧ (after (q s)).reg 15 = 0 ∧
      (after (q (((boot .chip8 [0x8F, 0x11]).setReg 15 0x0F).setReg 1 0xF0))).reg 15 = 0 := by
  decide +kernel

/-- A8 -/
theorem test_and : let s := ((boot .chip8 [0x81, 0xF2]).setReg 1 0xFF).setReg 15 0x3C
    let t := after { s with quirks := { s.quirks with logicResetsVF := true } }
    t.reg 1 = 0x3C ∧ t.reg 15 = 0 := by
  decide +kernel

/-- 41 R155; A9 -/
theorem test_xor : (after (((boot .chip8 [0x81, 0x23]).setReg 1 0xFF).setReg 2 0x0F)).reg 1 = 0xF0 ∧
    (after ((boot .chip8 [0x81, 0x13]).setReg 1 0x5A)).reg 1 = 0 := by
  decide +kernel

/-- S2a, A11 -/
theorem test_add : let t := after (((boot .chip8 [0x80, 0x14]).setReg 0 0xFF).setReg 1 1)
    t.reg 0 = 0 ∧ t.reg 15 = 1 ∧ (after ((boot .chip8 [0x8F, 0xF4]).setReg 15 0x80)).reg 15 = 1 := by
  decide +kernel

/-- A15, S3a -/
theorem test_sub : let t := after (((boot .chip8 [0x81, 0x25]).setReg 1 3).setReg 2 5)
    let u := after (((boot .chip8 [0x80, 0x15]).setReg 0 5).setReg 1 5)
    t.reg 1 = 0xFE ∧ t.reg 15 = 0 ∧ u.reg 0 = 0 ∧ u.reg 15 = 1 := by
  decide +kernel

/-- A18, A19 -/
theorem test_subn : let t := after (((boot .chip8 [0x81, 0x27]).setReg 1 3).setReg 2 5)
    let u := after ((boot .chip8 [0x80, 0x17]).setReg 0 1)
    t.reg 1 = 2 ∧ t.reg 15 = 1 ∧ u.reg 0 = 0xFF ∧ u.reg 15 = 0 := by
  decide +kernel

/-- A21, A22 -/
theorem test_shr : let s := ((boot .chip8 [0x80, 0x16]).setReg 0 0xFF).setReg 1 2
    let q := after { s with quirks := { s.quirks with shiftUsesVY := true } }
    (after s).reg 0 = 0x7F ∧ (after s).reg 15 = 1 ∧ q.reg 0 = 1 ∧ q.reg 1 = 2 ∧ q.reg 15 = 0 := by
  decide +kernel

/-- A27 -/
theorem test_shl : let s := ((boot .chip8 [0x81, 0x2E]).setReg 1 0x81).setReg 2 0x40
    let q := after { s with quirks := { s.quirks with shiftUsesVY := true } }
    (after s).reg 1 = 2 ∧ (after s).reg 15 = 1 ∧ q.reg 1 = 0x80 ∧ q.reg 15 = 0 := by
  decide +kernel

/-- A30, for every draw -/
theorem test_rnd : (after ((boot .chip8 [0xC1, 0x00]).setReg 1 0x77)).reg 1 = 0x00 := by
  exact BitVec.and_zero

/-- M1 -/
theorem test_ldI : (after (boot .chip8 [0xA3, 0x00])).I = 0x300 := by
  decide +kernel

/-- M2 -/
theorem test_ldILong : let t := after (boot .xochip [0xF0, 0x00, 0x12, 0x34])
    t.I = 0x234 ∧ t.pc = 0x0204 := by
  decide +kernel

/-- M3 -/
theorem test_ldILong_fault : (after (bootAt .xochip 0x0FFE [0xF0, 0x00])).frec = some ⟨.memRead 0x1000, 0x0FFE, 0xF000⟩ := by
  decide +kernel

/-- M4 -/
theorem test_addI : let t := after (((boot .chip8 [0xF0, 0x1E]).setI 0xFFF).setReg 0 2)
    t.I = 0x001 ∧ t.reg 15 = 0 := by
  decide +kernel

/-- M5, M6 -/
theorem test_ldF : (after ((boot .chip8 [0xF0, 0x29]).setReg 0 0x0F)).I = 0x04B ∧
    (after ((boot .chip8 [0xF0, 0x29]).setReg 0 0x10)).frec = some ⟨.font 0x10 .standard, 0x0200, 0xF029⟩ := by
  decide +kernel

/-- M7, M8 -/
theorem test_ldHF : (after ((boot .schip [0xF0, 0x30]).setReg 0 9)).I = 0x0AA ∧
    (after ((boot .schip [0xF0, 0x30]).setReg 0 10)).frec = some ⟨.font 10 .extended, 0x0200, 0xF030⟩ := by
  decide +kernel

/-- M10 -/
theorem test_bcd : let t := after (((boot .chip8 [0xF0, 0x33]).setReg 0 234).setI 0x300)
    t.mem.get 0x300 = 2 ∧ t.mem.get 0x301 = 3 ∧ t.mem.get 0x302 = 4 ∧ t.mem.get 0x303 = 0 := by
  decide +kernel

/-- M12 -/
theorem test_bcd_fault : (after (((boot .chip8 [0xF0, 0x33]).setReg 0 255).setI 0xFFE)).frec = some ⟨.memWrite 0x1000, 0x0200, 0xF033⟩ := by
  decide +kernel

/-- M13 -/
theorem test_storeRegs : let s := ((boot .chip8 [0xF0, 0x55]).setReg 0 0x77).setI 0xFFF
    let t := after { s with quirks := { s.quirks with memIncrementsI := true } }
    t.mem.get 0xFFF = 0x77 ∧ t.I = 0x000 := by
  decide +kernel

/-- M14, M15 -/
theorem test_storeRegs_faults : (after ((boot .chip8 [0xF1, 0x55]).setI 0xFFF)).frec = some ⟨.memWrite 0x1000, 0x0200, 0xF155⟩ ∧
    (after ((boot .chip8 [0xF1, 0x55]).setI 0x1FF)).frec = some ⟨.memWrite 0x1FF, 0x0200, 0xF155⟩ := by
  decide +kernel

/-- M16 -/
theorem test_loadRegs : let t := after (boot .chip8 [0xF4, 0x65])
    [t.reg 0, t.reg 1, t.reg 2, t.reg 3, t.reg 4, t.reg 5] = [0xF0, 0x90, 0x90, 0x90, 0xF0, 0x00] := by
  decide +kernel

/-- M17 -/
theorem test_loadRegs_fault : (after ((boot .chip8 [0xFF, 0x65]).setI 0xFF1)).frec = some ⟨.memRead 0x1000, 0x0200, 0xFF65⟩ := by
  decide +kernel

/-- M19, M20 -/
theorem test_storeRange : let s := fun b => ((((boot .xochip b).setReg 0 0x0A).setReg 1 0x0B).setReg 2 0x0C).setI 0x400
    let t := after (s [0x50, 0x22])
    let u := after (s [0x52, 0x02])
    [t.mem.get 0x400, t.mem.get 0x401, t.mem.get 0x402] = [0x0A, 0x0B, 0x0C] ∧ t.I = 0x400 ∧
      [u.mem.get 0x400, u.mem.get 0x401, u.mem.get 0x402] = [0x0C, 0x0B, 0x0A] := by
  decide +kernel

/-- 42 R189's example -/
theorem test_loadRange : let t := after (((boot .xochip [0x56, 0x43]).setI 0x500).setMem ((boot .xochip [0x56, 0x43]).mem.pokeAll 0x500 [0xAA, 0xBB, 0xCC]))
    [t.reg 3, t.reg 4, t.reg 5, t.reg 6] = [0x00, 0xCC, 0xBB, 0xAA] ∧ t.I = 0x500 := by
  decide +kernel

/-- M22, M23 -/
theorem test_storeRpl : let t := after (((boot .schip [0xF1, 0x75]).setReg 0 9).setReg 1 8)
    t.rpl[0] = 9 ∧ t.rpl[1] = 8 ∧ t.rpl[2] = 0 ∧
      (after (boot .schip [0xF8, 0x75])).frec = some ⟨.rplCount 8, 0x0200, 0xF875⟩ := by
  decide +kernel

/-- M25 -/
theorem test_storeRpl_index : (after (boot .xochip [0xF8, 0x75])).frec = some ⟨.rplIndex 8, 0x0200, 0xF875⟩ := by
  decide +kernel

/-- M26 -/
theorem test_loadRpl : let s := (boot .schip [0xF2, 0x85]).setReg 3 0x55
    let t := after (s.setRpl (((s.rpl.set 0 9).set 1 8).set 2 7))
    [t.reg 0, t.reg 1, t.reg 2, t.reg 3] = [9, 8, 7, 0x55] := by
  decide +kernel

/-- S4a, S5a -/
theorem test_drw_wrap : let s := (((boot .chip8 [0xD0, 0x11, 0xD0, 0x11]).setReg 0 60).setI 0x300)
    let t := after (s.setMem (s.mem.pokeAll 0x300 [0xFF]))
    sameRows t.p1 (pixels [(60, 0), (61, 0), (62, 0), (63, 0), (0, 0), (1, 0), (2, 0), (3, 0)]) [0, 1] = true ∧
      t.reg 15 = 0 ∧ sameRows (after t).p1 Plane.blank [0, 1] = true ∧ (after t).reg 15 = 1 := by
  decide +kernel

/-- G13 (one byte for each plane), G9 -/
theorem test_drw_planes : let s := (((boot .xochip [0xD0, 0x11]).setReg 0 8).setReg 1 2).setI 0x300
    let t := after (((s.setMem (s.mem.pokeAll 0x300 [0x80, 0x80])).setSel .both).setPlanes Plane.blank (pixels [(8, 2)]))
    sameRows t.p1 (pixels [(8, 2)]) [1, 2, 3] = true ∧ sameRows t.p2 Plane.blank [1, 2, 3] = true ∧ t.reg 15 = 1 ∧
      (after ((boot .chip8 [0xD0, 0x15]).setI 0xFFC)).frec = some ⟨.memRead 0x1000, 0x0200, 0xD015⟩ := by
  decide +kernel

/-- G16 -/
theorem test_cls : let t := after (((boot .xochip [0x00, 0xE0]).setSel .second).setPlanes (pixels [(0, 0)]) (pixels [(0, 0)]))
    sameRows t.p1 (pixels [(0, 0)]) [0] = true ∧ sameRows t.p2 Plane.blank [0] = true := by
  decide +kernel

/-- G17 -/
theorem test_scd : (after ((boot .schip [0x00, 0xC3]).setPlanes (pixels [(5, 0)]) Plane.blank)).p1.row 3 = (pixels [(5, 3)]).row 3 := by
  decide +kernel

/-- G19 -/
theorem test_scu : (after ((boot .xochip [0x00, 0xDF]).setPlanes (pixels [(0, 15), (0, 14), (7, 31)]) Plane.blank)).p1.row 16 = (pixels [(7, 16)]).row 16 := by
  decide +kernel

/-- G20 -/
theorem test_scr_scl : let p := pixels [(60, 0), (2, 0)]
    (after ((boot .schip [0x00, 0xFB]).setPlanes p Plane.blank)).p1.row 0 = (pixels [(6, 0)]).row 0 ∧
      (after ((boot .schip [0x00, 0xFC]).setPlanes p Plane.blank)).p1.row 0 = (pixels [(56, 0)]).row 0 := by
  decide +kernel

/-- G22 -/
theorem test_low : let t := after (((boot .schip [0x00, 0xFE]).setHires true).setPlanes (pixels [(100, 10)]) (pixels [(1, 1)]))
    t.hires = false ∧ t.p1.row 10 = 0 ∧ t.p2.row 1 = 0 := by
  decide +kernel

/-- G23 -/
theorem test_high : let t := after (((boot .schip [0x00, 0xFF]).setHires true).setPlanes (pixels [(0, 0)]) Plane.blank)
    t.hires = true ∧ t.p1.row 0 = 0 := by
  decide +kernel

/-- G24, G25 -/
theorem test_plane : (after (boot .xochip [0xF3, 0x01])).sel = .both ∧ (after ((boot .xochip [0xF0, 0x01]).setSel .both)).sel = .both ∧
    (after (boot .xochip [0xF4, 0x01])).frec = some ⟨.planeMask 4, 0x0200, 0xF401⟩ := by
  decide +kernel

/-- T1 -/
theorem test_getDelay : (after ((boot .chip8 [0xF3, 0x07]).setDt 0x2A)).reg 3 = 0x2A := by
  decide +kernel

/-- T2 -/
theorem test_setDelay : (after ((boot .chip8 [0xF0, 0x15]).setReg 0 3)).dt = 3 := by
  decide +kernel

/-- T3 -/
theorem test_setSound : (after ((boot .chip8 [0xF2, 0x18]).setReg 2 0x10)).st = 0x10 := by
  decide +kernel

/-- T4, T6 -/
theorem test_skp : (after { (bootAt .chip8 0x0300 [0xE1, 0x9E]).setReg 1 5 with keys := keysDown [5] }).pc = 0x0304 ∧
    (after ((boot .chip8 [0xE0, 0x9E]).setReg 0 0x10)).frec = some ⟨.keyIndex 0x10, 0x0200, 0xE09E⟩ := by
  decide +kernel

/-- T4, T5 -/
theorem test_sknp : (after { (bootAt .chip8 0x0300 [0xE1, 0xA1]).setReg 1 5 with keys := keysDown [5] }).pc = 0x0302 ∧
    (after ((boot .chip8 [0xE0, 0xA1]).setReg 0 0x0F)).pc = 0x0204 := by
  decide +kernel

/-- T7; 44 R255's example -/
theorem test_waitKey : (after (boot .chip8 [0xF0, 0x0A])).pc = 0x0200 ∧
    (after { bootAt .chip8 0x020A [0xF2, 0x0A] with keys := keysDown [7] }).reg 2 = 7 := by
  decide +kernel

/-- T9, T10 -/
theorem test_audio : let s := (boot .xochip [0xF0, 0x02]).setI 0xFF0
    let t := after (s.setMem (s.mem.pokeAll 0xFF0 [0, 1, 2, 3, 4, 5, 6, 7, 8, 9, 10, 11, 12, 13, 14, 15]))
    t.pattern[0] = 0 ∧ t.pattern[15] = 15 ∧ t.I = 0xFF0 ∧
      (after (s.setI 0xFF1)).frec = some ⟨.memRead 0x1000, 0x0200, 0xF002⟩ := by
  decide +kernel

/-- T11 -/
theorem test_pitch : (after ((boot .xochip [0xF0, 0x3A]).setReg 0 0xFF)).pitch = 0x00FF := by
  decide +kernel

/-! ## Frames, reset, the host -/

/-- L1 -/
theorem test_frame_ipf0 : let t := after { (((boot .chip8 [0x12, 0x00]).setDt 2).setSt 1) with ipf := 0 }
    t.pc = 0x0200 ∧ t.dt = 1 ∧ t.st = 0 ∧ t.frames = 1 := by
  decide +kernel

/-- 60 R281: the last instruction of a frame ticks -/
theorem test_frame_end : let t := after { (boot .chip8 [0x60, 0x05]).setDt 2 with ipf := 1 }
    t.reg 0 = 5 ∧ t.dt = 1 ∧ t.frames = 1 ∧ t.frameDone = 0 := by
  decide +kernel

/-- C15 -/
theorem test_reset_empty_image : (after State.reset).frec = some ⟨.unknownInstruction 0x0000, 0x0200, 0x0000⟩ := by
  decide +kernel

/-- `withFetchWord` lays out one-word and two-word instructions where the next step fetches them -/
theorem test_withFetchWord : (after (State.reset.withFetchWord 16 0x6A2C)).reg 10 = 0x2C ∧ (after (State.reset.withFetchWord 32 0x1234F000)).I = 0x234 := by
  decide +kernel

/-! ## Witnesses: the hypotheses of the statements can be met -/

theorem witness_DecodeAfterEncode :
    Instr.WellFormed .xochip (.ldILong 0xFFFF) ∧ Instr.WellFormed .chip8 (.drw 15 15 15) := by
  decide +kernel

theorem witness_EncodeAfterDecode :
    decode .chip8 [0x00, 0xE0, 0xAB] = .ok (.cls, [0xAB]) ∧
    decode .xochip [0xF0, 0x00, 0xFF, 0xFF, 0xAB] = .ok (.ldILong 0xFFFF, [0xAB]) := by
  exact ⟨rfl, rfl⟩

theorem witness_DispatchFollowsTheOpcodeMap :
    (∃ r ∈ opcodeMap, (0x8FFE : Word) &&& r.mask = r.pattern ∧ Mode.chip8 ∈ r.modes) ∧
    (∀ r ∈ opcodeMap, ¬ ((0x8FFF : Word) &&& r.mask = r.pattern ∧ Mode.chip8 ∈ r.modes)) := by
  decide +kernel

theorem witness_StepExecutesTheDecodedInstruction :
    (∃ s : State, s.run = .running ∧ s.ipf ≠ 0 ∧ s.pc.toNat = 0xFFE ∧ Decodes s.mode (s.wordAt s.pc.toNat) .cls) ∧
    (∃ s : State, s.run = .running ∧ s.ipf ≠ 0 ∧ s.pc.toNat = 0xFFC ∧ s.mode = .xochip ∧ s.wordAt s.pc.toNat = 0xF000) := by
  exact ⟨⟨bootAt .chip8 0x0FFE [0x00, 0xE0], by decide, by decide, by decide, decodes_of (by decide +kernel)⟩,
    ⟨bootAt .xochip 0x0FFC [0xF0, 0x00], by decide, by decide, by decide, by decide, by decide +kernel⟩⟩

theorem witness_FetchFaultsBeyondMemory :
    let s := bootAt .xochip 0x0FFD [0xF0, 0x00]
    let t := bootAt .xochip 0x0FFE [0xF0, 0x00]
    s.run = .running ∧ s.ipf ≠ 0 ∧ 0xFFF < ({ s with pc := 0x1000 } : State).pc.toNat ∧
      ({ s with pc := 0x0FFF } : State).pc.toNat = 0xFFF ∧ s.mode = .xochip ∧ s.pc.toNat = 0xFFD ∧
      s.wordAt s.pc.toNat = 0xF000 ∧ t.pc.toNat = 0xFFE ∧ t.wordAt t.pc.toNat = 0xF000 := by
  decide +kernel

theorem witness_UnknownWordFaultsTheStep :
    let s := bootAt .schip 0x0FFE [0x51, 0x21]
    s.run = .running ∧ s.ipf ≠ 0 ∧ s.pc.toNat ≤ 0xFFE ∧
      ∀ r ∈ opcodeMap, ¬ (s.wordAt s.pc.toNat &&& r.mask = r.pattern ∧ s.mode ∈ r.modes) := by
  decide +kernel

theorem witness_ModeGatesInstructions :
    Instr.exit.existsIn (boot .chip8 []).mode = false ∧ (Instr.scu 0).existsIn (boot .schip []).mode = false := by
  decide +kernel

theorem witness_TakingAFault :
    (∃ t, step State.reset = .next t ∧ t.run = .faulted) ∧
    ∃ t, step { State.reset with pc := 0x0FFF } = .next t ∧ t.run = .faulted := by
  exact ⟨⟨_, rfl, rfl⟩, ⟨_, rfl, rfl⟩⟩

/-- Each row of the fault table is met by an instruction that takes it. -/
theorem witness_FaultsHaveTheirCauses :
    let s := boot .xochip []
    let q := boot .schip []
    Faults (exec (.drw 0 0 1) { s with I := 0x1000 }) (.memRead 0x1000) (s.pc - 2) 0xD001 ∧
    Faults (exec (.seImm 0 0) { s with pc := 0x0FFF }) (.memRead 0x1000) 0x0FFD 0x3000 ∧
    Faults (exec (.bcd 0) (s.setI 0x1FF)) (.memWrite 0x1FF) (s.pc - 2) 0xF033 ∧
    Faults (exec (.call 0) { s with sp := 16 }) .stackOverflow (s.pc - 2) 0x2000 ∧
    Faults (exec .ret s) .stackUnderflow (s.pc - 2) 0x00EE ∧
    Faults (exec (.ldF 0) (s.setReg 0 0x10)) (.font 0x10 .standard) (s.pc - 2) 0xF029 ∧
    Faults (exec (.plane 4) s) (.planeMask 4) (s.pc - 2) 0xF401 ∧
    Faults (exec (.storeRpl 8) q) (.rplCount 8) (s.pc - 2) 0xF875 ∧
    Faults (exec (.loadRpl 8) s) (.rplIndex 8) (s.pc - 2) 0xF885 ∧
    Faults (exec (.skp 0) (s.setReg 0 0x10)) (.keyIndex 0x10) (s.pc - 2) 0xE09E := by
  refine ⟨?_, ?_, ?_, ?_, ?_, ?_, ?_, ?_, ?_, ?_⟩ <;> exact ⟨_, rfl, rfl, rfl⟩

/-- A program that jumps to itself, in a state that has the invariant. -/
def looping : State := boot .xochip [0x12, 0x00]

theorem looping_steps : ∃ t, step looping = .next t ∧ t.run ≠ .faulted := ⟨_, rfl, by decide⟩

theorem witness_InvariantIsKept : looping.Inv ∧ ∃ t, step looping = .next t := by
  refine ⟨⟨by decide +kernel, fun h => absurd h (by decide), fun _ => ?_⟩, looping_steps.imp fun _ h => h.1⟩
  have quiet : ∀ w h, Plane.quietOutside w h (Vector.replicate 64 0) := Plane.quietOutside_blank
  exact ⟨by decide, by decide, fun k hk => absurd hk (Nat.not_lt_zero _), quiet _ _, quiet _ _, fun _ => rfl, fun _ => rfl,
    .inl rfl, rfl⟩

theorem witness_ResetHasTheInvariant : ∃ (a : ResetArgs) (t : State), State.resetWith a = .next t :=
  ⟨ResetArgs.default, _, State.resetWith_default⟩

theorem witness_ProtectedRegionNeverChanges :
    ∃ t, looping.mem.wf = true ∧ Reaches looping t ∧ t ≠ looping ∧ t.run ≠ .faulted :=
  ⟨_, by decide +kernel, .tail (.refl _) (rfl : step looping = .next _), by decide, by decide⟩

/-- Every element that an instruction may change is changed by one. -/
theorem witness_StateElementsHaveTheirWriters :
    (∃ t, exec (.bcd 0) ((boot .xochip []).setReg 0 1 |>.setI 0x200) = .next t ∧ t.run ≠ .faulted ∧ t.mem ≠ ((boot .xochip []).setReg 0 1 |>.setI 0x200 : State).mem) ∧
    (∃ t, exec (.storeRegs 0) ((boot .xochip []).setReg 0 1 |>.setI 0x300) = .next t ∧ t.run ≠ .faulted ∧ t.mem ≠ ((boot .xochip []).setReg 0 1 |>.setI 0x300 : State).mem) ∧
    (∃ t, exec (.storeRange 0 0) ((boot .xochip []).setReg 0 1 |>.setI 0x300) = .next t ∧ t.run ≠ .faulted ∧ t.mem ≠ ((boot .xochip []).setReg 0 1 |>.setI 0x300 : State).mem) ∧
    (∃ t, exec (.storeRpl 0) ((boot .xochip []).setReg 0 1) = .next t ∧ t.run ≠ .faulted ∧ t.rpl ≠ ((boot .xochip []).setReg 0 1 : State).rpl) ∧
    (∃ t, exec (.call 0) (boot .xochip []) = .next t ∧ t.run ≠ .faulted ∧ t.stack ≠ (boot .xochip [] : State).stack) ∧
    (∃ t, exec (.call 0) (boot .xochip []) = .next t ∧ t.run ≠ .faulted ∧ t.sp ≠ (boot .xochip [] : State).sp) ∧
    (∃ t, exec .ret ({ boot .xochip [] with sp := 1 }) = .next t ∧ t.run ≠ .faulted ∧ t.sp ≠ ({ boot .xochip [] with sp := 1 } : State).sp) ∧
    (∃ t, exec .high (boot .xochip []) = .next t ∧ t.run ≠ .faulted ∧ t.hires ≠ (boot .xochip [] : State).hires) ∧
    (∃ t, exec (.plane 2) (boot .xochip []) = .next t ∧ t.run ≠ .faulted ∧ t.sel ≠ (boot .xochip [] : State).sel) ∧
    (∃ t, exec (.setDelay 0) ((boot .xochip []).setReg 0 1) = .next t ∧ t.run ≠ .faulted ∧ t.dt ≠ ((boot .xochip []).setReg 0 1 : State).dt) ∧
    (∃ t, exec (.setSound 0) ((boot .xochip []).setReg 0 1) = .next t ∧ t.run ≠ .faulted ∧ t.st ≠ ((boot .xochip []).setReg 0 1 : State).st) ∧
    (∃ t, exec .audio (boot .xochip []) = .next t ∧ t.run ≠ .faulted ∧ t.pattern ≠ (boot .xochip [] : State).pattern) ∧
    (∃ t, exec (.pitch 0) (boot .xochip []) = .next t ∧ t.run ≠ .faulted ∧ t.pitch ≠ (boot .xochip [] : State).pitch) ∧
    (∃ t, exec .exit (boot .xochip []) = .next t ∧ t.run ≠ .faulted ∧ t.run ≠ (boot .xochip [] : State).run) ∧
    (∃ t, exec (.ldI 1) (boot .xochip []) = .next t ∧ t.run ≠ .faulted ∧ t.I ≠ (boot .xochip [] : State).I) ∧
    (∃ t, exec .cls ((boot .xochip []).setPlanes (pixels [(0, 0)]) Plane.blank) = .next t ∧ t.run ≠ .faulted ∧ t.p1 ≠ ((boot .xochip []).setPlanes (pixels [(0, 0)]) Plane.blank : State).p1) ∧
    (∃ t, exec .low ((boot .xochip []).setPlanes Plane.blank (pixels [(0, 0)])) = .next t ∧ t.run ≠ .faulted ∧ t.p2 ≠ ((boot .xochip []).setPlanes Plane.blank (pixels [(0, 0)]) : State).p2) := by
  refine ⟨?_, ?_, ?_, ?_, ?_, ?_, ?_, ?_, ?_, ?_, ?_, ?_, ?_, ?_, ?_, ?_, ?_⟩ <;> exact ⟨_, rfl, by decide +kernel, by decide +kernel⟩

theorem witness_RegistersChangeOnlyAsDestinations :
    (∃ t, exec (.add 0 1) ((boot .xochip []).setReg 0 0xFF |>.setReg 1 1) = .next t ∧ t.run ≠ .faulted ∧ t.reg 15 ≠ (boot .xochip []).reg 15) ∧
    (∃ t, exec (.loadRegs 3) (boot .xochip []) = .next t ∧ t.run ≠ .faulted ∧ t.reg 3 ≠ (boot .xochip []).reg 3) := by
  refine ⟨?_, ?_⟩ <;> exact ⟨_, rfl, by decide +kernel, by decide +kernel⟩

theorem witness_HostOnlyStateIsNeverRead :
    SameButHostOnly looping (looping.setSt 9) ∧ looping.setSt 9 ≠ looping ∧ ∃ t, step looping = .next t :=
  ⟨rfl, by decide, looping_steps.imp fun _ h => h.1⟩

/-- An exit, an instruction that is not the frame's last, one just before it, the last one, and IPF = 0. -/
theorem witness_FrameBoundary :
    (∃ u, instrStep (boot .schip [0x00, 0xFD]) = .next u ∧ u.run ≠ .running) ∧
    (∃ u, instrStep { looping with frameDone := 8 } = .next u ∧ u.run = .running ∧ u.frameDone + 1 < u.ipf) ∧
    (∃ u, instrStep { looping with frameDone := 9 } = .next u ∧ u.run = .running ∧ u.ipf ≤ u.frameDone + 1) ∧
    ({ looping with ipf := 0 } : State).run = .running :=
  ⟨⟨_, rfl, by decide⟩, ⟨_, rfl, by decide, by decide⟩, ⟨_, rfl, by decide, by decide⟩, rfl⟩

theorem witness_StepIsDefinedExactlyWhenRunning :
    State.reset.run = .running ∧ (State.reset.setRun .exited).run = .exited ∧ (State.reset.setRun .faulted).run = .faulted ∧
    looping.run = .running ∧ looping.frameDone = 0 ∧ ({ looping with frameDone := 9 } : State).run = .running ∧
    ({ looping with frameDone := 9 } : State).frameDone ≠ 0 := by
  decide +kernel

theorem witness_StepFrameIsItsSteps :
    looping.run = .running ∧ looping.frameDone = 0 ∧ looping.ipf ≠ 0 := by
  decide +kernel

theorem witness_SoundTimerOfOneIsNeverSeen :
    let s := { (boot .chip8 [0xF0, 0x18]).setReg 0 1 with ipf := 1 }
    s.run = .running ∧ s.ipf ≠ 0 ∧ (∃ u, instrStep s = .next u ∧ u.st.toNat = 1) ∧
    ∃ t, step s = .next t ∧ ∃ v, hostView t = .ok v := by
  exact ⟨rfl, by decide, ⟨_, rfl, by decide⟩, _, rfl, _, rfl⟩

theorem witness_HostReadsTheDisplay :
    looping.run = .running ∧ looping.frameDone = 0 ∧ (State.reset.setRun .exited).run ≠ .running ∧ (0 : Nat) < looping.width ∧ 31 < looping.height ∧
    ({ looping with frameDone := 9 } : State).frameDone ≠ 0 := by
  decide +kernel

theorem witness_KeySettersChangeOneKey :
    looping.frameDone = 0 := by
  decide +kernel

/-- an image of the greatest length that fits -/
theorem witness_ResetValues :
    ∃ a : ResetArgs, a.image.length = 3584 := by
  exact ⟨{ ResetArgs.default with image := List.replicate 3584 0 }, List.length_replicate⟩

theorem witness_ResetMemory :
    ∃ (a : ResetArgs) (t : State), State.resetWith a = .next t := by
  exact ⟨ResetArgs.default, _, State.resetWith_default⟩

theorem witness_ImageLengthLimits :
    (∃ a : ResetArgs, a.image.length = 3585) ∧ ∃ a : ResetArgs, a.image = [] ∧ a.ipf ≠ 0 := by
  exact ⟨⟨{ ResetArgs.default with image := List.replicate 3585 0 }, List.length_replicate⟩, ⟨ResetArgs.default, rfl, by decide⟩⟩

theorem witness_JumpsSetPc :
    looping.quirks.jumpUsesVX = false ∧ ∃ x : Reg, x.val = (0xF00 : Addr12).toNat / 0x100 := by
  decide +kernel

theorem witness_CallPushesTheReturnAddress :
    ({ looping with sp := 15 } : State).sp.val < 16 ∧ ({ looping with sp := 16 } : State).sp.val = 16 := by
  decide +kernel

theorem witness_ReturnPopsTheStack :
    (∃ k : Fin 16, ({ looping with sp := 16 } : State).sp.val = k.val + 1) ∧
    (∃ k : Fin 16, ({ looping with sp := 1 } : State).sp.val = k.val + 1) ∧ looping.sp.val = 0 := by
  decide +kernel

theorem witness_ReturnAfterCallResumes :
    ({ looping with sp := 15 } : State).sp.val < 16 := by
  decide +kernel

theorem witness_RegisterSkips :
    looping.reg 0 = (0 : Byte) ∧ looping.reg 0 ≠ (1 : Byte) ∧ (boot .schip []).mode ≠ .xochip ∧
    ({ looping with pc := 0x0FFE } : State).pc.toNat ≤ 0xFFE ∧ 0xFFE < ({ looping with pc := 0x0FFF } : State).pc.toNat ∧
    (fieldOP 0x5121 = 0x5 ∧ fieldN 0x5121 ≠ 0x0 ∧ ¬ (fieldN 0x5121 = 0x2 ∨ fieldN 0x5121 = 0x3)) ∧
    (fieldOP 0x9121 = 0x9 ∧ fieldN 0x9121 ≠ 0x0) := by
  decide +kernel

theorem witness_ExitStops :
    let s := bootAt .schip 0x0FFE [0x00, 0xFD]
    s.mode ≠ .chip8 ∧ s.run = .running ∧ s.ipf ≠ 0 ∧ s.pc.toNat = 0xFFE ∧ s.wordAt s.pc.toNat = 0x00FD := by
  decide +kernel

theorem witness_ShiftsByOne :
    ∃ source, source = (if looping.quirks.shiftUsesVY = true then (looping.reg 1).toNat else (looping.reg 0).toNat) := by
  exact ⟨_, rfl⟩

theorem witness_LongAddressLoad :
    let s := bootAt .xochip 0x0FFC [0xF0, 0x00, 0xFF, 0xFF]
    Mode.schip ≠ .xochip ∧ s.mode = .xochip ∧ s.pc.toNat = 0xFFC ∧ s.wordAt s.pc.toNat = 0xF000 := by
  decide +kernel

theorem witness_GlyphAddresses :
    ((looping.setReg 0 0xF).reg 0).toNat ≤ 0xF ∧ 0xF < ((looping.setReg 0 0x10).reg 0).toNat ∧
    looping.mode ≠ .chip8 ∧ ((looping.setReg 0 9).reg 0).toNat ≤ 9 ∧ 9 < ((looping.setReg 0 10).reg 0).toNat := by
  decide +kernel

theorem witness_DecimalDigitsAreStored :
    looping.mem.wf = true ∧ 0x200 ≤ (looping.setI 0x200).I.toNat ∧ (looping.setI 0x200).I.toNat + 2 ≤ 0xFFF ∧
    (looping.setI (0xFFF - 2)).I.toNat + 2 ≤ 0xFFF ∧ (looping.setI 0x1FF).I.toNat < 0x200 ∧
    0xFFF < (looping.setI (0x1000 - 2)).I.toNat + 2 := by
  decide +kernel

theorem witness_BulkStore :
    looping.mem.wf = true ∧ 0x200 ≤ (looping.setI 0x200).I.toNat ∧ (looping.setI 0x200).I.toNat + 15 ≤ 0xFFF ∧
    (looping.setI (0xFFF - 15)).I.toNat + 15 ≤ 0xFFF ∧ (looping.setI 0x1FF).I.toNat < 0x200 ∧
    0xFFF < (looping.setI (0x1000 - 15)).I.toNat + 15 := by
  decide +kernel

theorem witness_BulkLoad :
    (looping.setI 0xFF0).I.toNat + 15 ≤ 0xFFF ∧ 0xFFF < (looping.setI 0xFF1).I.toNat + 15 ∧
    (looping.setI 0xFFF).I.toNat + 0 ≤ 0xFFF := by
  decide +kernel

/-- X = 14 and Y = 1, in either order -/
theorem witness_RangeStore :
    looping.mode = .xochip ∧ 13 = max (14 : Nat) 1 - min 14 1 ∧ looping.mem.wf = true ∧ 0x200 ≤ (looping.setI 0x200).I.toNat ∧ (looping.setI 0x200).I.toNat + 13 ≤ 0xFFF ∧
    (looping.setI (0xFFF - 13)).I.toNat + 13 ≤ 0xFFF ∧ (looping.setI 0x1FF).I.toNat < 0x200 ∧
    0xFFF < (looping.setI (0x1000 - 13)).I.toNat + 13 := by
  decide +kernel

theorem witness_RangeLoad :
    looping.mode = .xochip ∧ 13 = max (1 : Nat) 14 - min 1 14 ∧ (looping.setI 0xFF2).I.toNat + 13 ≤ 0xFFF ∧
    0xFFF < (looping.setI 0xFF3).I.toNat + 13 ∧ (0 : Reg) < min 14 1 ∧ max (14 : Reg) 1 < 15 := by
  decide +kernel

theorem witness_FlagStoreTransfers :
    looping.mode = .xochip ∧ (boot .schip []).mode = .schip ∧ (7 : Reg).val ≤ 7 ∧ 7 < (8 : Reg).val ∧
    ∃ (k : Fin 8) (r : Reg), r.val = k.val ∧ r ≤ 7 := by
  exact ⟨rfl, rfl, by decide, by decide, 7, 7, rfl, by decide⟩

theorem witness_StoreThenLoadRestores :
    looping.mem.wf = true ∧ 0x200 ≤ (looping.setI 0xFF0).I.toNat ∧ (looping.setI 0xFF0).I.toNat + (15 : Reg).val = 0xFFF := by
  decide +kernel

theorem witness_StoredWordIsFetchedNext :
    ∃ (s : State) (i : Instr), s.mem.wf = true ∧ s.run = .running ∧ s.ipf ≠ 0 ∧ 0x200 ≤ s.pc.toNat ∧ s.pc.toNat = 0xFFE ∧
      s.I = s.pc ∧ Decodes s.mode (wordOf (s.reg 0) (s.reg 1)) i := by
  refine ⟨{ looping with pc := 0x0FFE, I := 0x0FFE, v := (looping.v.set 0 0x6A).set 1 0x2C }, .ldImm 10 0x2C, ?_⟩
  exact ⟨by decide +kernel, rfl, by decide, by decide, by decide, rfl, decodes_of (by decide +kernel)⟩

/-- A sprite at the right edge covers the last column, and the first one only when it wraps. -/
theorem witness_SpriteFlipsWhatItCovers :
    Covers true 64 32 63 31 [[true, true]] 63 31 ∧ ¬ Covers true 64 32 63 31 [[true, true]] 0 31 ∧
      Covers false 64 32 63 31 [[true, true]] 0 31 := by
  refine ⟨⟨0, 0, rfl, rfl, rfl⟩, ?_, ⟨0, 1, rfl, rfl, rfl⟩⟩
  rintro ⟨r, c, -, h⟩
  rw [if_pos rfl] at h
  omega

theorem witness_DrawingTwiceRestores :
    16 ≤ 64 ∧ 64 ≤ 128 ∧ 16 ≤ 32 ∧ 32 ≤ 64 ∧ (List.replicate 16 (List.replicate 16 true)).length ≤ 16 ∧
      ∀ row ∈ List.replicate 16 (List.replicate 16 true), row.length ≤ 16 := by decide

/-- Both sprite shapes: the largest that fits, the first that does not, and the empty one. -/
theorem witness_DrawInstruction :
    let s := looping.setHires true |>.setSel .both
    (s.hires && (0x0 : Nibble) == 0) = true ∧ (s.setI 0xFC0).I.toNat + 2 * 32 = 0x1000 ∧
      0x1000 < (s.setI 0xFC1).I.toNat + 2 * 32 ∧ (looping.hires && (0xF : Nibble) == 0) = false ∧
      (looping.setI 0xFF1).I.toNat + 1 * 15 = 0x1000 ∧ 0x1000 < (looping.setI 0xFF2).I.toNat + 1 * 15 ∧
      (if (looping.hires && (0x0 : Nibble) == 0) = true then 32 else (0x0 : Nibble).toNat) = 0 := by
  decide +kernel

theorem witness_ClearingInstructions :
    (boot .schip []).mode ≠ .chip8 := by
  decide +kernel

theorem witness_ScrollInstructions :
    (boot .schip []).mode ≠ .chip8 ∧ looping.mode = .xochip := by
  decide +kernel

theorem witness_PlaneSelection :
    looping.mode = .xochip ∧ (0 : Nibble).toNat = 0 ∧ (1 : Nibble).toNat = 1 ∧ (2 : Nibble).toNat = 2 ∧
    (3 : Nibble).toNat = 3 ∧ 3 < (4 : Nibble).toNat := by
  decide +kernel

theorem witness_TimerAndPitchRegisters :
    looping.mode = .xochip := by
  decide +kernel

theorem witness_KeySkips :
    0xF < ((looping.setReg 0 0x10).reg 0).toNat ∧ (∃ k : Fin 16, ((looping.setReg 0 0xF).reg 0).toNat = k.val) ∧
    looping.keys[15] = false ∧ (keysDown [15])[15] = true := by
  decide +kernel

theorem witness_WaitForKey :
    (∀ k : Fin 16, looping.keys[k] = false) ∧ ∃ k : Fin 16, (keysDown [3, 9])[k] = true := by
  decide +kernel

theorem witness_AudioPattern :
    looping.mode = .xochip ∧ (looping.setI 0xFF0).I.toNat + 15 ≤ 0xFFF ∧ 0xFFF < (looping.setI 0xFF1).I.toNat + 15 := by
  decide +kernel

end Sys2Proof.Tests
end

section
/-!
PROOFS, 10_state.md. The writes an instruction may make, as a relation between states: every element named with the
instructions that the spec lets write it and with the bounds the spec draws. One lemma ties the relation to the model
(`effect_writes`); the invariant, the writers of each element and the destinations are inductions over it.
-/
namespace Sys2Proof.Machine

/-! ## Permitted writes, 10_state.md's columns "written by" -/

/-- R22: the instructions that may write I. -/
def Instr.mayMoveI (q : Quirks) : Instr → Prop
  | .ldI _ | .ldILong _ | .addI _ | .ldF _ | .ldHF _ => True
  | .storeRegs _ | .loadRegs _ => q.memIncrementsI = true
  | _ => False

/-- R31: the instructions that may write a plane, given whether that plane is selected. -/
def Instr.mayDraw (selected : Prop) : Instr → Prop
  | .drw _ _ _ | .cls | .scd _ | .scu _ | .scr | .scl => selected
  | .low | .high => True
  | _ => False

/-- 40 R120: pc is past the first word of an instruction fetched from inside memory. -/
def State.PastFetch (s : State) : Prop := 2 ≤ s.pc.toNat ∧ s.pc.toNat ≤ 0x1000

/-- `t` comes from `s` by writes that instruction `i` may make, one constructor for each kind of element. -/
inductive Writes (s : State) (i : Instr) : State → Prop where
  | refl : Writes s i s
  /-- R20, R21 -/
  | reg {t : State} (x : Reg) (b : Byte) (permitted : Instr.mayWrite s.quirks x i) (h : Writes s i t) :
      Writes s i (t.setReg x b)
  /-- the model's own count of free values, log 6 -/
  | draw {t : State} (h : Writes s i t) : Writes s i t.drawn
  /-- R22 -/
  | index {t : State} (n : Nat) (permitted : Instr.mayMoveI s.quirks i) (h : Writes s i t) : Writes s i (t.setI n)
  /-- R24 -/
  | pc {t : State} (a : Word) (bound : s.Live → s.PastFetch → a.toNat ≤ 0x10FE) (h : Writes s i t) :
      Writes s i (t.setPc a)
  /-- R25, R26 -/
  | push (nnn : Addr12) (hi : i = .call nnn) (room : s.sp.val < 16) :
      Writes s i (s.setStack (s.stack.set s.sp.val s.pc) ⟨s.sp.val + 1, by omega⟩)
  /-- R25, R27 -/
  | pop (hi : i = .ret) (sp : Fin 17) (lower : sp.val ≤ s.sp.val) : Writes s i (s.setStack s.stack sp)
  /-- R28 -/
  | delay (x : Reg) (b : Byte) (hi : i = .setDelay x) : Writes s i (s.setDt b)
  /-- R28 -/
  | sound (x : Reg) (b : Byte) (hi : i = .setSound x) : Writes s i (s.setSt b)
  /-- R29 -/
  | mem (m : Memory) (permitted : (∃ x, i = .bcd x) ∨ (∃ x, i = .storeRegs x) ∨ ∃ x y, i = .storeRange x y)
      (canonical : s.mem.wf = true → m.wf = true) : Writes s i (s.setMem m)
  /-- R30 -/
  | rpl (x : Reg) (r : Vector Byte 8) (hi : i = .storeRpl x) : Writes s i (s.setRpl r)
  /-- R31, R34 -/
  | planes (p q : Plane) (first : p ≠ s.p1 → Instr.mayDraw (s.sel ≠ .second) i)
      (second : q ≠ s.p2 → Instr.mayDraw (s.sel ≠ .first) i)
      (quiet1 : s.p1.quietOutside s.width s.height → p.quietOutside s.width s.height)
      (quiet2 : s.p2.quietOutside s.width s.height → q.quietOutside s.width s.height) : Writes s i (s.setPlanes p q)
  /-- R32 -/
  | resize (b : Bool) (hi : i = .low ∧ b = false ∨ i = .high ∧ b = true) :
      Writes s i ((s.setHires b).setPlanes Plane.blank Plane.blank)
  /-- R33 -/
  | select (mask : Nibble) (sel : PlaneSel) (hi : i = .plane mask) : Writes s i (s.setSel sel)
  /-- R35 -/
  | pattern (p : Vector Byte 16) (hi : i = .audio) : Writes s i (s.setPattern p)
  /-- R35 -/
  | pitch (x : Reg) (w : Word) (hi : i = .pitch x) : Writes s i (s.setPitch w)
  /-- R38 -/
  | exit (hi : i = .exit) : Writes s i (s.setRun .exited)

/-! ## What the shared operations write -/

section
variable {s t : State} {i : Instr}

theorem Writes.setResultFlag {x : Reg} (b : Byte) (flag : Bool) (dest : Instr.mayWrite s.quirks x i)
    (vf : Instr.mayWrite s.quirks VF i) : Writes s i (s.setResultFlag x b flag) :=
  (Writes.refl.reg x b dest).reg VF _ vf

theorem Writes.setLogic {x : Reg} (b : Byte) (dest : Instr.mayWrite s.quirks x i)
    (vf : s.quirks.logicResetsVF = true → Instr.mayWrite s.quirks VF i) : Writes s i (s.setLogic x b) := by
  rcases s.setLogic_frame x b with h | ⟨q, h⟩ <;> rw [h]
  · exact .reg x b dest .refl
  · exact .reg VF 0 (vf q) (.reg x b dest .refl)

theorem Writes.setRegs {l : List (Reg × Byte)} (h : Writes s i t) (dest : ∀ c ∈ l, Instr.mayWrite s.quirks c.1 i) :
    Writes s i (t.setRegs l) := by
  induction l generalizing t with
  | nil => exact h
  | cons c l ih => exact ih (h.reg c.1 c.2 (dest c (by simp))) fun d hd => dest d (by simp [hd])

/-- The registers of a range are the destinations, whatever the bytes. -/
theorem Writes.setRegs_zip {x y : Reg} (bytes : List Byte)
    (dest : ∀ r, min x y ≤ r ∧ r ≤ max x y → Instr.mayWrite s.quirks r i) :
    Writes s i (s.setRegs ((regRange x y).zip bytes)) :=
  Writes.refl.setRegs fun c hc => dest c.1 ((mem_regRange x y c.1).1 (List.of_mem_zip hc).1)

theorem Writes.bumpI {x : Reg} (h : Writes s i t) (q : t.quirks = s.quirks)
    (permitted : s.quirks.memIncrementsI = true → Instr.mayMoveI s.quirks i) : Writes s i (t.bumpI x) := by
  rcases t.bumpI_frame x with e | ⟨n, hq, e⟩ <;> rw [e]
  · exact h
  · exact h.index n (permitted (q ▸ hq))

theorem Writes.takeKey {x : Reg} (dest : Instr.mayWrite s.quirks x i) : Writes s i (s.takeKey x) := by
  rcases s.takeKey_frame x with h | ⟨b, h⟩ | ⟨b, h⟩ <;> rw [h]
  · refine .pc _ (fun _ past => ?_) .refl
    obtain ⟨lo, hi⟩ := past
    rw [BitVec.toNat_sub_of_le (by simpa [BitVec.le_def] using lo)]
    simp; omega
  · exact .reg x b dest .refl
  · exact .draw (.reg x b dest .refl)

/-- Moving pc forward by 2 or 4 stays inside R24's bound. -/
theorem Writes.setPc_add (d : Nat) (small : d ≤ 4) : Writes s i (s.setPc (s.pc + BitVec.ofNat 16 d)) := by
  refine .pc _ (fun _ past => ?_) .refl
  obtain ⟨-, hi⟩ := past
  rw [BitVec.toNat_add, BitVec.toNat_ofNat]
  omega

theorem Writes.skipIf {c : Bool} (h : s.skipIf c = .ok t) : Writes s i t := by
  rcases State.skipIf_cases h with rfl | rfl | rfl
  · exact .refl
  · exact .setPc_add 2 (by decide)
  · exact .setPc_add 4 (by decide)

theorem Writes.pointAtGlyph {x : Reg} {size : FontSize} (permitted : Instr.mayMoveI s.quirks i)
    (h : s.pointAtGlyph x size = .ok t) : Writes s i t := by
  obtain ⟨a, -, rfl⟩ := State.pointAtGlyph_frame h
  exact .index a permitted .refl

theorem Writes.storeAtI {bytes : List Byte}
    (permitted : (∃ x, i = .bcd x) ∨ (∃ x, i = .storeRegs x) ∨ ∃ x y, i = .storeRange x y)
    (h : s.storeAtI bytes = .ok t) : Writes s i t := by
  obtain ⟨m, hm, rfl⟩ := State.storeAtI_frame h
  exact .mem m permitted fun wf => (memWriteBytes_spec hm wf).2.1

/-- Clearing or scrolling the selected planes. -/
theorem Writes.mapSelected {f : Plane → Plane} (permitted : ∀ {selected : Prop}, selected → Instr.mayDraw selected i)
    (quiet : ∀ p : Plane, p.quietOutside s.width s.height → (f p).quietOutside s.width s.height) :
    Writes s i (s.mapSelected f) := by
  refine .planes _ _ (fun ne => permitted fun e => ?_) (fun ne => permitted fun e => ?_) (fun q => ?_) (fun q => ?_)
  · simp [e, PlaneSel.hasFirst] at ne
  · simp [e, PlaneSel.hasSecond] at ne
  · split <;> [exact quiet _ q; exact q]
  · split <;> [exact quiet _ q; exact q]

/-- A scroll is a new content of the active area. -/
theorem Writes.scroll (new : Plane → Nat → BitVec 128)
    (permitted : ∀ {selected : Prop}, selected → Instr.mayDraw selected i) :
    Writes s i (s.mapSelected fun p => p.mapActive s.width s.height (new p)) :=
  .mapSelected permitted fun _ => Plane.quietOutside_mapActive s.width_le s.height_le _

theorem Writes.drawSelected {x y : Reg} {n : Nibble} (h : s.drawSelected x y n = .ok t) : Writes s (.drw x y n) t := by
  obtain ⟨p, q, b, rfl, keep1, keep2, quiet1, quiet2⟩ := State.drawSelected_frame h
  exact .reg VF b rfl (.planes p q (fun ne e => ne (keep1 e)) (fun ne e => ne (keep2 e)) quiet1 quiet2)

theorem Writes.selectPlanes {mask : Nibble} (h : s.selectPlanes mask = .ok t) : Writes s (.plane mask) t := by
  obtain ⟨sel, rfl⟩ := State.selectPlanes_frame h
  exact .select mask sel rfl

theorem Writes.ret {a : Word} {u : State} (h : s.pop = .ok (a, u)) : Writes s .ret (u.setPc a) := by
  by_cases empty : s.sp.val = 0
  · rw [State.pop_empty empty] at h
    cases h
  · rw [State.pop_ok empty] at h
    cases h
    refine .pc _ (fun live _ => ?_) (.pop rfl _ (Nat.sub_le ..))
    have := live.slotBound ⟨s.sp.val - 1, by omega⟩ (by simp only []; omega)
    exact this.trans (by decide)

theorem Writes.call {nnn : Addr12} {u : State} (h : s.push s.pc = .ok u) :
    Writes s (.call nnn) (u.setPc (nnn.setWidth 16)) := by
  by_cases room : s.sp.val < 16
  · rw [State.push_ok room] at h
    cases h
    refine .pc _ (fun _ _ => ?_) (.push nnn rfl room)
    rw [BitVec.toNat_setWidth]
    omega
  · rw [State.push_full (by omega)] at h
    cases h

end

/-- Whatever an instruction that completes does, it writes only what it may write. -/
theorem effect_writes {s t : State} {i : Instr} (e : Effect s t i) : Writes s i t := by
  cases i <;> simp only [Effect] at e
  case scd n | scu n => subst e; exact .scroll _ id
  case scr | scl => subst e; exact .scroll _ id
  case cls => subst e; exact .mapSelected id fun _ _ => Plane.quietOutside_blank _ _
  case low => subst e; exact .resize false (.inl ⟨rfl, rfl⟩)
  case high => subst e; exact .resize true (.inr ⟨rfl, rfl⟩)
  case drw => exact .drawSelected e
  case plane => exact .selectPlanes e
  case ret => obtain ⟨a, u, hu, rfl⟩ := e; exact .ret hu
  case call => obtain ⟨u, hu, rfl⟩ := e; exact .call hu
  case jp nnn =>
    subst e
    exact .pc _ (fun _ _ => by rw [BitVec.toNat_setWidth]; omega) .refl
  case jpV0 nnn =>
    subst e
    exact .pc _ (fun _ _ => by rw [BitVec.toNat_add, BitVec.toNat_setWidth, BitVec.toNat_setWidth]; omega) .refl
  case exit => subst e; exact .exit rfl
  case seImm | sneImm | seReg | sneReg => exact .skipIf e
  case skp | sknp => obtain ⟨_, _, e⟩ := e; exact .skipIf e
  case storeRange x y => exact .storeAtI (.inr (.inr ⟨x, y, rfl⟩)) e
  case bcd x => exact .storeAtI (.inl ⟨x, rfl⟩) e
  case storeRegs x =>
    obtain ⟨u, hu, rfl⟩ := e
    have h := Writes.storeAtI (.inr (.inl ⟨x, rfl⟩)) hu
    obtain ⟨m, -, rfl⟩ := State.storeAtI_frame hu
    exact h.bumpI rfl id
  case loadRange x y =>
    obtain ⟨bytes, -, rfl⟩ := State.loadFromI_frame e
    exact .setRegs_zip bytes fun _ => id
  case loadRegs x =>
    obtain ⟨u, hu, rfl⟩ := e
    obtain ⟨bytes, -, rfl⟩ := State.loadFromI_frame hu
    have h : Writes s (.loadRegs x) (s.setRegs ((regRange 0 x).zip bytes)) :=
      .setRegs_zip bytes fun r hr => show r ≤ x by simpa using hr.2
    exact h.bumpI (by rw [State.setRegs_frame]) id
  case loadRpl x =>
    obtain ⟨bytes, -, rfl⟩ := e
    exact .setRegs_zip bytes fun r hr => show r ≤ x by simpa using hr.2
  case storeRpl x => obtain ⟨r, -, rfl⟩ := e; exact .rpl x r rfl
  case or | and | xor => subst e; exact .setLogic _ (.inl rfl) fun q => .inr ⟨rfl, q⟩
  case add | sub | subn | shr | shl => subst e; exact .setResultFlag _ _ (.inl rfl) (.inr rfl)
  case ldImm | addImm | ldReg | getDelay => subst e; exact .reg _ _ rfl .refl
  case rnd => subst e; exact .draw (.reg _ _ rfl .refl)
  case waitKey => subst e; exact .takeKey rfl
  case ldI | addI => subst e; exact .index _ trivial .refl
  case ldILong => subst e; exact .index _ trivial (.setPc_add 2 (by decide))
  case ldF | ldHF => exact .pointAtGlyph trivial e
  case setDelay x => subst e; exact .delay x _ rfl
  case setSound x => subst e; exact .sound x _ rfl
  case pitch x => subst e; exact .pitch x _ rfl
  case audio => obtain ⟨_, p, -, -, rfl⟩ := e; exact .pattern p rfl

/-! ## The invariant, O14 -/

section
variable {s t : State} {i : Instr}

theorem Writes.mem_wf (h : Writes s i t) (wf : s.mem.wf = true) : t.mem.wf = true := by
  induction h with
  | mem m permitted canonical => exact canonical wf
  | reg _ _ _ _ ih | draw _ ih | index _ _ _ ih | pc _ _ _ ih => exact ih
  | _ => exact wf

/-- The slots in use after a push: the old ones, and the address after the call. -/
theorem State.slotBound_push (live : s.Live) (past : s.PastFetch) (room : s.sp.val < 16) (k : Fin 16)
    (used : k.val < s.sp.val + 1) : ((s.stack.set s.sp.val s.pc)[k]).toNat ≤ 0x1000 := by
  rw [Fin.getElem_fin, Vector.getElem_set]
  split
  · exact past.2
  · exact live.slotBound k (by omega)

theorem mode_of_plane {m : Mode} {mask : Nibble} (h : (Instr.plane mask).existsIn m = true) : m = .xochip := by
  simpa [Instr.existsIn, Instr.row, xochipModes] using h

/-- An instruction keeps what holds of a state that is not FAULTED. -/
theorem Writes.live (h : Writes s i t) (live : s.Live) (past : s.PastFetch) (mode : i.existsIn s.mode = true) :
    t.Live := by
  induction h with
  | reg _ _ _ _ ih | draw _ ih => exact { ih with }
  | index n _ _ ih => exact { ih with addressInRange := by rw [State.toNat_setI]; omega }
  | pc a bound _ ih => exact { ih with pcBound := bound live past }
  | push nnn hi room => exact { live with slotBound := State.slotBound_push live past room }
  | pop hi sp lower => exact { live with slotBound := fun k used => live.slotBound k (lt_of_lt_of_le used lower) }
  | planes p q _ _ quiet1 quiet2 =>
    exact { live with plane1Quiet := quiet1 live.plane1Quiet, plane2Quiet := quiet2 live.plane2Quiet }
  | resize b hi =>
    refine { live with
      plane1Quiet := Plane.quietOutside_blank _ _
      plane2Quiet := Plane.quietOutside_blank _ _
      loresInChip8 := fun chip8 => ?_ }
    rcases hi with ⟨-, rfl⟩ | ⟨rfl, -⟩
    · rfl
    · have chip8 : s.mode = .chip8 := chip8
      rw [chip8] at mode
      exact absurd mode (by decide)
  | select mask sel hi =>
    subst hi
    exact { live with firstPlaneOutsideXochip := fun other => absurd (mode_of_plane mode) other }
  | refl | delay | sound | mem | rpl | pattern | pitch | exit => exact { live with }

end

/-- Moving pc past a word fetched from inside memory. -/
theorem pastFetch_of_le {s : State} (inside : s.pc.toNat ≤ 0xFFE) : (s.setPc (s.pc + 2)).PastFetch := by
  have : (s.pc + 2).toNat = s.pc.toNat + 2 := by
    rw [BitVec.toNat_add]
    change (s.pc.toNat + 2) % 2 ^ 16 = _
    omega
  simp only [State.PastFetch, State.setPc_pc]
  omega

theorem State.Live.setPc {s : State} {a : Word} (live : s.Live) (bound : a.toNat ≤ 0x10FE) : (s.setPc a).Live :=
  { live with pcBound := bound }

/-- What taking a fault leaves has the invariant, whatever the state was. -/
theorem takeFault_inv (f : CoreFault) (addr raw : Word) (s : State) : (takeFault f addr raw s).Inv where
  memCanonical := takeFault_mem_wf f addr raw s
  recordWhenFaulted _ := rfl
  live notFaulted := absurd rfl notFaulted

theorem endFrame_inv {s : State} (inv : s.Inv) : (endFrame s).Inv := by
  rw [endFrame_frame]
  exact ⟨inv.memCanonical, inv.recordWhenFaulted, fun good => { inv.live good with frameInBudget := .inl rfl }⟩

theorem frameTail_ended {s : State} (run : s.run ≠ .running) : frameTail s = abandonFrame s := if_pos run

theorem frameTail_inFrame {s : State} (run : s.run = .running) (budget : s.frameDone + 1 < s.ipf) :
    frameTail s = { s with frameDone := s.frameDone + 1 } := (if_neg (not_not.2 run)).trans (if_pos budget)

theorem frameTail_last {s : State} (run : s.run = .running) (budget : ¬ s.frameDone + 1 < s.ipf) :
    frameTail s = endFrame s := (if_neg (not_not.2 run)).trans (if_neg budget)

theorem frameTail_inv {s : State} (inv : s.Inv) : (frameTail s).Inv := by
  by_cases run : s.run = .running
  · by_cases budget : s.frameDone + 1 < s.ipf
    · rw [frameTail_inFrame run budget]
      exact ⟨inv.memCanonical, inv.recordWhenFaulted, fun good => { inv.live good with frameInBudget := .inr budget }⟩
    · rw [frameTail_last run budget]
      exact endFrame_inv inv
  · rw [frameTail_ended run]
    exact ⟨inv.memCanonical, inv.recordWhenFaulted, fun good => { inv.live good with frameInBudget := .inl rfl }⟩

theorem instrStep_inv {s u : State} (inv : s.Inv) (run : s.run ≠ .faulted) (h : instrStep s = .next u) : u.Inv := by
  rcases instrStep_effect h run with ⟨i, -, mode, inside, good, effect⟩ | ⟨i, f, -, rfl⟩ | ⟨f, raw, -, rfl⟩
  · have past := pastFetch_of_le inside
    have writes := effect_writes effect
    exact ⟨writes.mem_wf inv.memCanonical, fun faulted => absurd faulted good,
      fun _ => writes.live ((inv.live run).setPc (past.2.trans (by decide))) past mode⟩
  · exact takeFault_inv _ _ _ _
  · exact takeFault_inv _ _ _ _

/-- Settles O14: a step is an instruction step, which keeps the invariant write by write, and the frame loop's tail. -/
theorem invariantIsKept : Obligations.InvariantIsKept := by
  intro s t inv h
  obtain ⟨run, ⟨-, rfl⟩ | ⟨-, u, hu, rfl⟩⟩ := step_cases h
  · exact endFrame_inv inv
  · exact frameTail_inv (instrStep_inv inv (by simp [run]) hu)

/-! ## The destinations, O18 -/

theorem Writes.reg_changes {s t : State} {i : Instr} (h : Writes s i t) (r : Reg) (changed : t.reg r ≠ s.reg r) :
    Instr.mayWrite s.quirks r i := by
  induction h with
  | reg x b permitted _ ih =>
    by_cases e : r = x
    · exact e ▸ permitted
    · exact ih (by rwa [State.reg_setReg_ne _ _ e] at changed)
  | draw _ ih | index _ _ _ ih | pc _ _ _ ih => exact ih changed
  | _ => exact absurd rfl changed

/-- Settles O18: what changed was written, and only a permitted register is written. -/
theorem registersChangeOnlyAsDestinations : Obligations.RegistersChangeOnlyAsDestinations := by
  intro i s t h good r changed
  obtain ⟨-, effect⟩ := exec_effect h good
  exact (effect_writes effect).reg_changes r changed

/-! ## The writers of each element, O17 -/

/-- Every element but V and pc changed only if `i` is one of its writers. -/
structure ChangesOnlyItsElements (s t : State) (i : Instr) : Prop where
  config : t.mode = s.mode ∧ t.quirks = s.quirks ∧ t.ipf = s.ipf ∧ t.keys = s.keys ∧ t.frec = s.frec
  mem : t.mem ≠ s.mem → (∃ x, i = .bcd x) ∨ (∃ x, i = .storeRegs x) ∨ ∃ x y, i = .storeRange x y
  rpl : t.rpl ≠ s.rpl → ∃ x, i = .storeRpl x
  stack : t.stack ≠ s.stack → ∃ nnn, i = .call nnn
  sp : t.sp ≠ s.sp → (∃ nnn, i = .call nnn) ∨ i = .ret
  hires : t.hires ≠ s.hires → i = .low ∨ i = .high
  sel : t.sel ≠ s.sel → ∃ mask, i = .plane mask
  dt : t.dt ≠ s.dt → ∃ x, i = .setDelay x
  st : t.st ≠ s.st → ∃ x, i = .setSound x
  pattern : t.pattern ≠ s.pattern → i = .audio
  pitch : t.pitch ≠ s.pitch → ∃ x, i = .pitch x
  run : t.run ≠ s.run → i = .exit
  index : t.I ≠ s.I → Instr.mayMoveI s.quirks i
  plane1 : t.p1 ≠ s.p1 → Instr.mayDraw (s.sel ≠ .second) i
  plane2 : t.p2 ≠ s.p2 → Instr.mayDraw (s.sel ≠ .first) i

theorem ChangesOnlyItsElements.refl (s : State) (i : Instr) : ChangesOnlyItsElements s s i := by
  constructor <;> simp

theorem Writes.changesOnlyItsElements {s t : State} {i : Instr} (h : Writes s i t) : ChangesOnlyItsElements s t i := by
  have same := ChangesOnlyItsElements.refl s i
  induction h with
  | refl => exact same
  | reg _ _ _ _ ih | draw _ ih | pc _ _ _ ih => exact { ih with }
  | index n permitted _ ih => exact { ih with index := fun _ => permitted }
  | push nnn hi _ => exact { same with stack := fun _ => ⟨nnn, hi⟩, sp := fun _ => .inl ⟨nnn, hi⟩ }
  | pop hi _ _ => exact { same with sp := fun _ => .inr hi }
  | delay x _ hi => exact { same with dt := fun _ => ⟨x, hi⟩ }
  | sound x _ hi => exact { same with st := fun _ => ⟨x, hi⟩ }
  | mem _ permitted _ => exact { same with mem := fun _ => permitted }
  | rpl x _ hi => exact { same with rpl := fun _ => ⟨x, hi⟩ }
  | planes _ _ first second _ _ => exact { same with plane1 := first, plane2 := second }
  | resize _ hi =>
    rcases hi with ⟨rfl, -⟩ | ⟨rfl, -⟩
    · exact { same with hires := fun _ => .inl rfl, plane1 := fun _ => trivial, plane2 := fun _ => trivial }
    · exact { same with hires := fun _ => .inr rfl, plane1 := fun _ => trivial, plane2 := fun _ => trivial }
  | select mask _ hi => exact { same with sel := fun _ => ⟨mask, hi⟩ }
  | pattern _ hi => exact { same with pattern := fun _ => hi }
  | pitch x _ hi => exact { same with pitch := fun _ => ⟨x, hi⟩ }
  | exit hi => exact { same with run := fun _ => hi }

/-- Settles O17: the elements an instruction changes are among those it may write. -/
theorem stateElementsHaveTheirWriters : Obligations.StateElementsHaveTheirWriters := by
  intro i s t h good
  obtain ⟨-, effect⟩ := exec_effect h good
  have c := (effect_writes effect).changesOnlyItsElements
  exact ⟨c.config, c.mem, c.rpl, c.stack, c.sp, c.hires, c.sel, c.dt, c.st, c.pattern, c.pitch, c.run, c.index,
    c.plane1, c.plane2⟩

end Sys2Proof.Machine
end

section
/-!
PROOFS, 10_state.md R28, R35, R40: ST, PATTERN and PITCH are the host's alone. Every operation commutes with replacing them.
-/
namespace Sys2Proof.Machine

/-- ST, PATTERN and PITCH replaced by those of `h`. -/
def State.withHost (s h : State) : State := { s with st := h.st, pattern := h.pattern, pitch := h.pitch }

theorem SameButHostOnly.exists_withHost {s s' : State} (h : SameButHostOnly s s') : ∃ g, s' = s.withHost g := ⟨s', h⟩

theorem sameButHostOnly_of_eq {s s' h : State} (e : s' = s.withHost h) : SameButHostOnly s s' := by
  subst e
  rfl

section
variable (s h : State)

@[simp] theorem State.withHost_mode : (s.withHost h).mode = s.mode := rfl
@[simp] theorem State.withHost_quirks : (s.withHost h).quirks = s.quirks := rfl
@[simp] theorem State.withHost_ipf : (s.withHost h).ipf = s.ipf := rfl
@[simp] theorem State.withHost_run : (s.withHost h).run = s.run := rfl
@[simp] theorem State.withHost_pc : (s.withHost h).pc = s.pc := rfl
@[simp] theorem State.withHost_mem : (s.withHost h).mem = s.mem := rfl
@[simp] theorem State.withHost_rpl : (s.withHost h).rpl = s.rpl := rfl
@[simp] theorem State.withHost_p1 : (s.withHost h).p1 = s.p1 := rfl
@[simp] theorem State.withHost_p2 : (s.withHost h).p2 = s.p2 := rfl
@[simp] theorem State.withHost_sel : (s.withHost h).sel = s.sel := rfl
@[simp] theorem State.withHost_keys : (s.withHost h).keys = s.keys := rfl
@[simp] theorem State.withHost_keyInputs : (s.withHost h).keyInputs = s.keyInputs := rfl
@[simp] theorem State.withHost_draws : (s.withHost h).draws = s.draws := rfl
@[simp] theorem State.withHost_reg (r : Reg) : (s.withHost h).reg r = s.reg r := rfl
@[simp] theorem State.withHost_ea (k : Nat) : (s.withHost h).ea k = s.ea k := rfl
@[simp] theorem State.withHost_regList (rs : List Reg) : (s.withHost h).regList rs = s.regList rs := rfl
@[simp] theorem State.withHost_spriteSize (n : Nibble) : (s.withHost h).spriteSize n = s.spriteSize n := rfl

end

/-! ## The shared operations -/

section
variable (s h : State)

/-- A fault reads none of the three, and leaves none of them as it was (60 R273). -/
theorem takeFault_withHost (f : CoreFault) (addr raw : Word) : takeFault f addr raw (s.withHost h) = takeFault f addr raw s :=
  rfl

theorem State.setLogic_withHost (x : Reg) (b : Byte) : (s.withHost h).setLogic x b = (s.setLogic x b).withHost h := by
  by_cases q : s.quirks.logicResetsVF = true <;> simp only [State.setLogic, State.withHost_quirks, q] <;> rfl

theorem State.setRegs_withHost (l : List (Reg × Byte)) : (s.withHost h).setRegs l = (s.setRegs l).withHost h := by
  induction l generalizing s with
  | nil => rfl
  | cons c l ih => exact ih (s.setReg c.1 c.2)

theorem State.bumpI_withHost (x : Reg) : (s.withHost h).bumpI x = (s.bumpI x).withHost h := by
  by_cases q : s.quirks.memIncrementsI = true <;> simp only [State.bumpI, State.withHost_quirks, q] <;> rfl

theorem State.takeKey_withHost (x : Reg) : (s.withHost h).takeKey x = (s.takeKey x).withHost h := by
  unfold State.takeKey
  simp only [State.withHost_keys]
  split <;> rfl

theorem State.push_withHost (a : Word) : (s.withHost h).push a = (s.push a).map (·.withHost h) := by
  by_cases room : s.sp.val < 16
  · rw [State.push_ok room, State.push_ok (s := s.withHost h) room]
    rfl
  · have full : s.sp.val = 16 := by omega
    rw [State.push_full full, State.push_full (s := s.withHost h) full]
    rfl

theorem State.pop_withHost : (s.withHost h).pop = s.pop.map fun r => (r.1, r.2.withHost h) := by
  by_cases empty : s.sp.val = 0
  · rw [State.pop_empty empty, State.pop_empty (s := s.withHost h) empty]
    rfl
  · rw [State.pop_ok empty, State.pop_ok (s := s.withHost h) empty]
    rfl

theorem State.keyOf_withHost (k : Byte) : (s.withHost h).keyOf k = s.keyOf k := rfl

theorem State.skip_withHost : (s.withHost h).skip = s.skip.map (·.withHost h) := by
  by_cases m : s.mode = .xochip
  · by_cases fit : s.pc.toNat ≤ 0xFFE
    · rw [State.skip_xochip m fit, State.skip_xochip (s := s.withHost h) m fit]
      rfl
    · rw [State.skip_faults m (by omega), State.skip_faults (s := s.withHost h) m (by simp; omega)]
      rfl
  · rw [State.skip_plain m, State.skip_plain (s := s.withHost h) m]
    rfl

theorem State.skipIf_withHost (c : Bool) : (s.withHost h).skipIf c = (s.skipIf c).map (·.withHost h) := by
  cases c
  · rfl
  · exact s.skip_withHost h

theorem State.storeAtI_withHost (bytes : List Byte) :
    (s.withHost h).storeAtI bytes = (s.storeAtI bytes).map (·.withHost h) := by
  unfold State.storeAtI
  simp only [State.withHost_mem, State.withHost_ea]
  cases memWriteBytes s.mem (s.ea 0) bytes <;> rfl

theorem State.loadFromI_withHost (rs : List Reg) : (s.withHost h).loadFromI rs = (s.loadFromI rs).map (·.withHost h) := by
  unfold State.loadFromI
  simp only [State.withHost_mem, State.withHost_ea, State.setRegs_withHost]
  cases memReadBytes s.mem (s.ea 0) rs.length <;> rfl

theorem State.pointAtGlyph_withHost (x : Reg) (size : FontSize) :
    (s.withHost h).pointAtGlyph x size = (s.pointAtGlyph x size).map (·.withHost h) := by
  unfold State.pointAtGlyph
  simp only [State.withHost_mode, State.withHost_reg]
  cases fontAddress s.mode (s.reg x) size <;> rfl

theorem State.drawPlane_withHost (x y : Reg) (n : Nibble) (a : Nat) (p : Plane) :
    (s.withHost h).drawPlane x y n a p = s.drawPlane x y n a p := rfl

theorem State.drawSelected_withHost (x y : Reg) (n : Nibble) :
    (s.withHost h).drawSelected x y n = (s.drawSelected x y n).map (·.withHost h) := by
  unfold State.drawSelected
  simp only [State.withHost_sel, State.drawPlane_withHost, State.withHost_ea, State.withHost_p1, State.withHost_p2,
    State.withHost_spriteSize]
  split
  · cases s.drawPlane x y n (s.ea 0) s.p1 <;> rfl
  · cases s.drawPlane x y n (s.ea 0) s.p2 <;> rfl
  · rcases s.drawPlane x y n (s.ea 0) s.p1 with f | r
    · rfl
    · cases s.drawPlane x y n (s.ea (s.spriteSize n)) s.p2 <;> rfl

theorem State.selectPlanes_withHost (mask : Nibble) :
    (s.withHost h).selectPlanes mask = (s.selectPlanes mask).map (·.withHost h) := by
  unfold State.selectPlanes
  split <;> rfl

end

/-! ## Instructions -/

/-- Two pseudocodes come to the same fault, or to states that differ in the host's elements only. -/
inductive Agree : Except CoreFault State → Except CoreFault State → Prop where
  | ok {t t' : State} (h : SameButHostOnly t t') : Agree (.ok t) (.ok t')
  | error (f : CoreFault) : Agree (.error f) (.error f)

theorem agree_map (p : Except CoreFault State) (h : State) : Agree p (p.map (·.withHost h)) := by
  cases p with
  | ok t => exact .ok rfl
  | error f => exact .error f

/-- Two answers are next states that differ in the host's elements only. -/
def AgreeNext (a b : Answer) : Prop := ∃ t t', a = .next t ∧ b = .next t' ∧ SameButHostOnly t t'

theorem dispatch_agree (i : Instr) (s h : State) {p p' : Except CoreFault State} (agree : Agree p p') :
    AgreeNext (dispatch i s p) (dispatch i (s.withHost h) p') := by
  cases hm : i.existsIn s.mode
  · exact ⟨_, _, dispatch_absent hm p, dispatch_absent (s := s.withHost h) hm p', rfl⟩
  · cases agree with
    | ok same => exact ⟨_, _, dispatch_ok hm, dispatch_ok (s := s.withHost h) hm, same⟩
    | error f => exact ⟨_, _, dispatch_error hm, dispatch_error (s := s.withHost h) hm, rfl⟩

theorem exec_agree (i : Instr) (s h : State) : AgreeNext (exec i s) (exec i (s.withHost h)) := by
  cases i
  case ret =>
    rw [exec_ret, exec_ret, State.pop_withHost]
    refine dispatch_agree _ s h ?_
    rcases s.pop with f | ⟨a, t⟩
    · exact .error f
    · exact .ok rfl
  case call nnn =>
    rw [exec_call, exec_call, State.withHost_pc, State.push_withHost]
    refine dispatch_agree _ s h ?_
    rcases s.push s.pc with f | t
    · exact .error f
    · exact .ok rfl
  case skp | sknp =>
    simp only [exec_skp, exec_sknp, State.keyOf_withHost, State.withHost_reg, State.skipIf_withHost]
    refine dispatch_agree _ s h ?_
    rcases s.keyOf (s.reg _) with f | down
    · exact .error f
    · exact agree_map _ h
  case audio =>
    simp only [exec_audio, State.withHost_mem, State.withHost_ea]
    refine dispatch_agree _ s h ?_
    rcases memReadBytes s.mem (s.ea 0) 16 with f | bytes
    · exact .error f
    · exact .ok rfl
  case storeRegs =>
    simp only [exec_storeRegs, State.withHost_regList, State.storeAtI_withHost]
    refine dispatch_agree _ s h ?_
    rcases s.storeAtI (s.regList _) with f | t
    · exact .error f
    · exact .ok (sameButHostOnly_of_eq (t.bumpI_withHost h _))
  case loadRegs =>
    simp only [exec_loadRegs, State.loadFromI_withHost]
    refine dispatch_agree _ s h ?_
    rcases s.loadFromI _ with f | t
    · exact .error f
    · exact .ok (sameButHostOnly_of_eq (t.bumpI_withHost h _))
  case storeRpl x =>
    simp only [exec_storeRpl, State.withHost_mode, State.withHost_rpl, State.withHost_regList]
    refine dispatch_agree _ s h ?_
    rcases rplCountCheck s.mode x with f | u
    · exact .error f
    · rcases rplWriteAll s.rpl 0 (s.regList _) with f | r
      · exact .error f
      · exact .ok rfl
  case loadRpl x =>
    simp only [exec_loadRpl, State.withHost_mode, State.withHost_rpl, State.setRegs_withHost]
    refine dispatch_agree _ s h ?_
    rcases rplCountCheck s.mode x with f | u
    · exact .error f
    · rcases rplReadAll s.rpl 0 _ with f | r
      · exact .error f
      · exact .ok rfl
  case seImm | sneImm | seReg | sneReg | storeRange | bcd | loadRange | ldF | ldHF | drw | plane =>
    refine dispatch_agree _ s h ?_
    simp only [State.withHost_reg, State.withHost_regList, State.skipIf_withHost, State.storeAtI_withHost,
      State.loadFromI_withHost, State.pointAtGlyph_withHost, State.drawSelected_withHost, State.selectPlanes_withHost]
    exact agree_map _ h
  case or | and | xor =>
    refine dispatch_agree (p := .ok _) (p' := .ok _) _ s h ?_
    exact .ok (sameButHostOnly_of_eq (s.setLogic_withHost h _ _))
  case waitKey x =>
    refine dispatch_agree (p := .ok _) (p' := .ok _) _ s h ?_
    exact .ok (sameButHostOnly_of_eq (s.takeKey_withHost h x))
  all_goals
    refine dispatch_agree (p := .ok _) (p' := .ok _) _ s h ?_
    exact .ok rfl

/-! ## The step -/

/-- The outcome of a fetch with the host's elements replaced; what a fault leaves stays as it is. -/
def Fetched.withHost (h : State) : Fetched → Fetched
  | .run i t => .run i (t.withHost h)
  | .stopped t => .stopped t

section
variable (s h : State)

theorem decodeFetched_withHost (w : Word) (bytes : List Byte) :
    decodeFetched (s.withHost h) w bytes = (decodeFetched s w bytes).withHost h := by
  unfold decodeFetched
  simp only [State.withHost_mode]
  cases decode s.mode bytes <;> rfl

theorem fetch_withHost : fetch (s.withHost h) = (fetch s).withHost h := by
  unfold fetch
  simp only [State.withHost_mem, State.withHost_pc, State.withHost_mode, State.withHost_draws, takeFault_withHost,
    decodeFetched_withHost]
  rcases memReadWord s.mem s.pc.toNat with f | w
  · rfl
  · by_cases long : isLong s.mode w = true <;> simp only [long]
    · cases memReadWord s.mem (s.pc.toNat + 2) <;> rfl
    · rfl

theorem instrStep_agree : AgreeNext (instrStep s) (instrStep (s.withHost h)) := by
  unfold instrStep
  rw [fetch_withHost]
  cases fetch s with
  | run i t => exact exec_agree i t h
  | stopped t => exact ⟨t, t, rfl, rfl, rfl⟩

theorem takeKeyInput_withHost : takeKeyInput (s.withHost h) = (takeKeyInput s).withHost h := by
  unfold takeKeyInput
  simp only [State.withHost_keyInputs]
  cases s.keyInputs <;> rfl

/-- At the end of a frame the host's elements become those of the ticked host. -/
theorem endFrame_withHost : endFrame (s.withHost h) = (endFrame s).withHost (tick h) :=
  takeKeyInput_withHost { tick s with frameDone := 0, frames := s.frames + 1 } (tick h)

theorem frameTail_agree : SameButHostOnly (frameTail s) (frameTail (s.withHost h)) := by
  by_cases run : s.run = .running
  · by_cases budget : s.frameDone + 1 < s.ipf
    · rw [frameTail_inFrame run budget, frameTail_inFrame (s := s.withHost h) run budget]
      rfl
    · rw [frameTail_last run budget, frameTail_last (s := s.withHost h) run budget]
      exact sameButHostOnly_of_eq (endFrame_withHost s h)
  · rw [frameTail_ended run, frameTail_ended (s := s.withHost h) run]
    rfl

end

/-- Settles O19: the fetch reads none of the three, no instruction does, and neither does the frame loop. -/
theorem hostOnlyStateIsNeverRead : Obligations.HostOnlyStateIsNeverRead := by
  intro s s' t same h
  obtain ⟨g, rfl⟩ := same.exists_withHost
  obtain ⟨run, ⟨ipf, rfl⟩ | ⟨ipf, u, hu, rfl⟩⟩ := step_cases h
  · refine ⟨endFrame (s.withHost g), ?_, sameButHostOnly_of_eq (endFrame_withHost s g)⟩
    simp [step, run, ipf]
  · obtain ⟨v, v', hv, hv', same⟩ := instrStep_agree s g
    rw [hu] at hv
    cases hv
    obtain ⟨g', rfl⟩ := same.exists_withHost
    refine ⟨frameTail (u.withHost g'), ?_, frameTail_agree u g'⟩
    rw [step_running (s := s.withHost g) run ipf, hv', afterInstr_next]

end Sys2Proof.Machine
end

section
/-!
PROOFS, 10_state.md R26, R27 with 40 R123, R125: the call stack; R45 to R49: the state and the memory that reset leaves.
-/
namespace Sys2Proof.Machine

/-! ## Call and return -/

theorem decodeShort_call {w : Word} (op : fieldOP w = 0x2) : decodeShort w = some (.call (fieldNNN w)) := by
  simp [decodeShort, op]

/-- A call with a free slot: the address after it in the slot at SP, SP one more, pc at the target. -/
theorem exec_call_of_room (nnn : Addr12) {s : State} (room : s.sp.val < 16) : exec (.call nnn) s =
    .next ((s.setStack (s.stack.set s.sp.val s.pc) ⟨s.sp.val + 1, by omega⟩).setPc (nnn.setWidth 16)) := by
  refine exec_completes (Instr.existsIn_of_all _ rfl _) ?_
  rw [exec_call, State.push_ok room]

/-- A return with a slot in use: SP one less, pc the address in that slot. -/
theorem exec_ret_of_slot {s : State} (used : s.sp.val ≠ 0) : exec .ret s =
    .next ((s.setStack s.stack ⟨s.sp.val - 1, by omega⟩).setPc s.stack[s.sp.val - 1]) := by
  refine exec_completes (Instr.existsIn_of_all _ rfl _) ?_
  rw [exec_ret, State.pop_ok used]

/-- Settles O29: both branches of the push, with every mode having the instruction. -/
theorem callPushesTheReturnAddress : Obligations.CallPushesTheReturnAddress := by
  refine ⟨encodedBy_op 0x2 rfl (by decide) (fun _ => decodeShort_call) fun _ m => ?_,
    fun nnn s => ⟨fun room => ?_, fun full => ?_⟩⟩
  · cases m <;> rfl
  · refine ⟨_, exec_call_of_room nnn room, rfl, fun k => ?_, ?_, rfl⟩
    · simp [Vector.getElem_set, eq_comm]
    · simp only [State.setPc_pc, BitVec.toNat_setWidth]
      omega
  · refine exec_faults (Instr.existsIn_of_all _ rfl _) ?_
    rw [exec_call, State.push_full full]

/-- Settles O30: both branches of the pop. -/
theorem returnPopsTheStack : Obligations.ReturnPopsTheStack := by
  refine ⟨encodedBy_all (by decide) (by decide) fun m => ?_, fun s => ⟨fun k top => ?_, fun empty => ?_⟩⟩
  · cases m <;> rfl
  · refine ⟨_, exec_ret_of_slot (by omega), ?_, ?_, rfl⟩
    · simp [top]
    · simp [top]
  · refine exec_faults (Instr.existsIn_of_all _ rfl _) ?_
    rw [exec_ret, State.pop_empty empty]

/-- Settles O31: the return reads back the slot that the call has just written. -/
theorem returnAfterCallResumes : Obligations.ReturnAfterCallResumes := by
  intro nnn s room
  refine ⟨_, _, exec_call_of_room nnn room, exec_ret_of_slot (Nat.succ_ne_zero _), ?_, fun k other => ?_⟩
  · simp [State.setStack, State.setPc]
  · simp [Ne.symm other]

/-! ## Reset -/

/-- Settles O25: the fields of the reset state, read off one by one. -/
theorem resetValues : Obligations.ResetValues := by
  intro a fits
  refine ⟨_, State.resetWith_eq a fits, fun r => ?_, rfl, rfl, rfl, fun k => ?_, rfl, rfl, rfl, fun x y => ?_, rfl, rfl,
    fun k => ?_, rfl, fun k => ?_, rfl, rfl, rfl, rfl, rfl⟩
  · simp [State.reg, State.reset]
  · simp [State.reset]
  · exact ⟨Plane.pixel_blank x y, Plane.pixel_blank x y⟩
  · simp [State.reset]
  · simp [State.reset]

theorem Memory.unlisted_of_le {a : Nat} (h : 180 ≤ a) : Memory.unlisted a = 0x00 :=
  List.getD_eq_default _ _ h

/-- The bytes at 0x050 after reset: the large font, or zeros in CHIP8 mode (R47). -/
def ResetArgs.largeBytes (a : ResetArgs) : List Byte :=
  if a.mode = .chip8 then List.replicate 100 0x00 else a.fontLarge.toList

theorem ResetArgs.length_largeBytes (a : ResetArgs) : a.largeBytes.length = 100 := by
  unfold ResetArgs.largeBytes
  split <;> simp

theorem ResetArgs.getD_largeBytes (a : ResetArgs) (k : Nat) :
    a.largeBytes.getD k 0x00 = if a.mode = .chip8 then 0x00 else a.fontLarge.toList.getD k 0x00 := by
  unfold ResetArgs.largeBytes
  split
  · rw [List.getD_eq_getElem?_getD]
    exact List.getElem?_getD_replicate_default_eq _ _ _
  · rfl

/-- Memory after reset: the image over the large font over the small font over what lists nothing. -/
theorem ResetArgs.get_memory (a : ResetArgs) (adr : Nat) : a.memory.get adr =
    if 0x200 ≤ adr ∧ adr < 0x200 + a.image.length ∧ adr ≤ 0xFFF then a.image.getD (adr - 0x200) 0x00
    else if 80 ≤ adr ∧ adr < 180 then a.largeBytes.getD (adr - 80) 0x00
    else if adr < 80 then a.fontSmall.toList.getD adr 0x00
    else Memory.unlisted adr := by
  have smallWf := Memory.pokeAll_wf Memory.wf_nil fontSmallBase a.fontSmall.toList
  change (Memory.pokeAll (Memory.pokeAll (Memory.pokeAll [] fontSmallBase a.fontSmall.toList) fontLargeBase a.largeBytes)
    Config.progBase a.image).get adr = _
  rw [Memory.get_pokeAll (Memory.pokeAll_wf smallWf _ _), Memory.get_pokeAll smallWf, Memory.get_pokeAll Memory.wf_nil,
    a.length_largeBytes, Vector.length_toList]
  simp only [Config.progBase, Config.lastAddr, fontLargeBase, fontSmallBase, Memory.get]
  exact if_congr Iff.rfl rfl (if_congr (by omega) rfl (if_congr (by omega) (by simp) rfl))

/-- Settles O26: the loader's three writes do not overlap, and an image that fits ends inside memory. -/
theorem resetMemory : Obligations.ResetMemory := by
  intro a t h adr
  by_cases fits : a.image.length ≤ 3584
  · rw [State.resetWith_eq a fits] at h
    cases h
    change a.memory.get adr = _
    rw [a.get_memory, a.getD_largeBytes]
    by_cases small : adr < 80
    · rw [if_neg (by omega), if_neg (by omega), if_pos small, if_pos small]
    · by_cases large : adr < 180
      · rw [if_neg (by omega), if_pos (by omega), if_neg small, if_pos large]
      · rw [if_neg (c := 80 ≤ adr ∧ _) (by omega), if_neg small, if_neg small, if_neg large,
          Memory.unlisted_of_le (by omega)]
        exact if_congr (by omega) rfl rfl
  · rw [State.resetWith_refused a (by omega)] at h
    cases h

end Sys2Proof.Machine
end

section
/-!
PROOFS, 20_memory.md R62, R68, R73: no run changes the protected region, and a stored word is fetched by the next step.
-/
namespace Sys2Proof.Machine

/-! ## The protected region, R68 -/

/-- `m'` is canonical and reads below 0x200 as `m` does. -/
structure KeepsProtected (m m' : Memory) : Prop where
  canonical : m'.wf = true
  low : ∀ a < 0x200, m'.get a = m.get a

theorem KeepsProtected.refl {m : Memory} (wf : m.wf = true) : KeepsProtected m m := ⟨wf, fun _ _ => rfl⟩

theorem KeepsProtected.trans {m n k : Memory} (h : KeepsProtected m n) (h' : KeepsProtected n k) : KeepsProtected m k :=
  ⟨h'.canonical, fun a low => (h'.low a low).trans (h.low a low)⟩

/-- A store that completes lies at or above 0x200 (R62). -/
theorem memWriteBytes_keepsProtected {m m' : Memory} {start : Nat} {bs : List Byte}
    (h : memWriteBytes m start bs = .ok m') (wf : m.wf = true) : KeepsProtected m m' := by
  obtain ⟨range, wf', get⟩ := memWriteBytes_spec h wf
  refine ⟨wf', fun a low => ?_⟩
  rw [get]
  rcases range with rfl | ⟨above, -⟩
  · exact if_neg (by simp)
  · exact if_neg (by omega)

section
variable {s t : State}

/-- An instruction that completes leaves memory alone, or memory is what a store at I has left. -/
theorem effect_mem {i : Instr} (e : Effect s t i) :
    t.mem = s.mem ∨ ∃ bytes, memWriteBytes s.mem (s.ea 0) bytes = .ok t.mem := by
  refine or_iff_not_imp_left.2 fun changed => ?_
  rcases (effect_writes e).changesOnlyItsElements.mem changed with ⟨x, rfl⟩ | ⟨x, rfl⟩ | ⟨x, y, rfl⟩
  case inl | inr.inr =>
    obtain ⟨m, stored, rfl⟩ := State.storeAtI_frame e
    exact ⟨_, stored⟩
  case inr.inl =>
    obtain ⟨u, hu, rfl⟩ := e
    obtain ⟨m, stored, rfl⟩ := State.storeAtI_frame hu
    rw [(State.bumpI_spec _ x).2]
    exact ⟨_, stored⟩

theorem instrStep_keepsProtected (wf : s.mem.wf = true) (h : instrStep s = .next t) (good : t.run ≠ .faulted) :
    KeepsProtected s.mem t.mem := by
  obtain ⟨i, hexec, -, -⟩ := instrStep_cases h good
  obtain ⟨-, effect⟩ := exec_effect hexec good
  rcases effect_mem effect with same | ⟨bytes, stored⟩
  · rw [same]
    exact .refl wf
  · exact memWriteBytes_keepsProtected stored wf

theorem step_keepsProtected (wf : s.mem.wf = true) (h : step s = .next t) (good : t.run ≠ .faulted) :
    KeepsProtected s.mem t.mem := by
  obtain ⟨-, ⟨-, rfl⟩ | ⟨-, u, hu, rfl⟩⟩ := step_cases h
  · rw [endFrame_mem]
    exact .refl wf
  · rw [frameTail_mem]
    rw [frameTail_run] at good
    exact instrStep_keepsProtected wf hu good

/-- Only the last state of a run can be FAULTED: one from which a step was taken is RUNNING. -/
theorem Reaches.keepsProtected (h : Reaches s t) (wf : s.mem.wf = true) (good : t.run ≠ .faulted) :
    KeepsProtected s.mem t.mem := by
  induction h with
  | refl => exact .refl wf
  | tail _ hstep ih =>
    obtain ⟨running, -⟩ := step_cases hstep
    have kept := ih (by simp [running])
    exact kept.trans (step_keepsProtected kept.canonical hstep good)

end

/-- Settles O16: every step from canonical memory keeps it canonical and keeps the bytes below 0x200. -/
theorem protectedRegionNeverChanges : Obligations.ProtectedRegionNeverChanges :=
  fun _ _ wf reaches good => (reaches.keepsProtected wf good).low

/-! ## Self-modification, R73 -/

/-- `Fx55` inside 0x200..0xFFF: V[r] at I + r, every other byte as before, and the quirk's move of I. -/
theorem exec_storeRegs_of_fits (x : Reg) {s : State} (wf : s.mem.wf = true) (lo : 0x200 ≤ s.I.toNat)
    (hi : s.I.toNat + x.val ≤ 0xFFF) :
    ∃ m : Memory, exec (.storeRegs x) s = .next ((s.setMem m).bumpI x) ∧ m.wf = true ∧
      (∀ r ≤ x, m.get (s.I.toNat + r.val) = s.reg r) ∧
      ∀ a, a < s.I.toNat ∨ s.I.toNat + x.val < a → m.get a = s.mem.get a := by
  have len : (s.regList (regRange 0 x)).length = x.val + 1 := by rw [State.length_regList, regRange_zero_length]
  obtain ⟨m, stored, wf', at_I, elsewhere⟩ :=
    State.storeAtI_completes s (bs := s.regList (regRange 0 x)) wf lo (by omega)
  refine ⟨m, ?_, wf', fun r hr => ?_, fun a outside => elsewhere a (by omega)⟩
  · refine exec_completes (Instr.existsIn_of_all _ rfl _) ?_
    rw [exec_storeRegs, stored]
  · have := Fin.le_def.1 hr
    rw [at_I r.val (by omega), State.getElem_regList, regRange_zero_getElem]

/-- Settles O49: the store leaves V[0] and V[1] at pc, so the next fetch reads their word. -/
theorem storedWordIsFetchedNext : Obligations.StoredWordIsFetchedNext := by
  intro s i wf _ _ lo hi atPc decodes
  have fits : s.I.toNat + (1 : Reg).val ≤ 0xFFF := by
    rw [atPc]
    exact Nat.succ_le_succ hi
  obtain ⟨m, stores, -, bytes, -⟩ := exec_storeRegs_of_fits 1 wf (atPc ▸ lo) fits
  obtain ⟨-, frame⟩ := (s.setMem m).bumpI_spec 1
  refine ⟨_, stores, ?_⟩
  rw [frame]
  refine instrStep_of_decodes hi ?_
  have word : (s.setMem m).wordAt s.pc.toNat = wordOf (s.reg 0) (s.reg 1) := by
    rw [← bytes 0 (by decide), ← bytes 1 le_rfl, atPc]
    rfl
  exact word ▸ decodes

end Sys2Proof.Machine
end

section
/-!
PROOFS, 30_encoding.md. The encoder's word is read back and the decoder drops no bit; the words that no instruction of the mode
has are R97's list, one leading nibble at a time; every word of a row of the opcode map is an instruction of that row.
-/
namespace Sys2Proof

/-! ## Fields of a word, R91 -/

theorem or_fields (w : Word) :
    (((fieldOP w).setWidth 16 <<< 12) ||| ((fieldX w).setWidth 16 <<< 8) ||| ((fieldY w).setWidth 16 <<< 4) |||
      (fieldN w).setWidth 16 : Word) = w := by
  refine BitVec.eq_of_getLsbD_eq fun k hk => ?_
  simp only [fieldOP, fieldX, fieldY, fieldN, BitVec.getLsbD_or, BitVec.getLsbD_shiftLeft, BitVec.getLsbD_setWidth,
    BitVec.getLsbD_extractLsb']
  interval_cases k <;> simp

theorem eq_packNibbles_iff {w : Word} {op x y n : Nibble} :
    w = packNibbles op x y n ↔ fieldOP w = op ∧ fieldX w = x ∧ fieldY w = y ∧ fieldN w = n := by
  refine ⟨?_, ?_⟩
  · rintro rfl
    simp
  · rintro ⟨rfl, rfl, rfl, rfl⟩
    exact (packNibbles_fields w).symm

theorem eq_packXKK_iff {w : Word} {op : Nibble} {x : Reg} {kk : Byte} :
    w = packXKK op x kk ↔ fieldOP w = op ∧ fieldX w = fieldOf x ∧ fieldKK w = kk := by
  refine ⟨?_, ?_⟩
  · rintro rfl
    simp
  · rintro ⟨hop, hx, hkk⟩
    rw [← packXKK_fields w, hop, hx, hkk, regOf_fieldOf]

/-- Settles O6: each field is an extracted bit range. -/
theorem fieldsRebuildTheWord : Obligations.FieldsRebuildTheWord := by
  intro w
  have small := w.isLt
  have range (start len : Nat) : (w.extractLsb' start len).toNat = w.toNat / 2 ^ start % 2 ^ len := by
    rw [BitVec.extractLsb'_toNat, Nat.shiftRight_eq_div_pow]
  have low (len : Nat) : (w.extractLsb' 0 len).toNat = w.toNat % 2 ^ len := by
    rw [range, pow_zero, Nat.div_one]
  exact ⟨(range 12 4).trans (by omega), range 8 4, range 4 4, low 4, low 8, low 12, fieldKK_eq w, fieldNNN_eq w,
    or_fields w⟩

/-- Settles O5: the decoder computes each sample. -/
theorem sampleWordsDecode : Obligations.SampleWordsDecode :=
  ⟨rfl, rfl, rfl, rfl, rfl, rfl, rfl, rfl, rfl, rfl, rfl⟩

/-! ## The instruction sets, R95 -/

@[simp] theorem mem_allModes (m : Mode) : m ∈ allModes := by cases m <;> decide

@[simp] theorem mem_schipModes {m : Mode} : m ∈ schipModes ↔ m ≠ .chip8 := by cases m <;> decide

@[simp] theorem mem_xochipModes {m : Mode} : m ∈ xochipModes ↔ m = .xochip := by cases m <;> decide

/-- Settles O11: the rows give each instruction one of the three sets; a dispatch without the instruction is the fault. -/
theorem modeGatesInstructions : Obligations.ModeGatesInstructions := by
  have present : ¬ true = false := by decide
  refine ⟨fun i => ?_, fun i s absent => ?_⟩
  · cases i with
    | scu | storeRange | loadRange | ldILong | plane | audio | pitch =>
      exact ⟨rfl, iff_of_true rfl trivial, iff_of_true rfl trivial⟩
    | scd | scr | scl | exit | low | high | ldHF | storeRpl | loadRpl =>
      exact ⟨rfl, iff_of_false present id, iff_of_true rfl trivial⟩
    | _ => exact ⟨rfl, iff_of_false present id, iff_of_false present id⟩
  · obtain ⟨p, dispatched⟩ := Machine.exec_eq_dispatch i s
    rw [dispatched, Machine.dispatch_absent absent]
    exact Machine.faults_raise _ i s

/-! ## The decoder on words, R93 -/

theorem isLong_iff {m : Mode} {w : Word} : isLong m w = true ↔ m = .xochip ∧ w = 0xF000 := by simp [isLong]

theorem isLong_eq_false_iff {m : Mode} {w : Word} : isLong m w = false ↔ (m = .xochip → w ≠ 0xF000) := by simp [isLong]

theorem isLong_of_fieldOP {m : Mode} {w : Word} {op : Nibble} (h : fieldOP w = op) (ne : op ≠ 0xF) : isLong m w = false :=
  isLong_eq_false_iff.2 fun _ => ne_F000_of_fieldOP h ne

theorem decodeInMode_ok_iff {m : Mode} {w : Word} {i : Instr} :
    decodeInMode m w = .ok i ↔ decodeShort w = some i ∧ i.existsIn m = true := by
  unfold decodeInMode
  cases decodeShort w with
  | none => simp
  | some j =>
    by_cases gate : j.existsIn m = true
    · simp only [gate, if_true, Except.ok.injEq, Option.some.injEq]
      exact ⟨fun e => ⟨e, e ▸ gate⟩, And.left⟩
    · simp only [gate, if_false, reduceCtorEq, Option.some.injEq, false_iff]
      rintro ⟨rfl, present⟩
      exact gate present

@[simp] theorem bytesOf_wordOf (hi lo : Byte) : bytesOf (wordOf hi lo) = [hi, lo] := by simp [bytesOf]

/-- What the decoder accepts begins with the long word and a second word, or with the word of a one-word instruction. -/
theorem decode_cases {m : Mode} {bytes rest : List Byte} {i : Instr} (h : decode m bytes = .ok (i, rest)) :
    (∃ second, i = .ldILong second ∧ bytes = bytesOf 0xF000 ++ (bytesOf second ++ rest)) ∨
      ∃ w, bytes = bytesOf w ++ rest ∧ decodeInMode m w = .ok i := by
  unfold decode at h
  split at h
  · split at h
    · obtain ⟨-, word⟩ := isLong_iff.1 ‹_›
      split at h <;> cases h
      exact .inl ⟨_, rfl, by simp [← word]⟩
    · split at h <;> cases h
      refine .inr ⟨_, ?_, ‹_›⟩
      simp
  · cases h

/-- Settles O2: the decoder reads a word from its fields, and the fields rebuild the word. -/
theorem encodeAfterDecode : Obligations.EncodeAfterDecode := by
  intro m bytes rest i h
  refine ⟨?_, Machine.existsIn_of_decode h⟩
  rcases decode_cases h with ⟨second, rfl, rfl⟩ | ⟨w, rfl, reads⟩
  · exact List.append_assoc ..
  · obtain ⟨word, short⟩ := firstWord_of_decodeShort (decodeInMode_ok_iff.1 reads).1
    rw [encode, word, short, List.append_nil]

/-! ## From instructions to words and back -/

theorem Instr.operandBytes_cases (i : Instr) : i.operandBytes = [] ∨ ∃ nnnn, i = .ldILong nnnn := by
  cases i with
  | ldILong nnnn => exact .inr ⟨nnnn, rfl⟩
  | _ => exact .inl rfl

/-- The decoder reads the operands of a one-word instruction from the fields where the encoder put them. -/
theorem decodeShort_firstWord {i : Instr} (short : i.operandBytes = []) : decodeShort i.firstWord = some i := by
  cases i with
  | ldILong => cases short
  | cls | ret | scr | scl | exit | low | high | audio => rfl
  | scd | scu => simp [Instr.firstWord, decodeShort, decodeOp0]
  | seReg | storeRange | loadRange => simp [Instr.firstWord, decodeShort, decodeOp5]
  | ldReg | or | and | xor | add | sub | shr | subn | shl => simp [Instr.firstWord, decodeShort, decodeOp8]
  | sneReg => simp [Instr.firstWord, decodeShort, decodeOp9]
  | skp | sknp => simp [Instr.firstWord, decodeShort, decodeOpE]
  | plane | getDelay | waitKey | setDelay | setSound | addI | ldF | ldHF | bcd | pitch | storeRegs | loadRegs | storeRpl
  | loadRpl => simp [Instr.firstWord, decodeShort, decodeOpF]
  | _ => simp [Instr.firstWord, decodeShort]

theorem isLong_firstWord {i : Instr} (short : i.operandBytes = []) (m : Mode) : isLong m i.firstWord = false := by
  refine Bool.eq_false_iff.2 fun long => ?_
  have reads := decodeShort_firstWord short
  rw [(isLong_iff.1 long).2] at reads
  cases reads

/-- Settles O1: a one-word instruction is read back from its word; the long one from both. -/
theorem decodeAfterEncode : Obligations.DecodeAfterEncode := by
  intro m i rest wf
  rw [encode, List.append_assoc]
  rcases i.operandBytes_cases with short | ⟨nnnn, rfl⟩
  · have reads := decodeInMode_ok_iff.2 ⟨decodeShort_firstWord short, wf⟩
    rw [short, List.nil_append, decode_short m _ rest (isLong_firstWord short m), reads]
  · obtain rfl : m = .xochip := mem_xochipModes.1 ((Instr.existsIn_iff _ m).1 wf)
    exact decode_long _ nnnn rest rfl

/-! ## Unknown words, R97 -/

/-- No instruction is read, or one that the mode lacks. -/
def Refused (m : Mode) (read : Option Instr) : Prop := ∀ i, read = some i → m ∉ i.row.modes

@[simp] theorem refused_none (m : Mode) : Refused m none := nofun

@[simp] theorem refused_some {m : Mode} {i : Instr} : Refused m (some i) ↔ m ∉ i.row.modes := by simp [Refused]

theorem decodeInMode_unknown_iff {m : Mode} {w : Word} :
    decodeInMode m w = .error (.unknownInstruction w) ↔ Refused m (decodeShort w) := by
  unfold decodeInMode
  cases decodeShort w with
  | none => simp
  | some i => by_cases gate : m ∈ i.row.modes <;> simp [Instr.existsIn, gate]

theorem decode_unknown_iff {m : Mode} {w : Word} (second : Word) :
    decode m (bytesOf w ++ bytesOf second) = .error (.unknownInstruction w) ↔
      isLong m w = false ∧ Refused m (decodeShort w) := by
  cases long : isLong m w
  · rw [decode_short m w _ long, ← decodeInMode_unknown_iff]
    cases decodeInMode m w <;> simp
  · obtain ⟨rfl, word⟩ := isLong_iff.1 long
    have reads := decode_long w second [] word
    rw [List.append_nil] at reads
    simp [reads]

section
variable {m : Mode} {w : Word}

theorem refused_decodeOp0 (op : fieldOP w = 0x0) : Refused m (decodeOp0 w) ↔
    w ≠ 0x00E0 ∧ w ≠ 0x00EE ∧ (m ≠ .chip8 → w &&& 0xFFF0 ≠ 0x00C0 ∧ ¬ (0x00FB ≤ w ∧ w ≤ 0x00FF)) ∧
      (m = .xochip → w &&& 0xFFF0 ≠ 0x00D0) := by
  have fixed (y n : Nibble) : w = packNibbles 0x0 0x0 y n ↔ fieldX w = 0x0 ∧ fieldY w = y ∧ fieldN w = n := by
    simp [eq_packNibbles_iff, op]
  have masked (y : Nibble) : w &&& 0xFFF0 = packNibbles 0x0 0x0 y 0x0 ↔ fieldX w = 0x0 ∧ fieldY w = y := by
    conv_lhs => rw [← packNibbles_fields w, packNibbles_and_FFF0]
    simp [eq_packNibbles_iff, op]
  have range : 0x00FB ≤ w ∧ w ≤ 0x00FF ↔ w = 0x00FB ∨ w = 0x00FC ∨ w = 0x00FD ∨ w = 0x00FE ∨ w = 0x00FF := by
    bv_omega
  simp only [ne_eq, range, show w = 0x00E0 ↔ _ from fixed 0xE 0x0, show w = 0x00EE ↔ _ from fixed 0xE 0xE,
    show w = 0x00FB ↔ _ from fixed 0xF 0xB, show w = 0x00FC ↔ _ from fixed 0xF 0xC,
    show w = 0x00FD ↔ _ from fixed 0xF 0xD, show w = 0x00FE ↔ _ from fixed 0xF 0xE,
    show w = 0x00FF ↔ _ from fixed 0xF 0xF, show w &&& 0xFFF0 = 0x00C0 ↔ _ from masked 0xC,
    show w &&& 0xFFF0 = 0x00D0 ↔ _ from masked 0xD]
  unfold decodeOp0
  split <;> simp_all [Instr.row]

theorem refused_decodeOp5 : Refused m (decodeOp5 w) ↔
    fieldN w ≠ 0x0 ∧ (m = .xochip → fieldN w ≠ 0x2 ∧ fieldN w ≠ 0x3) := by
  unfold decodeOp5
  simp only
  split <;> simp_all [Instr.row]

theorem refused_decodeOp8 : Refused m (decodeOp8 w) ↔
    fieldN w ∈ ([0x8, 0x9, 0xA, 0xB, 0xC, 0xD, 0xF] : List Nibble) := by
  unfold decodeOp8
  simp only
  split
  case h_10 =>
    refine iff_of_true (refused_none m) ?_
    generalize fieldN w = n at *
    revert n
    decide
  all_goals simp [*, Instr.row]

theorem refused_decodeOp9 : Refused m (decodeOp9 w) ↔ fieldN w ≠ 0x0 := by
  unfold decodeOp9
  split <;> simp_all [Instr.row]

theorem refused_decodeOpE : Refused m (decodeOpE w) ↔ fieldKK w ∉ ([0x9E, 0xA1] : List Byte) := by
  unfold decodeOpE
  split <;> simp_all [Instr.row]

theorem refused_decodeOpF (op : fieldOP w = 0xF) : isLong m w = false ∧ Refused m (decodeOpF w) ↔
    fieldKK w ∉ ([0x07, 0x0A, 0x15, 0x18, 0x1E, 0x29, 0x33, 0x55, 0x65] : List Byte) ∧
      (m ≠ .chip8 → fieldKK w ∉ ([0x30, 0x75, 0x85] : List Byte)) ∧
      (m = .xochip → fieldKK w ∉ ([0x01, 0x3A] : List Byte) ∧ w ≠ 0xF000 ∧ w ≠ 0xF002) := by
  have fixed (kk : Byte) : w = packXKK 0xF 0 kk ↔ fieldX w = 0x0 ∧ fieldKK w = kk := by
    simp only [eq_packXKK_iff, op, true_and]
    rfl
  simp only [isLong_eq_false_iff, ne_eq, show w = 0xF000 ↔ _ from fixed 0x00, show w = 0xF002 ↔ _ from fixed 0x02]
  unfold decodeOpF
  simp only
  split
  case h_2 kk => by_cases x : fieldX w = 0#4 <;> simp [x, kk, Instr.row]
  case h_16 => simp_all
  all_goals simp [*, Instr.row]

end

/-- Settles O4: R97's list read off the decoder, one leading nibble at a time. -/
theorem unknownWordsAreThoseListed : Obligations.UnknownWordsAreThoseListed := by
  intro m w second
  rw [decode_unknown_iff second]
  unfold decodeShort
  simp only
  split
  case h_1 op => rw [refused_decodeOp0 op]; simp [op, isLong_of_fieldOP op]
  case h_6 op => rw [refused_decodeOp5]; simp [op, isLong_of_fieldOP op]
  case h_9 op => rw [refused_decodeOp8]; simp [op, isLong_of_fieldOP op]
  case h_10 op => rw [refused_decodeOp9]; simp [op, isLong_of_fieldOP op]
  case h_15 op => rw [refused_decodeOpE]; simp [op, isLong_of_fieldOP op]
  case h_16 =>
    have op : fieldOP w = 0xF := by
      generalize fieldOP w = op at *
      revert op
      decide
    rw [refused_decodeOpF op]
    simp [op]
  all_goals
    rename_i op
    simp [op, isLong_of_fieldOP op, Instr.row]

/-! ## The opcode map, R93, R96 -/

/-- Two rows differ in a bit that both masks hold. -/
theorem opcodeMap_patterns_differ : opcodeMap.Pairwise fun r q => r.pattern &&& q.mask ≠ q.pattern &&& r.mask := by
  decide +kernel

/-- No word matches both rows. -/
def NoCommonWord (r q : OpcodeRow) : Prop := ∀ w : Word, ¬ (w &&& r.mask = r.pattern ∧ w &&& q.mask = q.pattern)

theorem opcodeMap_disjoint : opcodeMap.Pairwise NoCommonWord := by
  refine opcodeMap_patterns_differ.imp fun differ w ⟨inR, inQ⟩ => differ ?_
  rw [← inR, ← inQ, BitVec.and_assoc, BitVec.and_assoc, BitVec.and_comm (_ : OpcodeRow).mask]

theorem row_unique {r q : OpcodeRow} {w : Word} (hr : r ∈ opcodeMap) (hq : q ∈ opcodeMap) (inR : w &&& r.mask = r.pattern)
    (inQ : w &&& q.mask = q.pattern) : r = q := by
  have symm : Std.Symm NoCommonWord := ⟨fun _ _ h w both => h w both.symm⟩
  by_contra ne
  exact opcodeMap_disjoint.forall hr hq ne w ⟨inR, inQ⟩

/-! What the rows of a leading nibble fix: facts about the 50 rows, by computation. -/

theorem rows_mask_op : ∀ r ∈ opcodeMap, fieldOP r.mask = 0xF := by decide

theorem rows_op0 : ∀ r ∈ opcodeMap, fieldOP r.pattern = 0x0 →
    (r.mask = 0xFFF0 ∧ (r.pattern = 0x00C0 ∨ r.pattern = 0x00D0)) ∨
      (r.mask = 0xFFFF ∧ (r.pattern = 0x00E0 ∨ r.pattern = 0x00EE ∨ (0x00FB ≤ r.pattern ∧ r.pattern ≤ 0x00FF))) := by
  decide

theorem rows_op5 : ∀ r ∈ opcodeMap, fieldOP r.pattern = 0x5 →
    fieldN r.mask = 0xF ∧ (fieldN r.pattern = 0x0 ∨ fieldN r.pattern = 0x2 ∨ fieldN r.pattern = 0x3) := by decide

theorem rows_op8 : ∀ r ∈ opcodeMap, fieldOP r.pattern = 0x8 →
    fieldN r.mask = 0xF ∧ fieldN r.pattern ∉ ([0x8, 0x9, 0xA, 0xB, 0xC, 0xD, 0xF] : List Nibble) := by decide

theorem rows_op9 : ∀ r ∈ opcodeMap, fieldOP r.pattern = 0x9 →
    fieldN r.mask = 0xF ∧ fieldN r.pattern = 0x0 := by decide

theorem rows_opE : ∀ r ∈ opcodeMap, fieldOP r.pattern = 0xE →
    fieldKK r.mask = 0xFF ∧ fieldKK r.pattern ∈ ([0x9E, 0xA1] : List Byte) := by decide

theorem rows_opF : ∀ r ∈ opcodeMap, fieldOP r.pattern = 0xF →
    (r.mask = 0xFFFF ∧ (r.pattern = 0xF000 ∨ r.pattern = 0xF002)) ∨
      (fieldKK r.mask = 0xFF ∧
        (fieldKK r.pattern ∈ ([0x07, 0x0A, 0x15, 0x18, 0x1E, 0x29, 0x33, 0x55, 0x65] : List Byte) ∨
          fieldKK r.pattern ∈ ([0x30, 0x75, 0x85] : List Byte) ∨ fieldKK r.pattern ∈ ([0x01, 0x3A] : List Byte))) := by
  decide

/-- XOCHIP mode knows every word of every row: R97's list excludes each value that the rows of a leading nibble fix. -/
theorem decode_ne_unknown_of_row {r : OpcodeRow} {w : Word} (second : Word) (mem : r ∈ opcodeMap)
    (inRow : w &&& r.mask = r.pattern) :
    decode .xochip (bytesOf w ++ bytesOf second) ≠ .error (.unknownInstruction w) := by
  intro unknown
  have same : fieldOP w = fieldOP r.pattern := fieldOP_of_mask inRow (rows_mask_op r mem)
  have fixed (ones : r.mask = 0xFFFF) : r.pattern = w := by
    rw [← inRow, ones]
    exact BitVec.and_allOnes
  rcases (unknownWordsAreThoseListed .xochip w second).1 unknown with
    ⟨op, notCls, notRet, super, notScu⟩ | ⟨op, n, range⟩ | ⟨op, n⟩ | ⟨op, n⟩ | ⟨op, kk⟩ | ⟨op, base, super, xo⟩ <;>
    rw [same] at op
  · obtain ⟨notScd, range⟩ := super (by decide)
    rcases rows_op0 r mem op with ⟨mask, known⟩ | ⟨mask, known⟩
    · rw [← inRow, mask] at known
      exact known.elim notScd (notScu rfl)
    · rw [fixed mask] at known
      exact known.elim notCls (·.elim notRet range)
  · obtain ⟨ones, known⟩ := rows_op5 r mem op
    rw [← fieldN_of_mask inRow ones] at known
    exact known.elim n (·.elim (range rfl).1 (range rfl).2)
  · obtain ⟨ones, known⟩ := rows_op8 r mem op
    exact known (fieldN_of_mask inRow ones ▸ n)
  · obtain ⟨ones, known⟩ := rows_op9 r mem op
    exact n ((fieldN_of_mask inRow ones).trans known)
  · obtain ⟨ones, known⟩ := rows_opE r mem op
    exact kk (fieldKK_of_mask inRow ones ▸ known)
  · obtain ⟨notXo, notLong, notAudio⟩ := xo rfl
    rcases rows_opF r mem op with ⟨mask, known⟩ | ⟨ones, known⟩
    · rw [fixed mask] at known
      exact known.elim notLong notAudio
    · rw [← fieldKK_of_mask inRow ones] at known
      exact known.elim base (·.elim (super (by decide)) notXo)

/-- With a second word at hand, the decoder reads an instruction or finds the first word unknown. -/
theorem decode_word_cases (m : Mode) (w second : Word) :
    (∃ i rest, decode m (bytesOf w ++ bytesOf second) = .ok (i, rest)) ∨
      decode m (bytesOf w ++ bytesOf second) = .error (.unknownInstruction w) := by
  cases long : isLong m w
  · rw [decode_short m w _ long, decodeInMode]
    cases decodeShort w with
    | none => exact .inr rfl
    | some i => by_cases gate : i.existsIn m = true <;> simp [gate]
  · obtain ⟨rfl, word⟩ := isLong_iff.1 long
    have reads := decode_long w second [] word
    rw [List.append_nil] at reads
    exact .inl ⟨_, _, reads⟩

theorem bytesOf_append_inj {v w : Word} {l k : List Byte} (h : bytesOf v ++ l = bytesOf w ++ k) : v = w := by
  simp only [bytesOf, List.cons_append, List.nil_append, List.cons.injEq] at h
  obtain ⟨hi, lo, -⟩ := h
  rw [← wordOf_bytes v, hi, lo, wordOf_bytes]

theorem firstWord_of_decode {m : Mode} {w second : Word} {rest : List Byte} {i : Instr}
    (h : decode m (bytesOf w ++ bytesOf second) = .ok (i, rest)) : i.firstWord = w := by
  have bytes := (encodeAfterDecode _ _ _ _ h).1
  rw [encode, List.append_assoc] at bytes
  exact bytesOf_append_inj bytes

theorem unknown_of_no_row {m : Mode} {w : Word} (second : Word)
    (none : ∀ r ∈ opcodeMap, ¬ (w &&& r.mask = r.pattern ∧ m ∈ r.modes)) :
    decode m (bytesOf w ++ bytesOf second) = .error (.unknownInstruction w) := by
  rcases decode_word_cases m w second with ⟨i, rest, reads⟩ | unknown
  · obtain ⟨inRow, mem⟩ := i.row_spec
    rw [firstWord_of_decode reads] at inRow
    exact absurd ⟨inRow, (i.existsIn_iff m).1 (encodeAfterDecode _ _ _ _ reads).2⟩ (none _ mem)
  · exact unknown

/-- Settles O3: XOCHIP mode reads the word as an instruction of the one row it matches, and every mode of the row does too. -/
theorem dispatchFollowsTheOpcodeMap : Obligations.DispatchFollowsTheOpcodeMap := by
  refine ⟨opcodeMap_disjoint, fun m w second => ⟨fun r mem inRow mode => ?_, unknown_of_no_row second⟩⟩
  rcases decode_word_cases .xochip w second with ⟨i, rest, reads⟩ | unknown
  · have word := firstWord_of_decode reads
    obtain ⟨inOwn, own⟩ := i.row_spec
    have row : i.row = r := row_unique own mem (word ▸ inOwn) inRow
    refine ⟨i, rest, ?_, row, word⟩
    rw [← (encodeAfterDecode _ _ _ _ reads).1]
    exact decodeAfterEncode m i rest ((i.existsIn_iff m).2 (row ▸ mode))
  · exact absurd unknown (decode_ne_unknown_of_row second mem inRow)

end Sys2Proof

namespace Sys2Proof.Machine

/-! ## The step on an unknown word, R97 -/

/-- A word that no row of the mode selects stops the fetch. -/
theorem fetch_of_no_row {s : State} (pc : s.pc.toNat ≤ 0xFFE)
    (none : ∀ r ∈ opcodeMap, ¬ (s.wordAt s.pc.toNat &&& r.mask = r.pattern ∧ s.mode ∈ r.modes)) :
    fetch s = .stopped (takeFault (.unknownInstruction (s.wordAt s.pc.toNat)) s.pc (s.wordAt s.pc.toNat) s) := by
  obtain ⟨short, refused⟩ := (decode_unknown_iff 0).1 (unknown_of_no_row 0 none)
  have unknown := decode_short s.mode _ [] short
  rw [decodeInMode_unknown_iff.2 refused, List.append_nil] at unknown
  rw [fetch, memReadWord_wordAt s pc]
  simp only [short, Bool.false_eq_true, if_false, decodeFetched, unknown]

/-- Settles O9: the stopped fetch is the step. -/
theorem unknownWordFaultsTheStep : Obligations.UnknownWordFaultsTheStep :=
  fun _ run ipf pc none => step_of_fetch_stopped run ipf (fetch_of_no_row pc none)

end Sys2Proof.Machine
end

section
/-!
PROOFS, 40_step_and_control_flow.md R120 to R122, R124, R126 to R129, R131, R132: which states have a step and what it executes,
the faults of the fetch, the jumps, the register skips and the exit.
-/
namespace Sys2Proof.Machine

/-! ## Which states have a step, R120 -/

section
variable {s : State}

theorem step_next (run : s.run = .running) : ∃ t, step s = .next t := by
  by_cases ipf : s.ipf = 0
  · exact ⟨endFrame s, by simp [step, run, ipf]⟩
  · obtain ⟨u, hu⟩ := instrStep_next s
    exact ⟨frameTail u, by rw [step_running run ipf, hu, afterInstr_next]⟩

theorem step_exited (run : s.run = .exited) : step s = .fault .stoppedByExit := by simp [step, run]

theorem step_faulted (run : s.run = .faulted) : step s = .fault .stoppedByFault := by simp [step, run]

end

theorem frameSteps_next (n : Nat) (s : State) : ∃ t, frameSteps n s = .next t := by
  induction n generalizing s with
  | zero => exact ⟨s, rfl⟩
  | succ n ih =>
    obtain ⟨u, hu⟩ := instrStep_next s
    by_cases run : u.run = .running
    · simpa [frameSteps, hu, run] using ih u
    · exact ⟨u, by simp [frameSteps, hu, run]⟩

theorem stepFrame_next {s : State} (run : s.run = .running) (between : s.frameDone = 0) : ∃ t, stepFrame s = .next t := by
  obtain ⟨u, hu⟩ := frameSteps_next s.ipf s
  by_cases goesOn : u.run = .running
  · exact ⟨endFrame u, by simp [stepFrame, run, between, hu, goesOn]⟩
  · exact ⟨u, by simp [stepFrame, run, between, hu, goesOn]⟩

/-- Settles O10: one clause for each value of RUN. -/
theorem stepIsDefinedExactlyWhenRunning : Obligations.StepIsDefinedExactlyWhenRunning :=
  fun _ => ⟨fun run => ⟨step_next run, stepFrame_next run, stepFrame_inFrame run⟩,
    fun run => ⟨step_exited run, stepFrame_stopped (by simp [run])⟩,
    fun run => ⟨step_faulted run, stepFrame_stopped (by simp [run])⟩⟩

/-! ## The instruction at pc, R120, R121, R181 -/

theorem instrStep_of_long {s : State} (pc : s.pc.toNat ≤ 0xFFC) (hm : s.mode = .xochip)
    (h : s.wordAt s.pc.toNat = 0xF000) :
    instrStep s = exec (.ldILong (s.wordAt (s.pc.toNat + 2))) (s.setPc (s.pc + 2)) := by
  rw [instrStep, fetch_of_long pc hm h]

/-- Settles O7: the fetch of a word that decodes, and of the long load. -/
theorem stepExecutesTheDecodedInstruction : Obligations.StepExecutesTheDecodedInstruction :=
  fun _ _ run ipf => ⟨fun pc decodes => ⟨instrStep_of_decodes pc decodes, step_running run ipf⟩,
    fun pc hm long => ⟨instrStep_of_long pc hm long, step_running run ipf⟩⟩

theorem memReadWord_off (m : Memory) {a : Nat} (off : 0xFFE < a) : memReadWord m a = .error (.memRead (max a 0x1000)) := by
  rw [memReadWord_eq, if_neg (by omega)]

/-- A first word that reaches beyond memory stops the fetch; FREC's raw word is free (60 R272). -/
theorem fetch_off {s : State} (off : 0xFFE < s.pc.toNat) :
    fetch s = .stopped (takeFault (.memRead (max s.pc.toNat 0x1000)) s.pc (Config.freeRaw s.draws) s) := by
  rw [fetch, memReadWord_off _ off]

/-- A long load whose second word reaches beyond memory stops the fetch. -/
theorem fetch_long_off {s : State} (first : s.pc.toNat ≤ 0xFFE) (off : 0xFFC < s.pc.toNat) (hm : s.mode = .xochip)
    (h : s.wordAt s.pc.toNat = 0xF000) :
    fetch s = .stopped (takeFault (.memRead (max (s.pc.toNat + 2) 0x1000)) s.pc 0xF000 s) := by
  have long : isLong s.mode 0xF000 = true := isLong_iff.2 ⟨hm, rfl⟩
  rw [fetch, memReadWord_wordAt s first, memReadWord_off _ (show 0xFFE < s.pc.toNat + 2 by omega), h]
  exact if_pos long

/-- Settles O8: the stopped fetch is the step, and the lowest bad address is pc or 0x1000. -/
theorem fetchFaultsBeyondMemory : Obligations.FetchFaultsBeyondMemory := by
  intro s run ipf
  have firstWord {a : Nat} (off : 0xFFE < s.pc.toNat) (lowest : max s.pc.toNat 0x1000 = a) :
      ∃ raw, Faults (step s) (.memRead a) s.pc raw :=
    ⟨_, lowest ▸ step_of_fetch_stopped run ipf (fetch_off off)⟩
  refine ⟨fun above => firstWord (by omega) (max_eq_left (by omega)),
    fun top => firstWord (by omega) (max_eq_right (by omega)), fun hm range long => ?_⟩
  have secondWord := step_of_fetch_stopped run ipf (fetch_long_off (by omega) (by omega) hm long)
  rwa [max_eq_right (by omega)] at secondWord

/-! ## The jumps, R124, R131 -/

theorem Instr.existsIn_eq_decide {i : Instr} {modes : List Mode} (h : i.row.modes = modes) (m : Mode) :
    i.existsIn m = decide (m ∈ modes) := by
  rw [Instr.existsIn, h, List.contains_eq_mem]

/-- The sum needs no mask: it is at most 0xFFF + 0xFF. -/
theorem toNat_addr_add_byte (nnn : Addr12) (b : Byte) :
    (nnn.setWidth 16 + b.setWidth 16 : Word).toNat = nnn.toNat + b.toNat := by
  simp only [BitVec.toNat_add, BitVec.toNat_setWidth]
  omega

theorem State.jumpOffset_v0 {s : State} (quirk : s.quirks.jumpUsesVX = false) (nnn : Addr12) :
    s.jumpOffset nnn = s.reg 0 := by simp [State.jumpOffset, quirk]

theorem State.jumpOffset_vx {s : State} (quirk : s.quirks.jumpUsesVX = true) {nnn : Addr12} {x : Reg}
    (top : x.val = nnn.toNat / 0x100) : s.jumpOffset nnn = s.reg x := by
  have field : regOf (nnn.extractLsb' 8 4) = x := by
    refine Fin.ext ?_
    simp only [regOf, BitVec.extractLsb'_toNat, Nat.shiftRight_eq_div_pow, top]
    omega
  rw [State.jumpOffset, if_pos quirk, field]

/-- Settles O28: both jumps complete in every mode; what the offset is depends on the quirk. -/
theorem jumpsSetPc : Obligations.JumpsSetPc := by
  refine ⟨encodedBy_op 0x1 rfl (by decide) (fun w op => ?_) fun _ => Instr.existsIn_eq_decide rfl,
    encodedBy_op 0xB rfl (by decide) (fun w op => ?_) fun _ => Instr.existsIn_eq_decide rfl, fun nnn s => ⟨?_, ?_⟩⟩
  · simp [decodeShort, op]
  · simp [decodeShort, op]
  · refine ⟨_, exec_completes (Instr.existsIn_of_all _ rfl _) (exec_jp nnn s), ?_, rfl⟩
    rw [State.setPc_pc, BitVec.toNat_setWidth]
    omega
  · refine ⟨_, exec_completes (Instr.existsIn_of_all _ rfl _) (exec_jpV0 nnn s), rfl, fun quirk => ?_,
      fun quirk x top => ?_⟩
    · rw [State.setPc_pc, toNat_addr_add_byte, State.jumpOffset_v0 quirk]
    · rw [State.setPc_pc, toNat_addr_add_byte, State.jumpOffset_vx quirk top]

/-! ## The register skips, R126 to R129 -/

theorem unknown_of_refused {m : Mode} {w : Word} {op : Nibble} (hop : fieldOP w = op) (ne : op ≠ 0xF)
    (refused : Refused m (decodeShort w)) : Unknown m w := by
  have reads := decode_short m w [] (isLong_of_fieldOP hop ne)
  rwa [decodeInMode_unknown_iff.2 refused, List.append_nil] at reads

/-- Settles O32: the decoder by leading nibble, and one `Skip()` under four conditions. -/
theorem registerSkips : Obligations.RegisterSkips := by
  refine ⟨encodedBy_op 0x3 rfl (by decide) (fun w op => ?_) fun _ => Instr.existsIn_eq_decide rfl,
    encodedBy_op 0x4 rfl (by decide) (fun w op => ?_) fun _ => Instr.existsIn_eq_decide rfl,
    encodedBy_opN 0x5 0x0 rfl rfl (by decide) (fun w op n => ?_) fun _ => Instr.existsIn_eq_decide rfl,
    encodedBy_opN 0x9 0x0 rfl rfl (by decide) (fun w op n => ?_) fun _ => Instr.existsIn_eq_decide rfl,
    fun m w op n notXo => unknown_of_refused op (by decide) ?_, fun m w op n => unknown_of_refused op (by decide) ?_,
    fun x y kk s => ⟨?_, ?_, ?_, ?_⟩⟩
  · simp [decodeShort, op]
  · simp [decodeShort, op]
  · simp [decodeShort, decodeOp5, op, n]
  · simp [decodeShort, decodeOp9, op, n]
  · have word : decodeShort w = decodeOp5 w := by simp [decodeShort, op]
    rw [word, refused_decodeOp5]
    exact ⟨n, fun hm => not_or.1 fun range => notXo ⟨hm, range⟩⟩
  · have word : decodeShort w = decodeOp9 w := by simp [decodeShort, op]
    rwa [word, refused_decodeOp9]
  · exact skipsWhen_of (Instr.existsIn_of_all _ rfl _) beq_iff_eq (exec_seImm x kk s)
  · exact skipsWhen_of (Instr.existsIn_of_all _ rfl _) bne_iff_ne (exec_sneImm x kk s)
  · exact skipsWhen_of (Instr.existsIn_of_all _ rfl _) beq_iff_eq (exec_seReg x y s)
  · exact skipsWhen_of (Instr.existsIn_of_all _ rfl _) bne_iff_ne (exec_sneReg x y s)

/-! ## The exit, R132 -/

theorem encodedBy_exit : EncodedBy 0xFFFF 0x00FD schipModes (fun _ => .exit) :=
  encodedBy_all (by decide) rfl (Instr.existsIn_eq_decide rfl)

theorem exec_exit_of_mode {s : State} (hm : s.mode ≠ .chip8) : exec .exit s = .next (s.setRun .exited) :=
  exec_completes (Instr.existsIn_of_schip _ rfl hm) (exec_exit s)

theorem decodes_exit {m : Mode} (hm : m ≠ .chip8) : Decodes m 0x00FD .exit := by
  have reads := encodedBy_exit m 0x00FD (by decide)
  rwa [if_pos (mem_schipModes.2 hm)] at reads

theorem frameTail_exited (s : State) : frameTail (s.setRun .exited) = abandonFrame (s.setRun .exited) :=
  frameTail_ended nofun

/-- Settles O33: the step is the exit with pc after it, and the frame loop abandons the frame. -/
theorem exitStops : Obligations.ExitStops := by
  refine ⟨encodedBy_exit, fun s hm => ⟨exec_exit_of_mode hm, fun run ipf pc word => ⟨_, ?_, rfl, step_exited rfl⟩⟩⟩
  rw [step_running run ipf, instrStep_of_decodes pc (word ▸ decodes_exit hm), exec_exit_of_mode (State.setPc_mode .. ▸ hm),
    afterInstr_next, frameTail_exited]
  rfl

end Sys2Proof.Machine
end

section
/-!
PROOFS, 41_alu.md R150 to R161: the loads, the immediate addition, the logic operations, addition and subtraction, the shifts
by one and the random byte.
-/
namespace Sys2Proof.Machine

/-! ## Encodings -/

theorem decodeShort_op8 {w : Word} (op : fieldOP w = 0x8) : decodeShort w = decodeOp8 w := by simp [decodeShort, op]

/-- Format XYN with OP = 8: the sub-opcode N alone chooses the instruction. -/
theorem encodedBy_op8 (n : Nibble) {pattern : Word} {read : Word → Instr} (op : fieldOP pattern = 0x8)
    (sub : fieldN pattern = n) (reads : ∀ w, fieldN w = n → decodeOp8 w = some (read w))
    (gate : ∀ w, (read w).row.modes = allModes) : EncodedBy 0xF00F pattern allModes read :=
  encodedBy_opN 0x8 n op sub (by decide) (fun w op sub => (decodeShort_op8 op).trans (reads w sub))
    fun w => Instr.existsIn_eq_decide (gate w)

/-! ## The three ways to write a result -/

section
variable {i : Instr} {s : State} {x : Reg} {b : Byte} {result : Nat}

/-- One register is written, and no flag. -/
theorem setsRegisters_of_setReg (gate : i.row.modes = allModes) (eqn : exec i s = dispatch i s (.ok (s.setReg x b)))
    (value : b.toNat = result) : SetsRegisters i s fun r => if r = x then result else (s.reg r).toNat :=
  setsRegisters_of (Instr.existsIn_of_all i gate _) eqn (fun r => by rw [State.reg_setReg, ← value, apply_ite BitVec.toNat]) rfl

/-- R153 to R155. -/
theorem setsRegisters_of_setLogic (gate : i.row.modes = allModes) (eqn : exec i s = dispatch i s (.ok (s.setLogic x b)))
    (value : b.toNat = result) : SetsRegisters i s fun r =>
      if r = 15 ∧ s.quirks.logicResetsVF = true then 0 else if r = x then result else (s.reg r).toNat :=
  setsRegisters_of (Instr.existsIn_of_all i gate _) eqn (fun r => by rw [State.reg_setLogic, value]) (s.setLogic_registers x b)

/-- R163. -/
theorem setsRegisters_of_setResultFlag {bit : Bool} {flag : Nat} (gate : i.row.modes = allModes)
    (eqn : exec i s = dispatch i s (.ok (s.setResultFlag x b bit))) (value : b.toNat = result)
    (out : (if bit = true then 1 else 0) = flag) :
    SetsRegisters i s fun r => if r = 15 then flag else if r = x then result else (s.reg r).toNat :=
  setsRegisters_of (Instr.existsIn_of_all i gate _) eqn (fun r => by rw [State.reg_setResultFlag, value, out]) rfl

end

/-! ## Results and flags as numbers, R162 -/

theorem toNat_sumOf (a b : Byte) : (sumOf a b).toNat = (a.toNat + b.toNat) % 256 := BitVec.toNat_ofNat _ 8

theorem toNat_diffOf (a b : Byte) : (diffOf a b).toNat = (a.toNat + 256 - b.toNat) % 256 := BitVec.toNat_ofNat _ 8

theorem ite_carryOf (a b : Byte) : (if carryOf a b = true then 1 else 0) = if a.toNat + b.toNat > 0xFF then 1 else 0 := by
  simp only [carryOf, decide_eq_true_eq]

theorem ite_noBorrowOf (a b : Byte) : (if noBorrowOf a b = true then 1 else 0) = if a.toNat ≥ b.toNat then 1 else 0 := by
  simp only [noBorrowOf, decide_eq_true_eq]

theorem toNat_shiftSource (s : State) (x y : Reg) : (s.shiftSource x y).toNat =
    if s.quirks.shiftUsesVY = true then (s.reg y).toNat else (s.reg x).toNat := apply_ite BitVec.toNat ..

theorem ite_shiftedRight (b : Byte) : (if (shiftedRight b).2 = true then 1 else 0) = b.toNat % 2 := by
  simp only [toNat_shiftedRight b]
  split <;> omega

theorem ite_shiftedLeft (b : Byte) : (if (shiftedLeft b).2 = true then 1 else 0) = b.toNat / 128 := by
  have bound := b.isLt
  simp only [toNat_shiftedLeft b]
  split <;> omega

/-! ## The obligations -/

/-- Settles O34: each of the three writes one register. -/
theorem loadsAndImmediateAdd : Obligations.LoadsAndImmediateAdd := by
  refine ⟨encodedBy_op 0x6 rfl (by decide) (fun w op => ?_) fun _ => Instr.existsIn_eq_decide rfl,
    encodedBy_op 0x7 rfl (by decide) (fun w op => ?_) fun _ => Instr.existsIn_eq_decide rfl,
    encodedBy_op8 0x0 rfl rfl (fun w n => ?_) fun _ => rfl, fun x y kk s => ⟨?_, ?_, ?_⟩⟩
  · simp [decodeShort, op]
  · simp [decodeShort, op]
  · simp [decodeOp8, n]
  · exact setsRegisters_of_setReg rfl (exec_ldImm x kk s) rfl
  · exact setsRegisters_of_setReg rfl (exec_addImm x kk s) (toNat_sumOf _ _)
  · exact setsRegisters_of_setReg rfl (exec_ldReg x y s) rfl

/-- Settles O35: each operation is the bitwise one on the numbers, and the quirk's write to VF comes last. -/
theorem logicOperations : Obligations.LogicOperations := by
  refine ⟨encodedBy_op8 0x1 rfl rfl (fun w n => ?_) fun _ => rfl, encodedBy_op8 0x2 rfl rfl (fun w n => ?_) fun _ => rfl,
    encodedBy_op8 0x3 rfl rfl (fun w n => ?_) fun _ => rfl, fun x y s => ⟨?_, ?_, ?_⟩⟩
  · simp [decodeOp8, n]
  · simp [decodeOp8, n]
  · simp [decodeOp8, n]
  · exact setsRegisters_of_setLogic rfl (exec_or x y s) (BitVec.toNat_or _ _)
  · exact setsRegisters_of_setLogic rfl (exec_and x y s) (BitVec.toNat_and _ _)
  · exact setsRegisters_of_setLogic rfl (exec_xor x y s) (BitVec.toNat_xor _ _)

/-- Settles O36: sum and difference with their flags, VF after the result. -/
theorem addAndSubtract : Obligations.AddAndSubtract := by
  refine ⟨encodedBy_op8 0x4 rfl rfl (fun w n => ?_) fun _ => rfl, encodedBy_op8 0x5 rfl rfl (fun w n => ?_) fun _ => rfl,
    encodedBy_op8 0x7 rfl rfl (fun w n => ?_) fun _ => rfl, fun x y s => ⟨?_, ?_, ?_⟩⟩
  · simp [decodeOp8, n]
  · simp [decodeOp8, n]
  · simp [decodeOp8, n]
  · exact setsRegisters_of_setResultFlag rfl (exec_add x y s) (toNat_sumOf _ _) (ite_carryOf _ _)
  · exact setsRegisters_of_setResultFlag rfl (exec_sub x y s) (toNat_diffOf _ _) (ite_noBorrowOf _ _)
  · exact setsRegisters_of_setResultFlag rfl (exec_subn x y s) (toNat_diffOf _ _) (ite_noBorrowOf _ _)

/-- Settles O37: the source is the quirk's, and the flag is the bit that leaves it. -/
theorem shiftsByOne : Obligations.ShiftsByOne := by
  refine ⟨encodedBy_op8 0x6 rfl rfl (fun w n => ?_) fun _ => rfl, encodedBy_op8 0xE rfl rfl (fun w n => ?_) fun _ => rfl,
    fun x y s source hsource => ?_⟩
  · simp [decodeOp8, n]
  · simp [decodeOp8, n]
  · obtain rfl : (s.shiftSource x y).toNat = source := (toNat_shiftSource s x y).trans hsource.symm
    exact ⟨setsRegisters_of_setResultFlag rfl (exec_shr x y s) (toNat_shiftedRight _).1 (ite_shiftedRight _),
      setsRegisters_of_setResultFlag rfl (exec_shl x y s) (toNat_shiftedLeft _).1 (ite_shiftedLeft _)⟩

/-- Settles O38: the byte is the free one of this draw. -/
theorem randomByteIsMasked : Obligations.RandomByteIsMasked := by
  refine ⟨encodedBy_op 0xC rfl (by decide) (fun w op => ?_) fun _ => Instr.existsIn_eq_decide rfl, fun x kk s =>
    ⟨_, Config.freeByte s.draws, exec_completes (Instr.existsIn_of_all _ rfl _) (exec_rnd x kk s), fun r => ?_, rfl⟩⟩
  · simp [decodeShort, op]
  · rw [State.drawn_reg, State.reg_setReg]

end Sys2Proof.Machine
end

section
/-!
PROOFS, 42_index_memory.md R180 to R191: the address register, the glyphs, the stores and loads at I, and the transfers to and
from the persistent flag store.
-/
namespace Sys2Proof.Machine

/-! ## Encodings -/

theorem decodeShort_op5 {w : Word} (op : fieldOP w = 0x5) : decodeShort w = decodeOp5 w := by simp [decodeShort, op]

theorem decodeShort_opF {w : Word} (op : fieldOP w = 0xF) : decodeShort w = decodeOpF w := by simp [decodeShort, op]

section
variable {pattern : Word} {modes : List Mode} {read : Word → Instr}

/-- Format XYN with OP = 5: the sub-opcode N alone chooses the instruction. -/
theorem encodedBy_op5 (n : Nibble) (op : fieldOP pattern = 0x5) (sub : fieldN pattern = n)
    (reads : ∀ w, fieldN w = n → decodeOp5 w = some (read w)) (gate : ∀ w, (read w).row.modes = modes) :
    EncodedBy 0xF00F pattern modes read :=
  encodedBy_opN 0x5 n op sub (by decide) (fun w op sub => (decodeShort_op5 op).trans (reads w sub))
    fun w => Instr.existsIn_eq_decide (gate w)

/-- Format XSS with OP = F: the sub-opcode KK alone chooses the instruction. -/
theorem encodedBy_opF (kk : Byte) (op : fieldOP pattern = 0xF) (sub : fieldKK pattern = kk) (ne : kk ≠ 0)
    (reads : ∀ w, fieldKK w = kk → decodeOpF w = some (read w)) (gate : ∀ w, (read w).row.modes = modes) :
    EncodedBy 0xF0FF pattern modes read :=
  encodedBy_opKK 0xF kk op sub ne (fun w op sub => (decodeShort_opF op).trans (reads w sub))
    fun w => Instr.existsIn_eq_decide (gate w)

end

/-! ## The address register, R180 to R182 -/

/-- Settles O39: both write I through its mask, which a 12-bit address passes unchanged. -/
theorem addressRegisterLoadAndAdd : Obligations.AddressRegisterLoadAndAdd := by
  refine ⟨encodedBy_op 0xA rfl (by decide) (fun w op => ?_) fun _ => Instr.existsIn_eq_decide rfl,
    encodedBy_opF 0x1E rfl rfl (by decide) (fun w kk => ?_) fun _ => rfl, fun nnn x s => ⟨?_, ?_⟩⟩
  · simp [decodeShort, op]
  · simp [decodeOpF, kk]
  · refine ⟨_, exec_completes (Instr.existsIn_of_all _ rfl _) (exec_ldI nnn s), ?_, rfl⟩
    rw [State.toNat_setI, Nat.mod_eq_of_lt nnn.isLt]
  · exact ⟨_, exec_completes (Instr.existsIn_of_all _ rfl _) (exec_addI x s), State.toNat_setI _ _, rfl⟩

/-- R97: only XOCHIP mode reads 0xF000, as the first word of the long load. -/
theorem unknown_longWord {m : Mode} (hm : m ≠ .xochip) : Unknown m 0xF000 := by
  have reads := decode_short m 0xF000 [] (isLong_eq_false_iff.2 fun h => absurd h hm)
  have short : decodeShort 0xF000 = none := by decide
  rwa [decodeInMode_unknown_iff.2 (short ▸ refused_none m), List.append_nil] at reads

theorem exec_ldILong_of_xochip {s : State} (hm : s.mode = .xochip) (nnnn : Word) :
    exec (.ldILong nnnn) s = .next ((s.setPc (s.pc + 2)).setI nnnn.toNat) :=
  exec_completes (Instr.existsIn_of_xochip _ rfl hm) (exec_ldILong nnnn s)

/-- Settles O40: the fetch moves pc past the first word and the instruction past the second. -/
theorem longAddressLoad : Obligations.LongAddressLoad := by
  refine ⟨fun m => unknown_longWord, fun s hm => ⟨fun nnnn => ?_, fun pc long => ?_⟩⟩
  · exact ⟨_, exec_ldILong_of_xochip hm nnnn, State.toNat_setI _ _, rfl, rfl⟩
  · refine ⟨_, (instrStep_of_long pc hm long).trans (exec_ldILong_of_xochip (s := s.setPc (s.pc + 2)) hm _),
      State.toNat_setI _ _, ?_, rfl⟩
    simp only [State.setI_pc, State.setPc_pc]
    bv_omega

/-! ## The glyphs, R183, R184 -/

section
variable {s : State} {x : Reg}

theorem State.pointAtGlyph_standard (h : (s.reg x).toNat ≤ 0xF) :
    s.pointAtGlyph x .standard = .ok (s.setI (5 * (s.reg x).toNat)) := by
  simp [State.pointAtGlyph, fontAddress, fontSmallBase, Nat.not_lt.2 h]

theorem State.pointAtGlyph_standard_faults (h : 0xF < (s.reg x).toNat) :
    s.pointAtGlyph x .standard = .error (.font (s.reg x) .standard) := by
  simp [State.pointAtGlyph, fontAddress, h]

theorem State.pointAtGlyph_extended (hm : s.mode ≠ .chip8) (h : (s.reg x).toNat ≤ 9) :
    s.pointAtGlyph x .extended = .ok (s.setI (0x050 + 10 * (s.reg x).toNat)) := by
  simp [State.pointAtGlyph, fontAddress, fontLargeBase, hm, Nat.not_lt.2 h]

theorem State.pointAtGlyph_extended_faults (hm : s.mode ≠ .chip8) (h : 9 < (s.reg x).toNat) :
    s.pointAtGlyph x .extended = .error (.font (s.reg x) .extended) := by
  simp [State.pointAtGlyph, fontAddress, hm, h]

end

/-- Settles O41: every glyph's address is below 0x1000, so the mask of I keeps it. -/
theorem glyphAddresses : Obligations.GlyphAddresses := by
  refine ⟨encodedBy_opF 0x29 rfl rfl (by decide) (fun w kk => ?_) fun _ => rfl,
    encodedBy_opF 0x30 rfl rfl (by decide) (fun w kk => ?_) fun _ => rfl,
    fun x s => ⟨fun digit => ?_, fun above => ?_, fun hm digit => ?_, fun hm above => ?_⟩⟩
  · simp [decodeOpF, kk]
  · simp [decodeOpF, kk]
  · refine ⟨_, exec_completes (Instr.existsIn_of_all _ rfl _) (State.pointAtGlyph_standard digit ▸ exec_ldF x s), ?_, rfl⟩
    rw [State.toNat_setI, Nat.mod_eq_of_lt (by omega)]
  · exact exec_faults (Instr.existsIn_of_all _ rfl _) (State.pointAtGlyph_standard_faults above ▸ exec_ldF x s)
  · refine ⟨_, exec_completes (Instr.existsIn_of_schip _ rfl hm) (State.pointAtGlyph_extended hm digit ▸ exec_ldHF x s), ?_,
      rfl⟩
    rw [State.toNat_setI, Nat.mod_eq_of_lt (by omega)]
  · exact exec_faults (Instr.existsIn_of_schip _ rfl hm) (State.pointAtGlyph_extended_faults hm above ▸ exec_ldHF x s)

/-! ## Ranges of registers, R188 -/

theorem regRange_length_eq (x y : Reg) : (regRange x y).length = max x.val y.val - min x.val y.val + 1 := by
  rw [regRange_length]
  simp only [Fin.le_def]
  split <;> omega

/-- The register k places from X toward Y. -/
theorem regRange_getElem_eq {x y r : Reg} {k : Nat} (hk : k < (regRange x y).length)
    (place : if x ≤ y then r.val = x.val + k else r.val + k = x.val) : (regRange x y)[k] = r := by
  refine Fin.ext ?_
  rw [regRange_val]
  by_cases up : x ≤ y
  · rw [if_pos up] at place ⊢
    exact place.symm
  · rw [if_neg up] at place ⊢
    omega

theorem not_mem_regRange {x y r : Reg} (outside : r < min x y ∨ max x y < r) : r ∉ regRange x y := by
  rw [mem_regRange, not_and_or, not_le, not_le]
  exact outside

theorem mem_regRange_zero {x r : Reg} : r ∈ regRange 0 x ↔ r ≤ x := by
  rw [mem_regRange, min_eq_left (Fin.zero_le x), max_eq_right (Fin.zero_le x)]
  exact and_iff_right (Fin.zero_le r)

theorem State.length_regList_upTo (s : State) (x : Reg) : (s.regList (regRange 0 x)).length = x.val + 1 := by
  rw [State.length_regList, regRange_zero_length]

/-! ## The move of I, R186, R187 -/

section
variable (s : State) (x : Reg)

@[simp] theorem State.bumpI_mem : (s.bumpI x).mem = s.mem := by rw [(s.bumpI_spec x).2]

@[simp] theorem State.bumpI_v : (s.bumpI x).v = s.v := by rw [(s.bumpI_spec x).2]

@[simp] theorem State.bumpI_reg (r : Reg) : (s.bumpI x).reg r = s.reg r := by rw [(s.bumpI_spec x).2]; rfl

end

/-! ## Stores at I, R185, R186, R188 -/

section
variable {s : State} {bs : List Byte} {f : CoreFault}

theorem State.storeAtI_faults_low (ne : bs ≠ []) (low : s.I.toNat < 0x200) :
    s.storeAtI bs = .error (.memWrite s.I.toNat) := by
  rw [s.storeAtI_faults ne (.inl low), if_pos low]

/-- No store is long enough to leave memory from below 0x200. -/
theorem State.storeAtI_faults_high {d : Nat} (len : bs.length = d + 1) (short : d ≤ 0xF) (high : 0xFFF < s.I.toNat + d) :
    s.storeAtI bs = .error (.memWrite (max s.I.toNat 0x1000)) := by
  have ne : bs ≠ [] := List.ne_nil_of_length_eq_add_one len
  rw [s.storeAtI_faults ne (.inr (by omega)), if_neg (by omega)]

theorem exec_bcd_faults {x : Reg} (h : s.storeAtI (bcdDigits (s.reg x)) = .error f) :
    Faults (exec (.bcd x) s) f (s.pc - 2) (Instr.bcd x).firstWord :=
  exec_faults (Instr.existsIn_of_all _ rfl _) (by rw [exec_bcd, h])

theorem exec_storeRegs_faults {x : Reg} (h : s.storeAtI (s.regList (regRange 0 x)) = .error f) :
    Faults (exec (.storeRegs x) s) f (s.pc - 2) (Instr.storeRegs x).firstWord :=
  exec_faults (Instr.existsIn_of_all _ rfl _) (by rw [exec_storeRegs, h])

theorem exec_storeRange_faults {x y : Reg} (hm : s.mode = .xochip)
    (h : s.storeAtI (s.regList (regRange x y)) = .error f) :
    Faults (exec (.storeRange x y) s) f (s.pc - 2) (Instr.storeRange x y).firstWord :=
  exec_faults (Instr.existsIn_of_xochip _ rfl hm) (by rw [exec_storeRange, h])

end

@[simp] theorem length_bcdDigits (v : Byte) : (bcdDigits v).length = 3 := rfl

/-- The digits as numbers: each fits a byte. -/
theorem toNat_bcdDigits (v : Byte) : (bcdDigits v)[0].toNat = v.toNat / 100 ∧
    (bcdDigits v)[1].toNat = v.toNat / 10 % 10 ∧ (bcdDigits v)[2].toNat = v.toNat % 10 := by
  have bound := v.isLt
  have fits {n : Nat} (h : n < 256) : (BitVec.ofNat 8 n).toNat = n := (BitVec.toNat_ofNat n 8).trans (Nat.mod_eq_of_lt h)
  exact ⟨fits (by omega), fits (by omega), fits (by omega)⟩

/-- Settles O42: the three digits are one store at I. -/
theorem decimalDigitsAreStored : Obligations.DecimalDigitsAreStored := by
  refine ⟨encodedBy_opF 0x33 rfl rfl (by decide) (fun w kk => ?_) fun _ => rfl,
    fun x s => ⟨fun wf lo hi => ?_, fun low => ?_, fun high => ?_⟩⟩
  · simp [decodeOpF, kk]
  · have len := length_bcdDigits (s.reg x)
    obtain ⟨m, stored, -, at_I, elsewhere⟩ := s.storeAtI_completes (bs := bcdDigits (s.reg x)) wf lo (by omega)
    obtain ⟨hundreds, tens, ones⟩ := toNat_bcdDigits (s.reg x)
    refine ⟨s.setMem m, exec_completes (Instr.existsIn_of_all _ rfl _) (by rw [exec_bcd, stored]), ?_, ?_, ?_,
      fun a outside => elsewhere a (by omega), rfl⟩
    · exact (congrArg BitVec.toNat (at_I 0 (by simp))).trans hundreds
    · exact (congrArg BitVec.toNat (at_I 1 (by simp))).trans tens
    · exact (congrArg BitVec.toNat (at_I 2 (by simp))).trans ones
  · exact exec_bcd_faults (State.storeAtI_faults_low (List.cons_ne_nil _ _) low)
  · exact exec_bcd_faults (State.storeAtI_faults_high (length_bcdDigits _) (by decide) high)

/-- Settles O43: one store at I, then the quirk's move of I. -/
theorem bulkStore : Obligations.BulkStore := by
  refine ⟨encodedBy_opF 0x55 rfl rfl (by decide) (fun w kk => ?_) fun _ => rfl,
    fun x s => ⟨fun wf lo hi => ?_, fun low => ?_, fun high => ?_⟩⟩
  · simp [decodeOpF, kk]
  · obtain ⟨m, stores, -, stored, elsewhere⟩ := exec_storeRegs_of_fits x wf lo hi
    obtain ⟨moved, frame⟩ := (s.setMem m).bumpI_spec x
    refine ⟨_, stores, fun k hk => ?_, fun a outside => ?_, moved, ?_⟩
    · rw [State.bumpI_mem, State.setMem_mem, stored k hk]
    · rw [State.bumpI_mem, State.setMem_mem, elsewhere a outside]
    · rw [State.bumpI_mem]
      exact frame
  · exact exec_storeRegs_faults (State.storeAtI_faults_low (s.regList_regRange_ne_nil 0 x) low)
  · exact exec_storeRegs_faults
      (State.storeAtI_faults_high (s.length_regList_upTo x) (Nat.le_of_lt_succ x.isLt) high)

/-- Settles O45: one store at I, of the registers in the order of the range. -/
theorem rangeStore : Obligations.RangeStore := by
  refine ⟨encodedBy_op5 0x2 rfl rfl (fun w n => ?_) fun _ => rfl, ?_⟩
  · simp [decodeOp5, n]
  rintro x y s d hm rfl
  have len : (s.regList (regRange x y)).length = max x.val y.val - min x.val y.val + 1 := by
    rw [State.length_regList, regRange_length_eq]
  refine ⟨fun wf lo hi => ?_, fun low => ?_, fun high => ?_⟩
  · obtain ⟨m, stored, -, at_I, elsewhere⟩ := s.storeAtI_completes (bs := s.regList (regRange x y)) wf lo (by omega)
    refine ⟨s.setMem m, exec_completes (Instr.existsIn_of_xochip _ rfl hm) (by rw [exec_storeRange, stored]),
      fun r k hk place => ?_, fun a outside => elsewhere a (by omega), rfl⟩
    rw [State.setMem_mem, at_I k (by omega), State.getElem_regList, regRange_getElem_eq _ place]
  · exact exec_storeRange_faults hm (State.storeAtI_faults_low (s.regList_regRange_ne_nil x y) low)
  · exact exec_storeRange_faults hm (State.storeAtI_faults_high len (by omega) high)

/-! ## Loads from I, R187, R189 -/

/-- Bytes written to V[0] up to V[X]: each of these registers holds its byte, the others what they held. -/
theorem State.setRegs_upTo (s : State) (x : Reg) {bytes : List Byte} (len : bytes.length = x.val + 1) :
    ∃ v : Vector Byte 16, s.setRegs ((regRange 0 x).zip bytes) = { s with v := v } ∧
      ∀ r : Reg, v[r] = if r ≤ x then bytes.getD r.val 0 else s.reg r := by
  have same : bytes.length = (regRange 0 x).length := len.trans (regRange_zero_length x).symm
  refine ⟨_, s.setRegs_frame _, fun r => ?_⟩
  change (s.setRegs _).reg r = _
  by_cases hr : r ≤ x
  · have inside : r.val < bytes.length := len ▸ Nat.lt_succ_of_le hr
    have written := s.reg_setRegs_zip (regRange_nodup 0 x) same (same ▸ inside)
    rw [regRange_zero_getElem] at written
    rw [if_pos hr, written, List.getD_eq_getElem _ _ inside]
  · rw [if_neg hr, State.reg_setRegs_zip_of_notMem same fun mem => hr (mem_regRange_zero.1 mem)]

theorem State.loadFromI_faults_high {s : State} {rs : List Reg} {d : Nat} (len : rs.length = d + 1)
    (high : 0xFFF < s.I.toNat + d) : s.loadFromI rs = .error (.memRead (max s.I.toNat 0x1000)) :=
  s.loadFromI_faults (by omega) (by omega)

/-- `Fx65` inside memory: V[r] from I + r for r up to X, then the quirk's move of I. -/
theorem exec_loadRegs_of_fits (x : Reg) {s : State} (hi : s.I.toNat + x.val ≤ 0xFFF) :
    ∃ v : Vector Byte 16, exec (.loadRegs x) s = .next (State.bumpI { s with v := v } x) ∧
      ∀ r : Reg, v[r] = if r ≤ x then s.mem.get (s.I.toNat + r.val) else s.reg r := by
  have len := regRange_zero_length x
  obtain ⟨v, written, loaded⟩ := s.setRegs_upTo x
    (bytes := (List.range (regRange 0 x).length).map fun k => s.mem.get (s.I.toNat + k)) (by simp [len])
  refine ⟨v, exec_completes (Instr.existsIn_of_all _ rfl _) ?_,
    fun r => (loaded r).trans (ite_congr rfl (fun hr => ?_) fun _ => rfl)⟩
  · rw [exec_loadRegs, s.loadFromI_completes (by omega), written]
  · have inside : r.val < (regRange 0 x).length := len ▸ Nat.lt_succ_of_le hr
    simp [inside]

/-- Settles O44: one load from I, then the quirk's move of I. -/
theorem bulkLoad : Obligations.BulkLoad := by
  refine ⟨encodedBy_opF 0x65 rfl rfl (by decide) (fun w kk => ?_) fun _ => rfl,
    fun x s => ⟨fun hi => ?_, fun high => ?_⟩⟩
  · simp [decodeOpF, kk]
  · obtain ⟨v, loads, loaded⟩ := exec_loadRegs_of_fits x hi
    obtain ⟨moved, frame⟩ := State.bumpI_spec { s with v := v } x
    refine ⟨_, loads, fun r => ?_, moved, ?_⟩
    · rw [State.bumpI_reg]
      exact loaded r
    · rw [State.bumpI_v]
      exact frame
  · exact exec_faults (Instr.existsIn_of_all _ rfl _)
      (by rw [exec_loadRegs, State.loadFromI_faults_high (regRange_zero_length x) high])

/-- Settles O46: one load from I, into the registers in the order of the range. -/
theorem rangeLoad : Obligations.RangeLoad := by
  refine ⟨encodedBy_op5 0x3 rfl rfl (fun w n => ?_) fun _ => rfl, ?_⟩
  · simp [decodeOp5, n]
  rintro x y s d hm rfl
  have len := regRange_length_eq x y
  refine ⟨fun hi => ?_, fun high => ?_⟩
  · have fits : s.I.toNat + (regRange x y).length ≤ 0x1000 := by omega
    have lenBytes : ((List.range (regRange x y).length).map fun k => s.mem.get (s.I.toNat + k)).length =
        (regRange x y).length := by simp
    refine ⟨_, exec_completes (Instr.existsIn_of_xochip _ rfl hm) (s.loadFromI_completes fits ▸ exec_loadRange x y s),
      fun r k hk place => ?_, fun r outside => State.reg_setRegs_zip_of_notMem lenBytes (not_mem_regRange outside),
      s.setRegs_frame _⟩
    have inside : k < (regRange x y).length := by omega
    rw [← regRange_getElem_eq inside place, State.reg_setRegs_zip (regRange_nodup x y) lenBytes inside]
    simp
  · exact exec_faults (Instr.existsIn_of_xochip _ rfl hm) (by rw [exec_loadRange, State.loadFromI_faults_high len high])

/-- Settles O48: what the store left at I + r is what the load finds there. -/
theorem storeThenLoadRestores : Obligations.StoreThenLoadRestores := by
  intro x s v wf lo hi
  obtain ⟨m, stores, -, stored, -⟩ := exec_storeRegs_of_fits x wf lo hi
  obtain ⟨v', loads, loaded⟩ :=
    exec_loadRegs_of_fits x (s := { (s.setMem m).bumpI x with v := v, I := s.I }) hi
  refine ⟨_, _, stores, loads, fun r => ?_⟩
  rw [State.bumpI_reg]
  refine (loaded r).trans ?_
  simp only [State.bumpI_mem, State.setMem_mem]
  exact ite_congr rfl (stored r) fun _ => rfl

/-! ## The persistent flag store, R190, R191 -/

theorem rplCountCheck_passes {m : Mode} {x : Reg} (h : ¬ (m = .schip ∧ 7 < x.val)) : rplCountCheck m x = .ok () := if_neg h

theorem rplCountCheck_schip {m : Mode} {x : Reg} (hm : m = .schip) (above : 7 < x.val) :
    rplCountCheck m x = .error (.rplCount x) := if_pos ⟨hm, above⟩

section
variable {s : State} {x : Reg}

/-- `Fx75` with X at most 7: the flag store's bytes up to X take the registers' values, the rest stay. -/
theorem exec_storeRpl_of_fits (hm : s.mode ≠ .chip8) (fits : x.val ≤ 7) :
    ∃ rpl : Vector Byte 8, exec (.storeRpl x) s = .next (s.setRpl rpl) ∧
      ∀ (k : Fin 8) (r : Reg), r.val = k.val → rpl[k] = if r ≤ x then s.reg r else s.rpl[k] := by
  have len := s.length_regList_upTo x
  obtain ⟨rpl, write, stored⟩ := rplWriteAll_completes s.rpl (s.regList (regRange 0 x)) 0 (by omega)
  refine ⟨rpl, exec_completes (Instr.existsIn_of_schip _ rfl hm) ?_, fun k r same => (stored k).trans ?_⟩
  · rw [exec_storeRpl, rplCountCheck_passes (by omega)]
    simp only [write]
  · refine ite_congr (propext ?_) (fun hr => ?_) fun _ => rfl
    · rw [Fin.le_def]
      omega
    · have inside : r.val < (regRange 0 x).length := regRange_zero_length x ▸ Nat.lt_succ_of_le hr
      rw [Nat.sub_zero, ← same, State.getD_regList _ _ inside, regRange_zero_getElem]

/-- `Fx85` with X at most 7: the registers up to X take the flag store's bytes, the others stay. -/
theorem exec_loadRpl_of_fits (hm : s.mode ≠ .chip8) (fits : x.val ≤ 7) :
    ∃ v : Vector Byte 16, exec (.loadRpl x) s = .next { s with v := v } ∧
      (∀ (k : Fin 8) (r : Reg), r.val = k.val → r ≤ x → v[r] = s.rpl[k]) ∧ ∀ r : Reg, x < r → v[r] = s.reg r := by
  obtain ⟨bytes, read, len, byte⟩ := rplReadAll_completes s.rpl (x.val + 1) 0 (by omega)
  obtain ⟨v, written, loaded⟩ := s.setRegs_upTo x len
  refine ⟨v, exec_completes (Instr.existsIn_of_schip _ rfl hm) ?_, fun k r same hr => ?_, fun r hr => ?_⟩
  · rw [exec_loadRpl, rplCountCheck_passes (by omega)]
    simp only [read, written]
  · have := Fin.le_def.1 hr
    rw [loaded, if_pos hr, same, byte k.val (by omega) (by omega)]
    simp
  · rw [loaded, if_neg (not_le.2 hr)]

/-- In SCHIP mode the count is checked before any transfer. -/
theorem exec_rpl_faults_schip (hm : s.mode = .schip) (above : 7 < x.val) :
    Faults (exec (.storeRpl x) s) (.rplCount x) (s.pc - 2) (Instr.storeRpl x).firstWord ∧
      Faults (exec (.loadRpl x) s) (.rplCount x) (s.pc - 2) (Instr.loadRpl x).firstWord := by
  have check := rplCountCheck_schip hm above
  have notChip8 : s.mode ≠ .chip8 := by simp [hm]
  refine ⟨exec_faults (Instr.existsIn_of_schip _ rfl notChip8) ?_, exec_faults (Instr.existsIn_of_schip _ rfl notChip8) ?_⟩
  · rw [exec_storeRpl, check]
  · rw [exec_loadRpl, check]

/-- In XOCHIP mode the transfer itself faults, at the first index the flag store lacks. -/
theorem exec_rpl_faults_xochip (hm : s.mode = .xochip) (above : 7 < x.val) :
    Faults (exec (.storeRpl x) s) (.rplIndex 8) (s.pc - 2) (Instr.storeRpl x).firstWord ∧
      Faults (exec (.loadRpl x) s) (.rplIndex 8) (s.pc - 2) (Instr.loadRpl x).firstWord := by
  have check := rplCountCheck_passes (m := s.mode) (x := x) (by simp [hm])
  have len := s.length_regList_upTo x
  have write := rplWriteAll_faults s.rpl (s.regList (regRange 0 x)) 0 (by decide) (by omega)
  have read := rplReadAll_faults s.rpl (x.val + 1) 0 (by decide) (by omega)
  have notChip8 : s.mode ≠ .chip8 := by simp [hm]
  refine ⟨exec_faults (Instr.existsIn_of_schip _ rfl notChip8) ?_, exec_faults (Instr.existsIn_of_schip _ rfl notChip8) ?_⟩
  · rw [exec_storeRpl, check]
    simp only [write]
  · rw [exec_loadRpl, check]
    simp only [read]

end

/-- Settles O47: the transfers by whether X fits the store, the faults by mode. -/
theorem flagStoreTransfers : Obligations.FlagStoreTransfers := by
  refine ⟨encodedBy_opF 0x75 rfl rfl (by decide) (fun w kk => ?_) fun _ => rfl,
    encodedBy_opF 0x85 rfl rfl (by decide) (fun w kk => ?_) fun _ => rfl,
    fun x s hm => ⟨fun fits => ⟨?_, ?_⟩, fun above schip => exec_rpl_faults_schip schip above,
      fun above xochip => exec_rpl_faults_xochip xochip above⟩⟩
  · simp [decodeOpF, kk]
  · simp [decodeOpF, kk]
  · obtain ⟨rpl, stores, stored⟩ := exec_storeRpl_of_fits hm fits
    exact ⟨_, stores, stored, rfl⟩
  · obtain ⟨v, loads, loaded, kept⟩ := exec_loadRpl_of_fits hm fits
    exact ⟨_, loads, loaded, kept, rfl⟩

end Sys2Proof.Machine
end

section
/-!
PROOFS, 43_display.md R211 to R224: drawing, clearing, scrolling, the selection of planes, and what the host reads of the
display.
-/
namespace Sys2Proof.Machine

/-! ## Flipping a set of pixels, R212, R213 -/

/-- A plane and a collision flag, before and after a drawing that flips exactly the pixels in `cover` and raises the flag
exactly when one of them was set. -/
structure Flips (cover : Nat → Nat → Prop) (before after : Plane × Bool) : Prop where
  flipped : ∀ px py, cover px py → after.1.pixel px py = !before.1.pixel px py
  kept : ∀ px py, ¬ cover px py → after.1.pixel px py = before.1.pixel px py
  collision : after.2 = true ↔ before.2 = true ∨ ∃ px py, cover px py ∧ before.1.pixel px py = true

theorem Flips.nothing {cover : Nat → Nat → Prop} (empty : ∀ px py, ¬ cover px py) (acc : Plane × Bool) :
    Flips cover acc acc where
  flipped px py covered := absurd covered (empty px py)
  kept _ _ _ := rfl
  collision := by simp [empty]

/-- Two drawings that share no pixel are one drawing of both. -/
theorem Flips.union {C D : Nat → Nat → Prop} {a b c : Plane × Bool} (first : Flips C a b) (second : Flips D b c)
    (apart : ∀ px py, C px py → ¬ D px py) : Flips (fun px py => C px py ∨ D px py) a c := by
  have untouched (px py : Nat) (inD : D px py) : b.1.pixel px py = a.1.pixel px py :=
    first.kept px py fun inC => apart px py inC inD
  have same : (∃ px py, D px py ∧ b.1.pixel px py = true) ↔ ∃ px py, D px py ∧ a.1.pixel px py = true :=
    exists₂_congr fun px py => and_congr_right fun inD => by rw [untouched px py inD]
  refine ⟨fun px py covered => ?_, fun px py free => ?_, ?_⟩
  · rcases covered with inC | inD
    · rw [second.kept px py (apart px py inC), first.flipped px py inC]
    · rw [second.flipped px py inD, untouched px py inD]
  · obtain ⟨notC, notD⟩ := not_or.1 free
    rw [second.kept px py notD, first.kept px py notC]
  · rw [second.collision, first.collision, same]
    simp only [or_and_right, exists_or, or_assoc]

/-- Flipping the same pixels again restores the plane, and collides where the first time found a clear pixel. -/
theorem Flips.twice {cover : Nat → Nat → Prop} {a b c : Plane × Bool} {hit : Bool} (first : Flips cover a b)
    (second : Flips cover (b.1, hit) c) : c.1 = a.1 ∧
      (c.2 = true ↔ hit = true ∨ ∃ px py, cover px py ∧ a.1.pixel px py = false) := by
  refine ⟨Plane.eq_of_pixel_eq fun px py _ _ => ?_, second.collision.trans (or_congr_right ?_)⟩
  · by_cases covered : cover px py
    · rw [second.flipped px py covered, first.flipped px py covered, Bool.not_not]
    · rw [second.kept px py covered, first.kept px py covered]
  · exact exists₂_congr fun px py => and_congr_right fun covered => by rw [first.flipped px py covered, Bool.not_eq_true']

/-! ## Drawing a sprite, R212 -/

/-- The pixels of the area that the sprite `rows` covers, its first row at `y0` before wrapping. -/
def CoversInside (clip : Bool) (w h x0 y0 : Nat) (rows : List (List Bool)) (px py : Nat) : Prop :=
  px < w ∧ py < h ∧ Covers clip w h x0 y0 rows px py

section
variable {clip : Bool} {w h x0 y0 : Nat} {row : List Bool} {rows : List (List Bool)}

theorem drawRow_flips (hw : w ≤ 128) {y : Nat} (hy : y < 64) (left : x0 < w) (narrow : row.length ≤ w)
    (acc : Plane × Bool) :
    Flips (fun px py => RowCovers clip w x0 row px ∧ py = y) acc (drawRow clip w y x0 row acc) := by
  obtain ⟨flipped, kept, collision⟩ :=
    drawRow_spec (clip := clip) (by omega) hw hy row x0 acc.1 acc.2 narrow (by omega)
  refine ⟨?_, fun px py free => ?_, collision.trans (by simp)⟩
  · rintro px _ ⟨covered, rfl⟩
    exact flipped px covered
  · by_cases inRow : py = y
    · subst inRow
      exact kept px fun covered => free ⟨covered, rfl⟩
    · exact drawRow_pixel_of_outside (by omega) (.inr inRow) acc

theorem covers_cons {px py : Nat} : Covers clip w h x0 y0 (row :: rows) px py ↔
    (∃ c, row.getD c false = true ∧
      if clip = true then px = x0 + c ∧ py = y0 else px = (x0 + c) % w ∧ py = y0 % h) ∨
    Covers clip w h x0 (y0 + 1) rows px py := by
  unfold Covers
  rw [← Nat.or_exists_add_one]
  simp only [List.getD_cons_zero, List.getD_cons_succ, Nat.add_zero, Nat.add_assoc, Nat.add_comm 1]

/-- The row below the last one of the area is its first. -/
theorem wrapped_row (fit : y0 < 2 * h) : (if h ≤ y0 then y0 - h else y0) = y0 % h := by
  split
  · rw [Nat.mod_eq_sub_mod ‹_›, Nat.mod_eq_of_lt (by omega)]
  · rw [Nat.mod_eq_of_lt (by omega)]

/-- A sprite of which a row is still drawn: that row, at its place in the area, and the rows after it. -/
theorem coversInside_cons (drawn : ¬ (h ≤ y0 ∧ clip = true)) (fit : y0 < 2 * h) {px py : Nat} :
    CoversInside clip w h x0 y0 (row :: rows) px py ↔
      (RowCovers clip w x0 row px ∧ py = if h ≤ y0 then y0 - h else y0) ∨
        CoversInside clip w h x0 (y0 + 1) rows px py := by
  have below : py = y0 % h → py < h := fun here => here ▸ Nat.mod_lt _ (by omega)
  have place (clips : clip = true) : y0 % h = y0 := Nat.mod_eq_of_lt (not_le.1 fun low => drawn ⟨low, clips⟩)
  have column (c : Nat) :
      (if clip = true then px = x0 + c ∧ py = y0 else px = (x0 + c) % w ∧ py = y0 % h) ↔
        (if clip = true then px = x0 + c else px = (x0 + c) % w) ∧ py = y0 % h := by
    cases clip with
    | true => simp [place]
    | false => simp
  rw [wrapped_row fit]
  simp only [CoversInside, RowCovers, covers_cons, column, ← and_assoc, exists_and_right]
  rw [and_or_left]
  exact or_congr_left ⟨fun ⟨⟨left, _⟩, bit, here⟩ => ⟨⟨left, bit⟩, here⟩,
    fun ⟨⟨left, bit⟩, here⟩ => ⟨⟨left, below here⟩, bit, here⟩⟩

/-- A sprite of at most H rows draws none of them in the row of an earlier one. -/
theorem ne_of_coversInside_next (drawn : ¬ (h ≤ y0 ∧ clip = true)) (fit : y0 < 2 * h) (few : rows.length < h)
    {px py : Nat} (covered : CoversInside clip w h x0 (y0 + 1) rows px py) : py ≠ if h ≤ y0 then y0 - h else y0 := by
  obtain ⟨-, -, r, c, bit, place⟩ := covered
  have inside : r < rows.length := by
    by_contra beyond
    rw [List.getD_eq_default rows _ (by omega)] at bit
    cases bit
  cases clip with
  | true =>
    obtain ⟨-, rfl⟩ : _ ∧ _ := place
    rw [if_neg fun low => drawn ⟨low, rfl⟩]
    omega
  | false =>
    obtain ⟨-, rfl⟩ : _ ∧ _ := place
    rw [wrapped_row fit, Nat.add_assoc]
    exact add_mod_ne_mod (by omega) (by omega) (by omega)

theorem drawRows_flips (hw : w ≤ 128) (hh : h ≤ 64) (left : x0 < w) (fit : y0 + rows.length ≤ 2 * h)
    (few : rows.length ≤ h) (narrow : ∀ row ∈ rows, row.length ≤ w) (acc : Plane × Bool) :
    Flips (CoversInside clip w h x0 y0 rows) acc (drawRows clip w h x0 y0 rows acc) := by
  induction rows generalizing y0 acc with
  | nil => exact .nothing (fun px py ⟨_, _, r, c, bit, _⟩ => by simp at bit) acc
  | cons row rows ih =>
    simp only [List.length_cons] at fit few
    rw [drawRows]
    by_cases stop : h ≤ y0 ∧ clip = true
    · rw [if_pos stop]
      refine .nothing (fun px py ⟨_, inside, r, c, _, place⟩ => ?_) acc
      rw [if_pos stop.2] at place
      omega
    · rw [if_neg stop]
      have cover : CoversInside clip w h x0 y0 (row :: rows) = fun px py => _ :=
        funext₂ fun px py => propext (coversInside_cons stop (by omega))
      rw [cover]
      exact (drawRow_flips hw (by split <;> omega) left (narrow row (by simp)) acc).union
        (ih (by omega) (by omega) (fun r hr => narrow r (by simp [hr])) _)
        fun px py ⟨_, here⟩ covered => ne_of_coversInside_next stop (by omega) (by omega) covered here

end

/-- R212, R213: `DrawSprite` flips the pixels of the area that the sprite covers. -/
theorem drawSprite_flips (clip : Bool) {w h : Nat} (x y : Byte) {rows : List (List Bool)} (p : Plane) (loW : 16 ≤ w)
    (hiW : w ≤ 128) (loH : 16 ≤ h) (hiH : h ≤ 64) (few : rows.length ≤ 16) (narrow : ∀ row ∈ rows, row.length ≤ 16) :
    Flips (CoversInside clip w h (x.toNat % w) (y.toNat % h) rows) (p, false) (drawSprite clip w h x y rows p) := by
  have top : y.toNat % h < h := Nat.mod_lt _ (by omega)
  exact drawRows_flips hiW hiH (Nat.mod_lt _ (by omega)) (by omega) (by omega)
    (fun row hr => (narrow row hr).trans loW) _

/-- Settles O50: the loops of `DrawSprite` flip what the sprite covers inside the area. -/
theorem spriteFlipsWhatItCovers : Obligations.SpriteFlipsWhatItCovers := by
  intro clip w h x y rows p loW hiW loH hiH few narrow
  have draws := drawSprite_flips clip x y p loW hiW loH hiH few narrow
  refine ⟨fun px py inW inH => ⟨fun covered => draws.flipped px py ⟨inW, inH, covered⟩,
    fun free => draws.kept px py fun covered => free covered.2.2⟩, fun px py out => draws.kept px py ?_, ?_⟩
  · rintro ⟨inW, inH, -⟩
    omega
  · simp only [draws.collision, Bool.false_eq_true, false_or, CoversInside, and_assoc]

/-- Settles O51: the second drawing flips the same pixels as the first. -/
theorem drawingTwiceRestores : Obligations.DrawingTwiceRestores := by
  intro clip w h x y rows p loW hiW loH hiH few narrow
  have draws (q : Plane) := drawSprite_flips clip x y q loW hiW loH hiH few narrow
  obtain ⟨restored, collision⟩ := (draws p).twice (draws _)
  exact ⟨restored, by simpa only [Bool.false_eq_true, false_or, CoversInside, and_assoc] using collision⟩

/-! ## The sprite in memory, R211, R214 -/

/-- The rows of the sprite at address `a`: 16 words when it is the 16 by 16 one, else N bytes. -/
def State.spriteRows (s : State) (n : Nibble) (a : Nat) : List (List Bool) :=
  if s.isBigSprite n then
    (List.range 16).map fun r => (List.range 16).map fun c => (s.wordAt (a + 2 * r)).getLsbD (15 - c)
  else (List.range n.toNat).map fun r => (List.range 8).map fun c => (s.mem.get (a + r)).getLsbD (7 - c)

/-- One plane's drawing of the sprite at address `a`. -/
def State.drawnPlane (s : State) (x y : Reg) (n : Nibble) (a : Nat) (p : Plane) : Plane × Bool :=
  drawSprite s.quirks.clipSprites s.width s.height (s.reg x) (s.reg y) (s.spriteRows n a) p

/-- What `Dxyn` leaves in the first plane. -/
def State.drawnFirst (s : State) (x y : Reg) (n : Nibble) : Plane :=
  if s.sel = .second then s.p1 else (s.drawnPlane x y n s.I.toNat s.p1).1

/-- What `Dxyn` leaves in the second plane: with both selected, its sprite follows the first's. -/
def State.drawnSecond (s : State) (x y : Reg) (n : Nibble) : Plane :=
  match s.sel with
  | .first => s.p2
  | .second => (s.drawnPlane x y n s.I.toNat s.p2).1
  | .both => (s.drawnPlane x y n (s.I.toNat + s.spriteSize n) s.p2).1

/-- Whether `Dxyn` collides in a selected plane. -/
def State.drawnHit (s : State) (x y : Reg) (n : Nibble) : Bool :=
  match s.sel with
  | .first => (s.drawnPlane x y n s.I.toNat s.p1).2
  | .second => (s.drawnPlane x y n s.I.toNat s.p2).2
  | .both => (s.drawnPlane x y n s.I.toNat s.p1).2 || (s.drawnPlane x y n (s.I.toNat + s.spriteSize n) s.p2).2

section
variable {s : State} {n : Nibble} {a : Nat}

theorem State.spriteAt_of_fits (fits : s.spriteSize n = 0 ∨ a + s.spriteSize n ≤ 0x1000) :
    s.spriteAt n a = .ok (s.spriteRows n a) := by
  unfold State.spriteAt
  rw [memReadBytes_eq, if_pos fits]
  simp only [Except.ok.injEq, State.spriteRows, State.spriteSize]
  split
  · exact spriteRows16_map_range (fun k => s.mem.get (a + k)) 16
  · simp only [spriteRows8, List.map_map]
    rfl

theorem State.spriteAt_faults (ne : s.spriteSize n ≠ 0) (off : 0x1000 < a + s.spriteSize n) :
    s.spriteAt n a = .error (.memRead (max a 0x1000)) := by
  unfold State.spriteAt
  rw [memReadBytes_eq, if_neg (by omega)]

theorem State.drawPlane_of_fits (fits : s.spriteSize n = 0 ∨ a + s.spriteSize n ≤ 0x1000) (x y : Reg) (p : Plane) :
    s.drawPlane x y n a p = .ok (s.drawnPlane x y n a p) := by
  rw [State.drawPlane, State.spriteAt_of_fits fits]
  rfl

theorem State.drawPlane_faults (ne : s.spriteSize n ≠ 0) (off : 0x1000 < a + s.spriteSize n) (x y : Reg) (p : Plane) :
    s.drawPlane x y n a p = .error (.memRead (max a 0x1000)) := by
  rw [State.drawPlane, State.spriteAt_faults ne off]

/-! ## `Dxyn`, R214 -/

section
variable (x y : Reg)

theorem State.drawSelected_of_fits
    (fits : s.spriteSize n = 0 ∨ s.I.toNat + (if s.sel = .both then 2 else 1) * s.spriteSize n ≤ 0x1000) :
    s.drawSelected x y n =
      .ok ((s.setPlanes (s.drawnFirst x y n) (s.drawnSecond x y n)).setReg VF (flagByte (s.drawnHit x y n))) := by
  have fits1 : s.spriteSize n = 0 ∨ s.I.toNat + s.spriteSize n ≤ 0x1000 := by
    split at fits <;> omega
  cases sel : s.sel
  case both =>
    have fits2 : s.spriteSize n = 0 ∨ s.I.toNat + s.spriteSize n + s.spriteSize n ≤ 0x1000 := by
      rw [if_pos sel] at fits
      omega
    simp [State.drawSelected, State.drawnFirst, State.drawnSecond, State.drawnHit, State.ea, sel,
      State.drawPlane_of_fits fits1, State.drawPlane_of_fits fits2]
  all_goals simp [State.drawSelected, State.drawnFirst, State.drawnSecond, State.drawnHit, State.ea, sel,
    State.drawPlane_of_fits fits1]

/-- The planes are read in order, so the first address above 0xFFF is the one that faults. -/
theorem State.drawSelected_faults (ne : s.spriteSize n ≠ 0)
    (off : 0x1000 < s.I.toNat + (if s.sel = .both then 2 else 1) * s.spriteSize n) :
    s.drawSelected x y n = .error (.memRead (max s.I.toNat 0x1000)) := by
  by_cases short : 0x1000 < s.I.toNat + s.spriteSize n
  · have faults := State.drawPlane_faults ne short x y
    cases sel : s.sel <;> simp only [State.drawSelected, sel, State.ea, Nat.add_zero, faults]
  · by_cases sel : s.sel = .both
    · rw [if_pos sel] at off
      have fits : s.spriteSize n = 0 ∨ s.I.toNat + s.spriteSize n ≤ 0x1000 := .inr (by omega)
      have off2 : 0x1000 < s.I.toNat + s.spriteSize n + s.spriteSize n := by omega
      simp only [State.drawSelected, sel, State.ea, Nat.add_zero, State.drawPlane_of_fits fits,
        State.drawPlane_faults ne off2]
      rw [Nat.max_eq_right (by omega), Nat.max_eq_right (by omega)]
    · rw [if_neg sel] at off
      omega

end

end

theorem toNat_flagByte (hit : Bool) : (flagByte hit).toNat = if hit = true then 1 else 0 := by cases hit <;> rfl

/-- Settles O52: what the drawing leaves, element by element, and the fault of its first read above 0xFFF. -/
theorem drawInstruction : Obligations.DrawInstruction := by
  refine ⟨encodedBy_op 0xD rfl (by decide) (fun w op => ?_) fun _ => Instr.existsIn_eq_decide rfl, ?_⟩
  · simp [decodeShort, op]
  rintro x y n s big size planes rowsAt draw rfl rfl rfl rows draws
  obtain rfl : rowsAt = s.spriteRows n := funext rows
  obtain rfl : draw = fun p a => s.drawnPlane x y n a p := funext₂ draws
  refine ⟨fun fits => ?_, fun ne off => ?_⟩
  · refine ⟨_, exec_completes (Instr.existsIn_of_all _ rfl _)
      ((exec_drw x y n s).trans (congrArg _ (State.drawSelected_of_fits x y fits))), rfl, rfl, ?_,
      fun r ne => State.reg_setReg_ne _ _ ne, rfl⟩
    exact (congrArg BitVec.toNat (State.reg_setReg_self _ VF _)).trans (toNat_flagByte _)
  · exact exec_faults (Instr.existsIn_of_all _ rfl _) (by rw [exec_drw, State.drawSelected_faults x y ne off])

/-! ## The selected planes, and clearing, R210, R215, R221, R222 -/

section
variable (s : State) (f : Plane → Plane)

@[simp] theorem State.mapSelected_p1 : (s.mapSelected f).p1 = if s.sel.hasFirst = true then f s.p1 else s.p1 := rfl

@[simp] theorem State.mapSelected_p2 : (s.mapSelected f).p2 = if s.sel.hasSecond = true then f s.p2 else s.p2 := rfl

end

/-- Settles O53: CLS writes the selected planes, LOW and HIGH write both. -/
theorem clearingInstructions : Obligations.ClearingInstructions := by
  refine ⟨encodedBy_all (by decide) rfl (Instr.existsIn_eq_decide rfl),
    encodedBy_all (by decide) rfl (Instr.existsIn_eq_decide rfl),
    encodedBy_all (by decide) rfl (Instr.existsIn_eq_decide rfl), fun s => ⟨?_, fun hm => ⟨?_, ?_⟩⟩⟩
  · refine ⟨_, exec_completes (Instr.existsIn_of_all _ rfl _) (exec_cls s), fun x y => ?_, rfl⟩
    cases sel : s.sel <;> simp [sel, PlaneSel.hasFirst, PlaneSel.hasSecond]
  · exact ⟨_, exec_completes (Instr.existsIn_of_schip _ rfl hm) (exec_low s), rfl,
      fun x y => ⟨Plane.pixel_blank x y, Plane.pixel_blank x y⟩, rfl⟩
  · exact ⟨_, exec_completes (Instr.existsIn_of_schip _ rfl hm) (exec_high s), rfl,
      fun x y => ⟨Plane.pixel_blank x y, Plane.pixel_blank x y⟩, rfl⟩

/-! ## Scrolling, R216 -/

/-- New content for the active area, read as pixels. -/
theorem activeBecomes_mapActive (s : State) {new : Nat → BitVec 128} {f : (Nat → Nat → Bool) → Nat → Nat → Bool}
    (p : Plane) (pixels : ∀ x y, x < s.width → y < s.height → (new y).getLsbD x = f p.pixel x y) :
    ActiveBecomes s f p (p.mapActive s.width s.height new) := fun x y => by
  rw [Plane.pixel_mapActive s.width_le s.height_le]
  exact ite_congr rfl (fun ⟨inW, inH⟩ => pixels x y inW inH) fun _ => rfl

theorem activeBecomes_scrollDown (s : State) (n : Nat) (p : Plane) :
    ActiveBecomes s (fun P x y => if n ≤ y then P x (y - n) else false) p (scrollDown s.width s.height n p) :=
  activeBecomes_mapActive s p fun x y _ _ => by split <;> [rfl; exact BitVec.getLsbD_zero]

theorem activeBecomes_scrollUp (s : State) (n : Nat) (p : Plane) :
    ActiveBecomes s (fun P x y => if y + n < s.height then P x (y + n) else false) p
      (scrollUp s.width s.height n p) :=
  activeBecomes_mapActive s p fun x y _ _ => by split <;> [rfl; exact BitVec.getLsbD_zero]

theorem activeBecomes_scrollRight (s : State) (p : Plane) :
    ActiveBecomes s (fun P x y => if 4 ≤ x then P (x - 4) y else false) p (scrollRight s.width s.height p) :=
  activeBecomes_mapActive s p fun x y inW _ => by
    have inRow : x < 128 := by have := s.width_le; omega
    rw [BitVec.getLsbD_shiftLeft]
    by_cases edge : 4 ≤ x
    · simp [inRow, edge, Plane.pixel]
    · simp [edge, not_le.1 edge]

theorem activeBecomes_scrollLeft (s : State) (p : Plane) :
    ActiveBecomes s (fun P x y => if x + 4 < s.width then P (x + 4) y else false) p (scrollLeft s.width s.height p) :=
  activeBecomes_mapActive s p fun x y _ _ => by
    rw [BitVec.getLsbD_ushiftRight, BitVec.getLsbD_and, getLsbD_rowMask s.width_le, Nat.add_comm 4 x]
    by_cases edge : x + 4 < s.width <;> simp [edge, Plane.pixel]

theorem selectedBecome_mapSelected (s : State) {f : (Nat → Nat → Bool) → Nat → Nat → Bool} {g : Plane → Plane}
    (each : ∀ p, ActiveBecomes s f p (g p)) : SelectedBecome f s (s.mapSelected g) := by
  refine ⟨fun on => ?_, fun off => ?_, fun on => ?_, fun off => ?_, rfl⟩
  · simpa [on] using each s.p1
  · simp [off]
  · simpa [on] using each s.p2
  · simp [off]

theorem decodeShort_op0 {w : Word} (op : fieldOP w = 0x0) : decodeShort w = decodeOp0 w := by simp [decodeShort, op]

/-- Format N4 with OP = 0: X is 0, and Y alone chooses the instruction. -/
theorem encodedBy_op0 (y : Nibble) {pattern : Word} {modes : List Mode} {read : Word → Instr}
    (op : fieldOP pattern = 0x0) (x : fieldX pattern = 0x0) (sub : fieldY pattern = y)
    (reads : ∀ w, fieldX w = 0x0 → fieldY w = y → decodeOp0 w = some (read w))
    (gate : ∀ w, (read w).row.modes = modes) :
    EncodedBy 0xFFF0 pattern modes read :=
  encodedBy_opXY 0x0 0x0 y op x sub (by decide) (fun w op x sub => (decodeShort_op0 op).trans (reads w x sub))
    fun w => Instr.existsIn_eq_decide (gate w)

/-- Settles O54: each scroll, pixel by pixel, in every selected plane. -/
theorem scrollInstructions : Obligations.ScrollInstructions := by
  refine ⟨encodedBy_op0 0xC rfl rfl rfl (fun w x y => ?_) fun _ => rfl,
    encodedBy_op0 0xD rfl rfl rfl (fun w x y => ?_) fun _ => rfl,
    encodedBy_all (by decide) rfl (Instr.existsIn_eq_decide rfl),
    encodedBy_all (by decide) rfl (Instr.existsIn_eq_decide rfl),
    fun n s hm => ⟨?_, fun xo => ?_, ?_, ?_⟩⟩
  · simp [decodeOp0, x, y]
  · simp [decodeOp0, x, y]
  · exact ⟨_, exec_completes (Instr.existsIn_of_schip _ rfl hm) (exec_scd n s),
      selectedBecome_mapSelected s (activeBecomes_scrollDown s n.toNat)⟩
  · exact ⟨_, exec_completes (Instr.existsIn_of_xochip _ rfl xo) (exec_scu n s),
      selectedBecome_mapSelected s (activeBecomes_scrollUp s n.toNat)⟩
  · exact ⟨_, exec_completes (Instr.existsIn_of_schip _ rfl hm) (exec_scr s),
      selectedBecome_mapSelected s (activeBecomes_scrollRight s)⟩
  · exact ⟨_, exec_completes (Instr.existsIn_of_schip _ rfl hm) (exec_scl s),
      selectedBecome_mapSelected s (activeBecomes_scrollLeft s)⟩

/-! ## Selecting planes, R223 -/

theorem State.selectPlanes_faults (s : State) {mask : Nibble} (large : 3 < mask.toNat) :
    s.selectPlanes mask = .error (.planeMask mask) := by
  unfold State.selectPlanes
  split
  case h_5 => rfl
  all_goals exact absurd large (by decide)

/-- Settles O55: the four masks that select, and the fault of the others. -/
theorem planeSelection : Obligations.PlaneSelection := by
  refine ⟨encodedBy_opF 0x01 rfl rfl (by decide) (fun w kk => ?_) fun _ => rfl, fun mask s hm => ?_⟩
  · simp [decodeOpF, kk]
  have completes {t : State} (selects : s.selectPlanes mask = .ok t) : exec (.plane mask) s = .next t :=
    exec_completes (Instr.existsIn_of_xochip _ rfl hm) ((exec_plane mask s).trans (congrArg _ selects))
  have named {k : Nibble} (value : mask.toNat = k.toNat) : mask = k := BitVec.eq_of_toNat_eq value
  refine ⟨fun h => completes ?_, fun h => completes ?_, fun h => completes ?_, fun h => completes ?_,
    fun large => exec_faults (Instr.existsIn_of_xochip _ rfl hm)
      ((exec_plane mask s).trans (congrArg _ (s.selectPlanes_faults large)))⟩
  · rw [named (k := 0) h]; rfl
  · rw [named (k := 1) h]; rfl
  · rw [named (k := 2) h]; rfl
  · rw [named (k := 3) h]; rfl

/-! ## The host's reads, R224, 60 R283, R284, R288 -/

theorem State.colourNumber_eq (s : State) (x y : Nat) :
    s.colourNumber x y = (s.p1.pixel x y).toNat + 2 * (s.p2.pixel x y).toNat := by
  rw [State.colourNumber, State.colour]
  cases s.p1.pixel x y <;> cases s.p2.pixel x y <;> rfl

theorem viewOf_colours_getD {s : State} {x y : Nat} (inW : x < s.width) (inH : y < s.height) :
    ((viewOf s).colours.getD y []).getD x 0 = s.colourNumber x y := by
  simp [viewOf, inW, inH]

theorem audioGate_viewOf (s : State) : audioGate (viewOf s) = true ↔ s.st.toNat ≠ 0 :=
  bne_iff_ne.trans (not_congr BitVec.toNat_inj.symm)

/-- Settles O23: the answer between frames is the view of the state. -/
theorem hostReadsTheDisplay : Obligations.HostReadsTheDisplay := by
  refine fun s => ⟨fun run between => ⟨viewOf s, hostView_between run between, rfl, rfl, ?_, ?_, fun x y inW inH => ?_,
    rfl, rfl, rfl, rfl, rfl, rfl, audioGate_viewOf s⟩,
    fun run inFrame => ⟨hostView_inFrame run inFrame, hostStatus_inFrame run inFrame⟩, hostView_ended,
    fun allowed => ⟨_, hostStatus_outside fun run => allowed.resolve_left (not_not.2 run), rfl, rfl⟩⟩
  · simp [viewOf]
  · simp [viewOf]
  · exact ⟨rfl, (viewOf_colours_getD inW inH).trans (s.colourNumber_eq x y)⟩

end Sys2Proof.Machine
end

section
/-!
PROOFS, 44_timers_keys_audio.md R250 to R257: the timers and the pitch, the key skips, the wait for a key and the audio
pattern.
-/
namespace Sys2Proof.Machine

/-! ## Timers and pitch, R250 to R252, R257 -/

/-- Settles O56: one writer for each instruction; extended by zeros, the pitch is the same number. -/
theorem timerAndPitchRegisters : Obligations.TimerAndPitchRegisters := by
  refine ⟨encodedBy_opF 0x07 rfl rfl (by decide) (fun w kk => ?_) fun _ => rfl,
    encodedBy_opF 0x15 rfl rfl (by decide) (fun w kk => ?_) fun _ => rfl,
    encodedBy_opF 0x18 rfl rfl (by decide) (fun w kk => ?_) fun _ => rfl,
    encodedBy_opF 0x3A rfl rfl (by decide) (fun w kk => ?_) fun _ => rfl, fun x s => ⟨?_, ?_, ?_, fun hm => ?_⟩⟩
  · simp [decodeOpF, kk]
  · simp [decodeOpF, kk]
  · simp [decodeOpF, kk]
  · simp [decodeOpF, kk]
  · exact setsRegisters_of_setReg rfl (exec_getDelay x s) rfl
  · exact exec_completes (Instr.existsIn_of_all _ rfl _) (exec_setDelay x s)
  · exact exec_completes (Instr.existsIn_of_all _ rfl _) (exec_setSound x s)
  · exact ⟨_, exec_completes (Instr.existsIn_of_xochip _ rfl hm) (exec_pitch x s),
      BitVec.toNat_setWidth_of_le (by decide), rfl⟩

/-! ## Key skips, R253, R254 -/

/-- Format XSS with OP = E: the sub-opcode KK alone chooses the instruction. -/
theorem encodedBy_opE (kk : Byte) {pattern : Word} {read : Word → Instr} (op : fieldOP pattern = 0xE)
    (sub : fieldKK pattern = kk) (ne : kk ≠ 0) (reads : ∀ w, fieldKK w = kk → decodeOpE w = some (read w))
    (gate : ∀ w, (read w).row.modes = allModes) : EncodedBy 0xF0FF pattern allModes read :=
  encodedBy_opKK 0xE kk op sub ne
    (fun w op sub => (show decodeShort w = decodeOpE w by simp [decodeShort, op]).trans (reads w sub))
    fun w => Instr.existsIn_eq_decide (gate w)

theorem State.keyOf_key (s : State) {b : Byte} {k : Fin 16} (h : b.toNat = k.val) : s.keyOf b = .ok s.keys[k] := by
  simp [State.keyOf, h]

theorem State.keyOf_above (s : State) {b : Byte} (h : 0xF < b.toNat) : s.keyOf b = .error (.keyIndex b) :=
  dif_neg (by omega)

section
variable {s : State} {x : Reg}

/-- With no key of that number both skips stop at the lookup. -/
theorem exec_keySkips_fault (above : 0xF < (s.reg x).toNat) :
    Faults (exec (.skp x) s) (.keyIndex (s.reg x)) (s.pc - 2) (Instr.skp x).firstWord ∧
      Faults (exec (.sknp x) s) (.keyIndex (s.reg x)) (s.pc - 2) (Instr.sknp x).firstWord := by
  have lookup := s.keyOf_above above
  exact ⟨exec_faults (Instr.existsIn_of_all _ rfl _) (by rw [exec_skp, lookup]),
    exec_faults (Instr.existsIn_of_all _ rfl _) (by rw [exec_sknp, lookup])⟩

theorem skp_skipsWhen {k : Fin 16} (key : (s.reg x).toNat = k.val) : SkipsWhen (s.keys[k] = true) (.skp x) s :=
  skipsWhen_of (Instr.existsIn_of_all _ rfl _) Iff.rfl (by rw [exec_skp, s.keyOf_key key])

theorem sknp_skipsWhen {k : Fin 16} (key : (s.reg x).toNat = k.val) : SkipsWhen (s.keys[k] = false) (.sknp x) s :=
  skipsWhen_of (Instr.existsIn_of_all _ rfl _) (Bool.not_eq_true' _).to_iff (by rw [exec_sknp, s.keyOf_key key])

end

/-- Settles O57: the lookup of the key faults, or its state is the condition of the skip. -/
theorem keySkips : Obligations.KeySkips := by
  refine ⟨encodedBy_opE 0x9E rfl rfl (by decide) (fun w kk => ?_) fun _ => rfl,
    encodedBy_opE 0xA1 rfl rfl (by decide) (fun w kk => ?_) fun _ => rfl,
    fun x s => ⟨exec_keySkips_fault, fun k key => ⟨skp_skipsWhen key, sknp_skipsWhen key⟩⟩⟩
  · simp [decodeOpE, kk]
  · simp [decodeOpE, kk]

/-! ## Waiting for a key, R255 -/

theorem mem_pressedKeys {keys : Keys} {j : Nat} : j ∈ pressedKeys keys ↔ ∃ k : Fin 16, k.val = j ∧ keys[k] = true := by
  simp only [pressedKeys, List.mem_filter, List.mem_range]
  constructor
  · rintro ⟨lt, down⟩
    exact ⟨⟨j, lt⟩, rfl, by simpa [lt] using down⟩
  · rintro ⟨k, rfl, down⟩
    exact ⟨k.isLt, by simpa using down⟩

theorem pressedKeys_eq_nil {keys : Keys} (up : ∀ k : Fin 16, keys[k] = false) : pressedKeys keys = [] := by
  refine List.eq_nil_iff_forall_not_mem.2 fun j mem => ?_
  obtain ⟨k, -, down⟩ := mem_pressedKeys.1 mem
  exact Bool.false_ne_true ((up k).symm.trans down)

theorem pressedKeys_ne_nil {keys : Keys} {k : Fin 16} (down : keys[k] = true) : pressedKeys keys ≠ [] :=
  List.ne_nil_of_mem (mem_pressedKeys.2 ⟨k, rfl, down⟩)

section
variable {s : State} (x : Reg)

theorem State.takeKey_none (up : pressedKeys s.keys = []) : s.takeKey x = s.setPc (s.pc - 2) := by
  rw [State.takeKey, up]

/-- The draw stays inside the list of pressed keys, however many there are. -/
theorem State.takeKey_pressed (down : pressedKeys s.keys ≠ []) :
    ∃ j ∈ pressedKeys s.keys, ∃ draws, s.takeKey x = { s.setReg x (BitVec.ofNat 8 j) with draws := draws } := by
  unfold State.takeKey
  split
  case h_1 none => exact absurd none down
  case h_2 k one => exact ⟨k, by simp [one], s.draws, rfl⟩
  case h_3 k k' ks several =>
    have inside : Config.freeKey s.draws % (ks.length + 2) < (k :: k' :: ks).length := Nat.mod_lt _ (by omega)
    refine ⟨_, ?_, s.draws + 1, rfl⟩
    rw [several, List.getD_eq_getElem _ _ inside]
    exact List.getElem_mem inside

theorem exec_waitKey_next : exec (.waitKey x) s = .next (s.takeKey x) :=
  exec_completes (Instr.existsIn_of_all _ rfl _) (exec_waitKey x s)

end

/-- Settles O58: no key down rewinds pc; otherwise the taken key is one of those pressed. -/
theorem waitForKey : Obligations.WaitForKey := by
  refine ⟨encodedBy_opF 0x0A rfl rfl (by decide) (fun w kk => ?_) fun _ => rfl, fun x s => ⟨fun up => ?_, ?_⟩⟩
  · simp [decodeOpF, kk]
  · rw [exec_waitKey_next, State.takeKey_none x (pressedKeys_eq_nil up)]
    rfl
  · rintro ⟨_, down⟩
    obtain ⟨j, mem, draws, taken⟩ := State.takeKey_pressed x (pressedKeys_ne_nil down)
    obtain ⟨k, rfl, pressed⟩ := mem_pressedKeys.1 mem
    refine ⟨_, k, (exec_waitKey_next x).trans (congrArg _ taken), pressed, fun r => ?_, rfl⟩
    refine (congrArg BitVec.toNat (s.reg_setReg x r _)).trans ?_
    rw [apply_ite BitVec.toNat, BitVec.toNat_ofNat, Nat.mod_eq_of_lt (by omega)]

/-! ## The audio pattern, R256 -/

theorem getElem_patternOf (bytes : List Byte) (k : Fin 16) : (patternOf bytes)[k] = bytes.getD k.val 0 := by
  simp [patternOf]

section
variable {s : State} (hm : s.mode = .xochip)
include hm

theorem exec_audio_of_fits (fits : s.I.toNat + 15 ≤ 0xFFF) :
    exec .audio s =
      .next (s.setPattern (patternOf ((List.range 16).map fun k => s.mem.get (s.I.toNat + k)))) := by
  refine exec_completes (Instr.existsIn_of_xochip _ rfl hm) ?_
  rw [exec_audio, memReadBytes_eq, if_pos (.inr (by simp only [State.ea]; omega))]
  rfl

theorem exec_audio_faults (off : 0xFFF < s.I.toNat + 15) :
    Faults (exec .audio s) (.memRead (max s.I.toNat 0x1000)) (s.pc - 2) 0xF002 := by
  refine exec_faults (Instr.existsIn_of_xochip _ rfl hm) ?_
  rw [exec_audio, memReadBytes_eq, if_neg (by simp only [State.ea]; omega)]
  rfl

end

/-- Settles O59: the sixteen reads are one read at I, which fits or faults. -/
theorem audioPattern : Obligations.AudioPattern := by
  refine ⟨encodedBy_all (by decide) rfl (Instr.existsIn_eq_decide rfl),
    fun s hm => ⟨fun fits => ⟨_, exec_audio_of_fits hm fits, fun k => ?_, rfl⟩, exec_audio_faults hm⟩⟩
  rw [State.setPattern_pattern, getElem_patternOf]
  simp

end Sys2Proof.Machine
end

section
/-!
PROOFS, 60_exceptions.md §1: what a taken fault leaves (R270, R272), and which faults an instruction can take (R271).
-/
namespace Sys2Proof.Machine

/-! ## What a taken fault leaves, R270, R272 -/

theorem faultCode_range (f : CoreFault) : 1 ≤ faultCode f ∧ faultCode f ≤ 10 := by
  cases f <;> simp [faultCode]

/-- R272: the word at pc is the first word of what a fetch finds there, or the raw word of the fault it stops with, when
memory reaches that far. -/
def Fetched.RecordsWord (s : State) : Fetched → Prop
  | .run i _ => i.firstWord = s.wordAt s.pc.toNat
  | .stopped t => ∃ f raw, t = takeFault f s.pc raw s ∧ (s.pc.toNat ≤ 0xFFE → raw = s.wordAt s.pc.toNat)

theorem decodeFetched_recordsWord {s : State} {w : Word} (rest : List Byte) (word : w = s.wordAt s.pc.toNat) :
    (decodeFetched s w (bytesOf w ++ rest)).RecordsWord s := by
  rcases decodeFetched_cases s w (bytesOf w ++ rest) with ⟨i, left, reads, h⟩ | h <;> rw [h]
  · have bytes := (encodeAfterDecode _ _ _ _ reads).1
    rw [encode, List.append_assoc] at bytes
    exact (bytesOf_append_inj bytes).trans word
  · exact ⟨_, w, rfl, fun _ => word⟩

theorem fetch_recordsWord (s : State) : (fetch s).RecordsWord s := by
  by_cases inside : s.pc.toNat ≤ 0xFFE
  · rw [fetch, memReadWord_wordAt s inside]
    dsimp only
    split
    · cases memReadWord s.mem (s.pc.toNat + 2) with
      | error f => exact ⟨f, _, rfl, fun _ => rfl⟩
      | ok second => exact decodeFetched_recordsWord (bytesOf second) rfl
    · simpa only [List.append_nil] using decodeFetched_recordsWord (s := s) [] rfl
  · rw [fetch_off (by omega)]
    exact ⟨_, _, rfl, fun reached => absurd reached inside⟩

/-- R272: the fault that an instruction step takes is recorded with pc as it was before the step, and with the word there. -/
theorem instrStep_faulted {s u : State} (h : instrStep s = .next u) (run : s.run ≠ .faulted) (faulted : u.run = .faulted) :
    u.frames = s.frames ∧
    ∃ f raw, u.frec = some ⟨f, s.pc, raw⟩ ∧ (s.pc.toNat ≤ 0xFFE → raw = s.wordAt s.pc.toNat) := by
  have records := fetch_recordsWord s
  rcases instrStep_effect h run with ⟨_, -, -, -, good, -⟩ | ⟨i, f, fetched, rfl⟩ | ⟨_, _, fetched, -⟩
  · exact absurd faulted good
  · rw [fetched] at records
    have fetchedFrom : (s.setPc (s.pc + 2)).pc - 2 = s.pc := by simp
    exact ⟨rfl, f, i.firstWord, by rw [raise_frec, fetchedFrom], fun _ => records⟩
  · rw [fetched] at records
    obtain ⟨f, raw, rfl, word⟩ := records
    exact ⟨rfl, f, raw, rfl, word⟩

/-- Settles O12: the fault is one of the instruction step, and the frame loop abandons the frame. -/
theorem takingAFault : Obligations.TakingAFault := by
  intro s t h faulted
  obtain ⟨run, ⟨-, rfl⟩ | ⟨-, u, hu, rfl⟩⟩ := step_cases h
  · rw [endFrame_run, run] at faulted
    cases faulted
  · have stopped : step (frameTail u) = .fault .stoppedByFault := step_faulted faulted
    have noFrame : stepFrame (frameTail u) = .next (frameTail u) := stepFrame_stopped (by simp only [faulted]; decide)
    rw [frameTail_run] at faulted
    rw [frameTail_ended (by simp [faulted])] at stopped noFrame ⊢
    obtain ⟨frames, f, raw, frec, word⟩ := instrStep_faulted hu (by simp [run]) faulted
    obtain ⟨least, greatest⟩ := faultCode_range f
    exact ⟨⟨f, raw, frec, least, greatest, word⟩, rfl, frames, stopped, noFrame⟩

/-! ## The causes of faults, R271 -/

section
variable {s : State}

theorem State.push_error {a : Word} {f : CoreFault} (h : s.push a = .error f) : f = .stackOverflow ∧ s.sp.val = 16 := by
  by_cases room : s.sp.val < 16
  · rw [State.push_ok room] at h
    cases h
  · have full : s.sp.val = 16 := by omega
    rw [State.push_full full] at h
    cases h
    exact ⟨rfl, full⟩

theorem State.pop_error {f : CoreFault} (h : s.pop = .error f) : f = .stackUnderflow ∧ s.sp.val = 0 := by
  by_cases empty : s.sp.val = 0
  · rw [State.pop_empty empty] at h
    cases h
    exact ⟨rfl, empty⟩
  · rw [State.pop_ok empty] at h
    cases h

theorem State.selectPlanes_error {mask : Nibble} {f : CoreFault} (h : s.selectPlanes mask = .error f) :
    f = .planeMask mask ∧ 3 < mask.toNat := by
  by_cases large : 3 < mask.toNat
  · rw [State.selectPlanes_faults s large] at h
    cases h
    exact ⟨rfl, large⟩
  · have selects : mask = 0 ∨ mask = 1 ∨ mask = 2 ∨ mask = 3 := by bv_omega
    rcases selects with rfl | rfl | rfl | rfl <;> cases h

theorem State.pointAtGlyph_standard_error {x : Reg} {f : CoreFault} (h : s.pointAtGlyph x .standard = .error f) :
    f = .font (s.reg x) .standard ∧ 0xF < (s.reg x).toNat := by
  by_cases large : 0xF < (s.reg x).toNat
  · rw [State.pointAtGlyph_standard_faults large] at h
    cases h
    exact ⟨rfl, large⟩
  · rw [State.pointAtGlyph_standard (by omega)] at h
    cases h

theorem State.pointAtGlyph_extended_error {x : Reg} {f : CoreFault} (hm : s.mode ≠ .chip8)
    (h : s.pointAtGlyph x .extended = .error f) : f = .font (s.reg x) .extended ∧ 9 < (s.reg x).toNat := by
  by_cases large : 9 < (s.reg x).toNat
  · rw [State.pointAtGlyph_extended_faults hm large] at h
    cases h
    exact ⟨rfl, large⟩
  · rw [State.pointAtGlyph_extended hm (by omega)] at h
    cases h

end

/-- What a pseudocode comes to: the effect of the instruction, or a fault that the table lists for it with its cause. -/
def Accounted (i : Instr) (s : State) : Except CoreFault State → Prop
  | .ok t => Effect s t i
  | .error f => Instr.mayRaise s f i

section
variable {i : Instr} {s : State}

theorem accounted_of {p : Except CoreFault State} (effect : ∀ t, p = .ok t → Effect s t i)
    (cause : ∀ f, p = .error f → Instr.mayRaise s f i) : Accounted i s p := by
  cases p with
  | ok t => exact effect t rfl
  | error f => exact cause f rfl

theorem accounted_skipIf {c : Bool} (effect : ∀ t, s.skipIf c = .ok t → Effect s t i)
    (cause : ∀ a, 0xFFF < a ∧ s.mode = .xochip → Instr.mayRaise s (.memRead a) i) : Accounted i s (s.skipIf c) := by
  refine accounted_of effect fun f h => ?_
  obtain ⟨a, rfl, above⟩ := State.skipIf_error h
  exact cause a above

/-- The two instructions of the flag store: in SCHIP mode a count above 7 faults first, so that an index above 7 is met in
XOCHIP mode only (42 R190, R191). -/
theorem xochip_of_large_index {m : Mode} {x : Reg} {u : Unit} (notChip8 : m ≠ .chip8) (passes : rplCountCheck m x = .ok u)
    (large : 7 < x.val) : m = .xochip := by
  have notSchip : m ≠ .schip := fun schip => rplCountCheck_ok passes ⟨schip, large⟩
  cases m with
  | chip8 => exact absurd rfl notChip8
  | schip => exact absurd rfl notSchip
  | xochip => rfl

theorem notChip8_of_existsIn {m : Mode} (gate : i.row.modes = schipModes) (hm : i.existsIn m = true) : m ≠ .chip8 := by
  simpa [Instr.existsIn_eq_decide gate] using hm

end

/-- Every instruction of the mode comes to its effect, or to a fault of the table's rows that name it. -/
theorem exec_accounted {i : Instr} {s : State} (hm : i.existsIn s.mode = true) :
    ∃ p, exec i s = dispatch i s p ∧ Accounted i s p := by
  cases i
  case ret =>
    refine ⟨_, exec_ret s, ?_⟩
    cases h : s.pop with
    | ok r => exact ⟨_, _, h, rfl⟩
    | error f =>
      obtain ⟨rfl, empty⟩ := State.pop_error h
      exact empty
  case call nnn =>
    refine ⟨_, exec_call nnn s, ?_⟩
    cases h : s.push s.pc with
    | ok u => exact ⟨_, h, rfl⟩
    | error f =>
      obtain ⟨rfl, full⟩ := State.push_error h
      exact full
  case seImm | sneImm | seReg | sneReg => exact ⟨_, rfl, accounted_skipIf (fun _ => id) fun _ => id⟩
  case skp x | sknp x =>
    refine ⟨_, rfl, ?_⟩
    cases h : s.keyOf (s.reg x) with
    | ok down => exact accounted_skipIf (fun _ ht => ⟨down, h, ht⟩) fun _ => id
    | error f =>
      obtain ⟨rfl, noKey⟩ := State.keyOf_error h
      exact ⟨rfl, noKey⟩
  case storeRange | bcd =>
    refine ⟨_, rfl, accounted_of (fun _ => id) fun f h => ?_⟩
    obtain ⟨a, rfl, bad⟩ := State.storeAtI_error h
    exact bad
  case loadRange =>
    refine ⟨_, rfl, accounted_of (fun _ => id) fun f h => ?_⟩
    obtain ⟨a, rfl, above⟩ := State.loadFromI_error h
    exact above
  case storeRegs x =>
    refine ⟨_, exec_storeRegs x s, ?_⟩
    cases h : s.storeAtI (s.regList (regRange 0 x)) with
    | ok u => exact ⟨u, h, rfl⟩
    | error f =>
      obtain ⟨a, rfl, bad⟩ := State.storeAtI_error h
      exact bad
  case loadRegs x =>
    refine ⟨_, exec_loadRegs x s, ?_⟩
    cases h : s.loadFromI (regRange 0 x) with
    | ok u => exact ⟨u, h, rfl⟩
    | error f =>
      obtain ⟨a, rfl, above⟩ := State.loadFromI_error h
      exact above
  case audio =>
    refine ⟨_, exec_audio s, ?_⟩
    cases h : memReadBytes s.mem (s.ea 0) 16 with
    | ok bytes => exact ⟨bytes, _, h, rfl, rfl⟩
    | error f =>
      obtain ⟨a, rfl, above⟩ := memReadBytes_error h
      exact above
  case storeRpl x =>
    refine ⟨_, exec_storeRpl x s, ?_⟩
    cases hc : rplCountCheck s.mode x with
    | error f =>
      obtain ⟨rfl, cause⟩ := rplCountCheck_error hc
      exact ⟨rfl, cause⟩
    | ok u =>
      cases h : rplWriteAll s.rpl 0 (s.regList (regRange 0 x)) with
      | ok r => exact ⟨r, h, rfl⟩
      | error f =>
        obtain ⟨rfl, large⟩ := rplWriteAll_error (by decide) h
        rw [State.length_regList_upTo] at large
        exact ⟨rfl, xochip_of_large_index (notChip8_of_existsIn rfl hm) hc (by omega), by omega⟩
  case loadRpl x =>
    refine ⟨_, exec_loadRpl x s, ?_⟩
    cases hc : rplCountCheck s.mode x with
    | error f =>
      obtain ⟨rfl, cause⟩ := rplCountCheck_error hc
      exact ⟨rfl, cause⟩
    | ok u =>
      cases h : rplReadAll s.rpl 0 (x.val + 1) with
      | ok bytes => exact ⟨bytes, h, rfl⟩
      | error f =>
        obtain ⟨rfl, large⟩ := rplReadAll_error (by decide) h
        exact ⟨rfl, xochip_of_large_index (notChip8_of_existsIn rfl hm) hc (by omega), by omega⟩
  case drw =>
    refine ⟨_, rfl, accounted_of (fun _ => id) fun f h => ?_⟩
    obtain ⟨a, rfl, above⟩ := State.drawSelected_error h
    exact above
  case plane =>
    refine ⟨_, rfl, accounted_of (fun _ => id) fun f h => ?_⟩
    obtain ⟨rfl, large⟩ := State.selectPlanes_error h
    exact ⟨rfl, large⟩
  case ldF =>
    refine ⟨_, rfl, accounted_of (fun _ => id) fun f h => ?_⟩
    obtain ⟨rfl, large⟩ := State.pointAtGlyph_standard_error h
    exact ⟨rfl, large⟩
  case ldHF =>
    refine ⟨_, rfl, accounted_of (fun _ => id) fun f h => ?_⟩
    obtain ⟨rfl, large⟩ := State.pointAtGlyph_extended_error (notChip8_of_existsIn rfl hm) h
    exact ⟨rfl, large⟩
  all_goals exact ⟨.ok _, rfl, rfl⟩

/-- Settles O13: an effect never makes RUN FAULTED, so what faulted is the fault the pseudocode came to. -/
theorem faultsHaveTheirCauses : Obligations.FaultsHaveTheirCauses := by
  rintro i s f addr raw run hm ⟨u, hu, faulted, frec⟩
  obtain ⟨p, hp, accounted⟩ := exec_accounted hm
  rw [hp] at hu
  cases p with
  | ok t =>
    rw [dispatch_ok hm] at hu
    cases hu
    rcases effect_run accounted with same | exited
    · exact absurd (same.symm.trans faulted) run
    · rw [exited] at faulted
      cases faulted
  | error g =>
    rw [dispatch_error hm] at hu
    cases hu
    cases frec
    exact accounted

end Sys2Proof.Machine
end

section
/-!
PROOFS, 60_exceptions.md §4 and §5: the tick (R280), the end of a frame (R281, R285) and the host's key setters (R283).
-/
namespace Sys2Proof.Machine

/-! ## The tick, R280 -/

/-- Settles O22: a tick takes one off each timer, floored at 0. -/
theorem ticksCountDownToZero : Obligations.TicksCountDownToZero := by
  intro s n
  induction n with
  | zero => exact ⟨rfl, rfl, rfl⟩
  | succ n ih =>
    obtain ⟨dt, st, frame⟩ := ih
    rw [Function.iterate_succ_apply']
    refine ⟨?_, ?_, ?_⟩
    · rw [tick, tickTimer_toNat, dt, Nat.sub_sub]
    · rw [tick, tickTimer_toNat, st, Nat.sub_sub]
    · rw [frame]
      rfl

/-! ## The end of a frame, R281, R285 -/

/-- The host's next key vector, if it has one, is in K. -/
theorem endFrame_keys (s : State) :
    (endFrame s).keys = s.keyInputs.headD s.keys ∧ (endFrame s).keyInputs = s.keyInputs.tail := by
  cases h : s.keyInputs <;> simp [endFrame, takeKeyInput, tick, h]

theorem step_emptyFrame {s : State} (run : s.run = .running) (ipf : s.ipf = 0) : step s = .next (endFrame s) := by
  simp [step, run, ipf]

theorem step_of_instrStep {s u : State} (run : s.run = .running) (ipf : s.ipf ≠ 0) (h : instrStep s = .next u) :
    step s = .next (frameTail u) := by
  rw [step_running run ipf, h, afterInstr_next]

/-- Settles O20: the three tails of the frame loop, and the frame without an instruction. -/
theorem frameBoundary : Obligations.FrameBoundary := by
  refine fun s u run => ⟨fun ipf h => ⟨fun ended => ?_, fun goesOn budget => ?_⟩, fun last => ?_⟩
  · rw [step_of_instrStep run ipf h, frameTail_ended ended]
    rfl
  · rw [step_of_instrStep run ipf h, frameTail_inFrame goesOn budget]
  · have ends : step s = .next (endFrame u) := by
      rcases last with ⟨ipf, rfl⟩ | ⟨ipf, h, goesOn, budget⟩
      · exact step_emptyFrame run ipf
      · rw [step_of_instrStep run ipf h, frameTail_last goesOn (by omega)]
    obtain ⟨keys, keyInputs⟩ := endFrame_keys u
    refine ⟨endFrame u, ends, ?_, ?_, keys, keyInputs, ?_⟩
    · rw [endFrame_dt, tickTimer_toNat]
    · rw [endFrame_st, tickTimer_toNat]
    · rw [endFrame_dt, endFrame_st]
      exact endFrame_frame u

/-! ## The host's key setters, R283 -/

theorem getElem_set_key (keys : Keys) (k j : Fin 16) (b : Bool) : (keys.set k b)[j] = if j = k then b else keys[j] := by
  simp [Vector.getElem_set, Fin.ext_iff, eq_comm]

/-- Settles O24: a setter between frames is one write of K. -/
theorem keySettersChangeOneKey : Obligations.KeySettersChangeOneKey :=
  fun s k between => ⟨_, _, setKey_between true k between, setKey_between false k between,
    fun j => getElem_set_key s.keys k j true, rfl, fun j => getElem_set_key s.keys k j false, rfl⟩

end Sys2Proof.Machine
end

section
/-!
PROOFS, 60_exceptions.md R281: `StepFrame` is its steps. The frame loop of `StepFrame` keeps no count in the state, while the
machine's steps do; so every operation is shown to commute with `abandonFrame`, which clears the count.
-/
namespace Sys2Proof.Machine

/-! ## No instruction reads the count of the frame -/

section
variable (s : State)

@[simp] theorem abandonFrame_mode : (abandonFrame s).mode = s.mode := rfl
@[simp] theorem abandonFrame_pc : (abandonFrame s).pc = s.pc := rfl
@[simp] theorem abandonFrame_mem : (abandonFrame s).mem = s.mem := rfl
@[simp] theorem abandonFrame_rpl : (abandonFrame s).rpl = s.rpl := rfl
@[simp] theorem abandonFrame_p1 : (abandonFrame s).p1 = s.p1 := rfl
@[simp] theorem abandonFrame_p2 : (abandonFrame s).p2 = s.p2 := rfl
@[simp] theorem abandonFrame_sel : (abandonFrame s).sel = s.sel := rfl
@[simp] theorem abandonFrame_keys : (abandonFrame s).keys = s.keys := rfl
@[simp] theorem abandonFrame_reg (r : Reg) : (abandonFrame s).reg r = s.reg r := rfl
@[simp] theorem abandonFrame_regList (rs : List Reg) : (abandonFrame s).regList rs = s.regList rs := rfl
@[simp] theorem abandonFrame_ea (k : Nat) : (abandonFrame s).ea k = s.ea k := rfl
@[simp] theorem abandonFrame_keyOf (k : Byte) : (abandonFrame s).keyOf k = s.keyOf k := rfl
@[simp] theorem abandonFrame_spriteSize (n : Nibble) : (abandonFrame s).spriteSize n = s.spriteSize n := rfl
@[simp] theorem abandonFrame_drawPlane (x y : Reg) (n : Nibble) (a : Nat) (p : Plane) :
    (abandonFrame s).drawPlane x y n a p = s.drawPlane x y n a p := rfl

@[simp] theorem State.setRegs_abandonFrame (l : List (Reg × Byte)) :
    (abandonFrame s).setRegs l = abandonFrame (s.setRegs l) := by
  induction l generalizing s with
  | nil => rfl
  | cons c l ih => exact ih (s.setReg c.1 c.2)

theorem State.setLogic_abandonFrame (x : Reg) (b : Byte) :
    (abandonFrame s).setLogic x b = abandonFrame (s.setLogic x b) := by
  rw [State.setLogic, State.setLogic, apply_ite abandonFrame]
  rfl

theorem State.bumpI_abandonFrame (x : Reg) : (abandonFrame s).bumpI x = abandonFrame (s.bumpI x) := by
  rw [State.bumpI, State.bumpI, apply_ite abandonFrame]
  rfl

theorem State.takeKey_abandonFrame (x : Reg) : (abandonFrame s).takeKey x = abandonFrame (s.takeKey x) := by
  simp only [State.takeKey, abandonFrame_keys]
  split <;> rfl

theorem State.push_abandonFrame (a : Word) : (abandonFrame s).push a = (s.push a).map abandonFrame := by
  rw [State.push, State.push, apply_dite (Except.map abandonFrame)]
  rfl

theorem State.pop_abandonFrame : (abandonFrame s).pop = s.pop.map fun r => (r.1, abandonFrame r.2) := by
  rw [State.pop, State.pop, apply_ite (Except.map _)]
  rfl

theorem State.skip_abandonFrame : (abandonFrame s).skip = s.skip.map abandonFrame := by
  rw [State.skip, State.skip, apply_ite (Except.map abandonFrame), abandonFrame_mem, abandonFrame_pc]
  cases memReadWord s.mem s.pc.toNat <;> rfl

theorem State.skipIf_abandonFrame (c : Bool) : (abandonFrame s).skipIf c = (s.skipIf c).map abandonFrame := by
  cases c
  · rfl
  · exact s.skip_abandonFrame

theorem State.storeAtI_abandonFrame (bytes : List Byte) :
    (abandonFrame s).storeAtI bytes = (s.storeAtI bytes).map abandonFrame := by
  simp only [State.storeAtI, abandonFrame_mem, abandonFrame_ea]
  cases memWriteBytes s.mem (s.ea 0) bytes <;> rfl

theorem State.loadFromI_abandonFrame (rs : List Reg) :
    (abandonFrame s).loadFromI rs = (s.loadFromI rs).map abandonFrame := by
  simp only [State.loadFromI, abandonFrame_mem, abandonFrame_ea, State.setRegs_abandonFrame]
  cases memReadBytes s.mem (s.ea 0) rs.length <;> rfl

theorem State.pointAtGlyph_abandonFrame (x : Reg) (size : FontSize) :
    (abandonFrame s).pointAtGlyph x size = (s.pointAtGlyph x size).map abandonFrame := by
  simp only [State.pointAtGlyph, abandonFrame_mode, abandonFrame_reg]
  cases fontAddress s.mode (s.reg x) size <;> rfl

theorem State.drawSelected_abandonFrame (x y : Reg) (n : Nibble) :
    (abandonFrame s).drawSelected x y n = (s.drawSelected x y n).map abandonFrame := by
  simp only [State.drawSelected, abandonFrame_sel, abandonFrame_drawPlane, abandonFrame_ea, abandonFrame_spriteSize,
    abandonFrame_p1, abandonFrame_p2]
  cases s.sel with
  | first => cases s.drawPlane x y n (s.ea 0) s.p1 <;> rfl
  | second => cases s.drawPlane x y n (s.ea 0) s.p2 <;> rfl
  | both =>
    cases s.drawPlane x y n (s.ea 0) s.p1 with
    | error f => rfl
    | ok r => cases s.drawPlane x y n (s.ea (s.spriteSize n)) s.p2 <;> rfl

theorem State.selectPlanes_abandonFrame (mask : Nibble) :
    (abandonFrame s).selectPlanes mask = (s.selectPlanes mask).map abandonFrame := by
  unfold State.selectPlanes
  split <;> rfl

end

/-- Every instruction is one dispatch, of a pseudocode that comes to the same with the count cleared. -/
theorem exec_eq_dispatch_abandonFrame (i : Instr) (s : State) :
    ∃ p, exec i s = dispatch i s p ∧ exec i (abandonFrame s) = dispatch i (abandonFrame s) (p.map abandonFrame) := by
  cases i
  case ret =>
    refine ⟨_, exec_ret s, ?_⟩
    rw [exec_ret, State.pop_abandonFrame]
    cases s.pop <;> rfl
  case call nnn =>
    refine ⟨_, exec_call nnn s, ?_⟩
    rw [exec_call, abandonFrame_pc, State.push_abandonFrame]
    cases s.push s.pc <;> rfl
  case skp x | sknp x =>
    refine ⟨_, rfl, ?_⟩
    simp only [exec_skp, exec_sknp, abandonFrame_reg, abandonFrame_keyOf]
    cases s.keyOf (s.reg x) with
    | error f => rfl
    | ok down => exact congrArg (dispatch _ _) (s.skipIf_abandonFrame _)
  case audio =>
    refine ⟨_, exec_audio s, ?_⟩
    rw [exec_audio, abandonFrame_mem, abandonFrame_ea]
    cases memReadBytes s.mem (s.ea 0) 16 <;> rfl
  case storeRegs x =>
    refine ⟨_, exec_storeRegs x s, ?_⟩
    rw [exec_storeRegs, abandonFrame_regList, State.storeAtI_abandonFrame]
    cases s.storeAtI (s.regList (regRange 0 x)) with
    | error f => rfl
    | ok t => exact congrArg (dispatch _ _ <| .ok ·) (t.bumpI_abandonFrame x)
  case loadRegs x =>
    refine ⟨_, exec_loadRegs x s, ?_⟩
    rw [exec_loadRegs, State.loadFromI_abandonFrame]
    cases s.loadFromI (regRange 0 x) with
    | error f => rfl
    | ok t => exact congrArg (dispatch _ _ <| .ok ·) (t.bumpI_abandonFrame x)
  case storeRpl x =>
    refine ⟨_, exec_storeRpl x s, ?_⟩
    rw [exec_storeRpl, abandonFrame_mode, abandonFrame_rpl, abandonFrame_regList]
    cases rplCountCheck s.mode x with
    | error f => rfl
    | ok u => cases rplWriteAll s.rpl 0 (s.regList (regRange 0 x)) <;> rfl
  case loadRpl x =>
    refine ⟨_, exec_loadRpl x s, ?_⟩
    simp only [exec_loadRpl, abandonFrame_mode, abandonFrame_rpl, State.setRegs_abandonFrame]
    cases rplCountCheck s.mode x with
    | error f => rfl
    | ok u => cases rplReadAll s.rpl 0 (x.val + 1) <;> rfl
  case or | and | xor => exact ⟨.ok _, rfl, congrArg (dispatch _ _ <| .ok ·) (s.setLogic_abandonFrame _ _)⟩
  case waitKey x => exact ⟨.ok _, rfl, congrArg (dispatch _ _ <| .ok ·) (s.takeKey_abandonFrame x)⟩
  case seImm | sneImm | seReg | sneReg => exact ⟨_, rfl, congrArg (dispatch _ _) (s.skipIf_abandonFrame _)⟩
  case storeRange | bcd => exact ⟨_, rfl, congrArg (dispatch _ _) (s.storeAtI_abandonFrame _)⟩
  case loadRange => exact ⟨_, rfl, congrArg (dispatch _ _) (s.loadFromI_abandonFrame _)⟩
  case ldF | ldHF => exact ⟨_, rfl, congrArg (dispatch _ _) (s.pointAtGlyph_abandonFrame _ _)⟩
  case drw => exact ⟨_, rfl, congrArg (dispatch _ _) (s.drawSelected_abandonFrame _ _ _)⟩
  case plane => exact ⟨_, rfl, congrArg (dispatch _ _) (s.selectPlanes_abandonFrame _)⟩
  all_goals exact ⟨.ok _, rfl, rfl⟩

theorem exec_abandonFrame {i : Instr} {s t : State} (h : exec i s = .next t) :
    exec i (abandonFrame s) = .next (abandonFrame t) := by
  obtain ⟨p, hp, hp'⟩ := exec_eq_dispatch_abandonFrame i s
  rw [hp] at h
  rw [hp']
  cases hm : i.existsIn s.mode
  · rw [dispatch_absent hm] at h
    cases h
    exact dispatch_absent (s := abandonFrame s) hm _
  · cases p with
    | ok u =>
      rw [dispatch_ok hm] at h
      cases h
      exact dispatch_ok (s := abandonFrame s) hm
    | error f =>
      rw [dispatch_error hm] at h
      cases h
      exact dispatch_error (s := abandonFrame s) hm

/-- The outcome of a fetch with the count cleared. -/
def Fetched.abandonFrame : Fetched → Fetched
  | .run i t => .run i (Machine.abandonFrame t)
  | .stopped t => .stopped (Machine.abandonFrame t)

theorem decodeFetched_abandonFrame (s : State) (w : Word) (bytes : List Byte) :
    decodeFetched (abandonFrame s) w bytes = (decodeFetched s w bytes).abandonFrame := by
  rw [decodeFetched, decodeFetched, abandonFrame_mode]
  cases decode s.mode bytes <;> rfl

theorem fetch_abandonFrame (s : State) : fetch (abandonFrame s) = (fetch s).abandonFrame := by
  rw [fetch, fetch, abandonFrame_mem, abandonFrame_pc, abandonFrame_mode]
  simp only [decodeFetched_abandonFrame]
  cases memReadWord s.mem s.pc.toNat with
  | error f => rfl
  | ok w =>
    dsimp only
    cases isLong s.mode w
    · rfl
    · cases memReadWord s.mem (s.pc.toNat + 2) <;> rfl

theorem instrStep_abandonFrame {s u : State} (h : instrStep s = .next u) :
    instrStep (abandonFrame s) = .next (abandonFrame u) := by
  unfold instrStep at h ⊢
  rw [fetch_abandonFrame]
  cases hf : fetch s with
  | run i t =>
    rw [hf] at h
    exact exec_abandonFrame h
  | stopped t =>
    rw [hf] at h
    cases h
    rfl

/-! ## Counting the frame down -/

theorem Writes.frameDone_eq {s t : State} {i : Instr} (h : Writes s i t) : t.frameDone = s.frameDone := by
  induction h with
  | reg _ _ _ _ ih | draw _ ih | index _ _ _ ih | pc _ _ _ ih => exact ih
  | _ => rfl

/-- The instructions leave the frame loop's budget and count alone. -/
theorem instrStep_budget {s u : State} (h : instrStep s = .next u) (good : u.run ≠ .faulted) :
    u.ipf = s.ipf ∧ u.frameDone = s.frameDone := by
  obtain ⟨i, executed, -, -⟩ := instrStep_cases h good
  have writes := effect_writes (exec_effect executed good).2
  obtain ⟨-, -, ipf, -, -⟩ := writes.changesOnlyItsElements.config
  exact ⟨ipf, writes.frameDone_eq⟩

/-- What `StepFrame` makes of the state its loop leaves: the end of the frame, when RUN is still RUNNING. -/
def closeFrame : Answer → Answer
  | .next t => if t.run = .running then .next (endFrame t) else .next t
  | .fault f => .fault f
  | .refused r => .refused r

theorem stepFrame_eq_closeFrame {s : State} (run : s.run = .running) (between : s.frameDone = 0) :
    stepFrame s = closeFrame (frameSteps s.ipf s) := by
  simp only [stepFrame, run, between, if_true]
  rfl

theorem frameSteps_of_running {s u : State} {n : Nat} (h : instrStep s = .next u) (run : u.run = .running) :
    frameSteps (n + 1) s = frameSteps n u := by
  simp only [frameSteps, h, run, if_true]

theorem frameSteps_of_ended {s u : State} {n : Nat} (h : instrStep s = .next u) (run : u.run ≠ .running) :
    frameSteps (n + 1) s = .next u := by
  simp only [frameSteps, h, run, if_false]

theorem stepsWhileRunning_of_running {s t : State} {n : Nat} (h : step s = .next t) (run : t.run = .running) :
    stepsWhileRunning (n + 1) s = stepsWhileRunning n t := by
  simp only [stepsWhileRunning, h, run, if_true]

theorem stepsWhileRunning_of_ended {s t : State} {n : Nat} (h : step s = .next t) (run : t.run ≠ .running) :
    stepsWhileRunning (n + 1) s = .next t := by
  simp only [stepsWhileRunning, h, run, if_false]

/-- The steps left in a frame are the rest of the frame loop, which does not see the count. -/
theorem stepsWhileRunning_eq_closeFrame {n : Nat} {s : State} (run : s.run = .running)
    (left : s.frameDone + (n + 1) = s.ipf) :
    stepsWhileRunning (n + 1) s = closeFrame (frameSteps (n + 1) (abandonFrame s)) := by
  induction n using Nat.strongRecOn generalizing s with
  | ind n ih =>
    obtain ⟨u, hu⟩ := instrStep_next s
    have uncounted := instrStep_abandonFrame hu
    have counted := step_of_instrStep run (by omega) hu
    by_cases goesOn : u.run = .running
    · obtain ⟨ipf, count⟩ := instrStep_budget hu (by simp [goesOn])
      rw [stepsWhileRunning_of_running counted ((frameTail_run u).trans goesOn), frameSteps_of_running uncounted goesOn]
      cases n with
      | zero =>
        rw [frameTail_last goesOn (by omega)]
        exact (if_pos goesOn).symm
      | succ n =>
        rw [frameTail_inFrame goesOn (by omega)]
        have leftAfter : u.frameDone + 1 + (n + 1) = u.ipf := by omega
        exact ih n n.lt_succ_self goesOn leftAfter
    · rw [stepsWhileRunning_of_ended counted (by rwa [frameTail_run]), frameSteps_of_ended uncounted goesOn,
        frameTail_ended goesOn]
      exact (if_neg goesOn).symm

theorem abandonFrame_of_between {s : State} (between : s.frameDone = 0) : abandonFrame s = s := by
  rw [abandonFrame, ← between]

/-- Settles O21: a frame of IPF instructions is counted down step by step; an empty one is one step. -/
theorem stepFrameIsItsSteps : Obligations.StepFrameIsItsSteps := by
  intro s run between
  rw [stepFrame_eq_closeFrame run between]
  cases ipf : s.ipf with
  | zero =>
    rw [Nat.max_zero, stepsWhileRunning_of_running (step_emptyFrame run ipf) ((endFrame_run s).trans run)]
    exact if_pos run
  | succ n =>
    rw [max_eq_right (by omega), stepsWhileRunning_eq_closeFrame run (by omega), abandonFrame_of_between between]

end Sys2Proof.Machine
end

section
/-!
PROOFS, 70_reset_and_hazards.md R310, R312, R318: the invariant at reset, the limits on the image's length, and the sound
timer of 1.
-/
namespace Sys2Proof.Machine

/-! ## The invariant at reset, R310 -/

/-- Blank planes, an empty stack and no fault record; the loader leaves memory canonical. -/
theorem State.resetWith_inv {a : ResetArgs} {t : State} (h : State.resetWith a = .next t) : t.Inv := by
  have fits : a.image.length ≤ 3584 := by
    by_contra long
    rw [State.resetWith_refused a (by omega)] at h
    cases h
  rw [State.resetWith_eq a fits] at h
  cases h
  exact {
    memCanonical := a.memory_wf
    recordWhenFaulted := nofun
    live := fun _ => {
      addressInRange := Nat.zero_le _
      pcBound := show State.reset.pc.toNat ≤ 0x10FE by decide
      slotBound := fun _ used => absurd used (Nat.not_lt_zero _)
      plane1Quiet := Plane.quietOutside_blank _ _
      plane2Quiet := Plane.quietOutside_blank _ _
      loresInChip8 := fun _ => rfl
      firstPlaneOutsideXochip := fun _ => rfl
      frameInBudget := .inl rfl
      noFaultRecord := rfl } }

/-- Settles O15: the model's reset state is the reset with the default arguments. -/
theorem resetHasTheInvariant : Obligations.ResetHasTheInvariant :=
  ⟨State.resetWith_inv State.resetWith_default, fun _ _ => State.resetWith_inv⟩

/-! ## The image's length, R312 -/

/-- Above the fonts, memory after a reset with an empty image is zeros. -/
theorem ResetArgs.get_memory_of_emptyImage {a : ResetArgs} (empty : a.image = []) {adr : Nat} (above : 180 ≤ adr) :
    a.memory.get adr = 0x00 := by
  rw [a.get_memory, empty, if_neg (by simp; omega), if_neg (by omega), if_neg (by omega), Memory.unlisted_of_le above]

/-- No row of the opcode map selects the word 0x0000. -/
theorem no_row_selects_zero : ∀ r ∈ opcodeMap, ¬ (0x0000 : Word) &&& r.mask = r.pattern := by decide

/-- A step on the word 0x0000 is the fault of an unknown instruction. -/
theorem step_on_zeroWord {s : State} (run : s.run = .running) (ipf : s.ipf ≠ 0) (pc : s.pc.toNat ≤ 0xFFE)
    (zero : s.wordAt s.pc.toNat = 0x0000) : Faults (step s) (.unknownInstruction 0x0000) s.pc 0x0000 := by
  have faults := unknownWordFaultsTheStep s run ipf pc
  rw [zero] at faults
  exact faults fun r mem selected => no_row_selects_zero r mem selected.1

/-- Settles O27: the loader refuses a long image, and after an empty one pc points at two zero bytes. -/
theorem imageLengthLimits : Obligations.ImageLengthLimits := by
  refine fun a => ⟨State.resetWith_refused a, fun empty ipf =>
    ⟨_, State.resetWith_eq a (by simp [empty]),
      step_on_zeroWord rfl ipf (show State.reset.pc.toNat ≤ 0xFFE by decide) ?_⟩⟩
  change wordOf (a.memory.get 0x200) (a.memory.get 0x201) = 0x0000
  rw [ResetArgs.get_memory_of_emptyImage empty (by decide), ResetArgs.get_memory_of_emptyImage empty (by decide)]
  rfl

/-! ## The sound timer of 1, R318 -/

/-- What the host is shown after an instruction is the end of a frame, with the timers ticked. -/
theorem hostView_frameTail {u : State} {v : HostView} (shown : hostView (frameTail u) = .ok v) :
    frameTail u = endFrame u ∧ v = viewOf (endFrame u) := by
  obtain ⟨run, between, view⟩ := hostView_ok shown
  rw [frameTail_run] at run
  by_cases budget : u.frameDone + 1 < u.ipf
  · rw [frameTail_inFrame run budget] at between
    exact absurd between (Nat.succ_ne_zero _)
  · have last := frameTail_last run budget
    exact ⟨last, last ▸ view⟩

/-- Settles O60: inside a frame and after its abandonment nothing is shown, and at its end the tick has cleared ST. -/
theorem soundTimerOfOneIsNeverSeen : Obligations.SoundTimerOfOneIsNeverSeen := by
  refine fun s u run ipf h one => ⟨frameTail u, step_of_instrStep run ipf h, fun v shown => ?_⟩
  obtain ⟨last, rfl⟩ := hostView_frameTail shown
  have silent : (endFrame u).st.toNat = 0 := by rw [endFrame_st, tickTimer_toNat, one]
  refine ⟨last ▸ silent, silent, ?_⟩
  rw [Bool.eq_false_iff, Ne, audioGate_viewOf]
  exact not_not.2 silent

end Sys2Proof.Machine
end
